-- ==== Sys2Proof/Word.lean ====
section
/-! DEFINITION. The word types of the core (00_scope.md R7, R10): 32-bit words, bytes, and the fields of an instruction word. -/

namespace Sys2Proof

/-- A 32-bit register, address or instruction word (R7). -/
abbrev Word := BitVec 32

/-- The unit of memory (R80). -/
abbrev Byte := BitVec 8

/-- A 5-bit register field: a general register 0..31, or a CP0 register 0..31 in MFC0 and MTC0 (R124). -/
abbrev RegNum := BitVec 5

/-- The 5-bit shift-amount field (R121). -/
abbrev Shamt := BitVec 5

/-- The 16-bit immediate or offset field (R121). -/
abbrev Imm16 := BitVec 16

/-- The 26-bit jump-target field (R121). -/
abbrev Target26 := BitVec 26

end Sys2Proof
end

