-- ==== Sys2Proof/Machine/Operands.lean ====
section
/-! DEFINITION. Operand assembly (30_encoding.md R123): every form an instruction's rule names. -/

namespace Sys2Proof.Machine

/-- `simm`: the immediate sign-extended (ADDI, ADDIU, SLTI, SLTIU and the load/store offset). -/
def simm (imm : Imm16) : Word := imm.signExtend 32

/-- `zimm`: the immediate zero-extended (ANDI, ORI, XORI). -/
def zimm (imm : Imm16) : Word := imm.setWidth 32

/-- `uimm`: the immediate in the upper half, the lower half 0 (LUI). -/
def uimm (imm : Imm16) : Word := imm ++ 0#16

/-- `boff`: the branch offset in bytes, modulo 2^32. -/
def boff (imm : Imm16) : Word := (imm.signExtend 32) <<< 2

/-- `jtarget`: the target of J and JAL; `pc` is the address of the jump plus 4 (R190). -/
def jtarget (pc : Word) (target : Target26) : Word := (pc &&& 0xF0000000#32) ||| ((target.setWidth 32) <<< 2)

/-- `sa`: the constant shift amount, 0..31. -/
def sa (shamt : Shamt) : Nat := shamt.toNat

/-- `vsa`: the shift amount of a register, its low 5 bits (R235). -/
def vsa (v : Word) : Nat := (v &&& 0x1F#32).toNat

/-- R288: the effective address of a load or store, base plus signed offset modulo 2^32. -/
def effAddr (base : Word) (imm : Imm16) : Word := base + simm imm

/-- The address of the word that holds a byte address: `ea & 0xFFFFFFFC` (R165, R346). -/
def wordAligned (a : Word) : Word := a &&& 0xFFFFFFFC#32

/-- The place of a byte address within its word: `ea & 3` (R346). -/
def byteInWord (a : Word) : Nat := (a &&& 3#32).toNat

end Sys2Proof.Machine
end

