-- ==== Sys2Proof/Syntax.lean ====
section
/-! DEFINITION. The 59 instructions of the core: the 49 of 30_encoding.md R140 and the ten of R141. One constructor per row of
spec/opcode_table.json. The operands stand in the order of the "Operands" line of each instruction's rule; a load or
store `OP rt, imm(rs)` has the order rt, rs, imm. -/

namespace Sys2Proof

inductive Instr where
  /-- R190 J. -/
  | j (target : Target26)
  /-- R191 JAL. -/
  | jal (target : Target26)
  /-- R192 JR. -/
  | jr (rs : RegNum)
  /-- R193 JALR. -/
  | jalr (rd rs : RegNum)
  /-- R194 BEQ. -/
  | beq (rs rt : RegNum) (imm : Imm16)
  /-- R195 BNE. -/
  | bne (rs rt : RegNum) (imm : Imm16)
  /-- R196 BLEZ. -/
  | blez (rs : RegNum) (imm : Imm16)
  /-- R197 BGTZ. -/
  | bgtz (rs : RegNum) (imm : Imm16)
  /-- R198 BLTZ. -/
  | bltz (rs : RegNum) (imm : Imm16)
  /-- R199 BGEZ. -/
  | bgez (rs : RegNum) (imm : Imm16)
  /-- R200 BGEZAL. -/
  | bgezal (rs : RegNum) (imm : Imm16)
  /-- R220 ADD. -/
  | add (rd rs rt : RegNum)
  /-- R221 ADDU. -/
  | addu (rd rs rt : RegNum)
  /-- R222 ADDI. -/
  | addi (rt rs : RegNum) (imm : Imm16)
  /-- R223 ADDIU. -/
  | addiu (rt rs : RegNum) (imm : Imm16)
  /-- R224 SUB. -/
  | sub (rd rs rt : RegNum)
  /-- R225 SUBU. -/
  | subu (rd rs rt : RegNum)
  /-- R226 AND. -/
  | and (rd rs rt : RegNum)
  /-- R227 ANDI. -/
  | andi (rt rs : RegNum) (imm : Imm16)
  /-- R228 OR. -/
  | or (rd rs rt : RegNum)
  /-- R229 ORI. -/
  | ori (rt rs : RegNum) (imm : Imm16)
  /-- R230 XOR. -/
  | xor (rd rs rt : RegNum)
  /-- R231 XORI. -/
  | xori (rt rs : RegNum) (imm : Imm16)
  /-- R232 NOR. -/
  | nor (rd rs rt : RegNum)
  /-- R236 SLL. -/
  | sll (rd rt : RegNum) (shamt : Shamt)
  /-- R237 SRL. -/
  | srl (rd rt : RegNum) (shamt : Shamt)
  /-- R238 SRA. -/
  | sra (rd rt : RegNum) (shamt : Shamt)
  /-- R239 SLLV. -/
  | sllv (rd rt rs : RegNum)
  /-- R240 SRLV. -/
  | srlv (rd rt rs : RegNum)
  /-- R241 SRAV. -/
  | srav (rd rt rs : RegNum)
  /-- R242 SLT. -/
  | slt (rd rs rt : RegNum)
  /-- R243 SLTU. -/
  | sltu (rd rs rt : RegNum)
  /-- R244 SLTI. -/
  | slti (rt rs : RegNum) (imm : Imm16)
  /-- R245 SLTIU. -/
  | sltiu (rt rs : RegNum) (imm : Imm16)
  /-- R246 LUI. -/
  | lui (rt : RegNum) (imm : Imm16)
  /-- R260 MULT. -/
  | mult (rs rt : RegNum)
  /-- R261 DIV. -/
  | div (rs rt : RegNum)
  /-- R262 DIVU. -/
  | divu (rs rt : RegNum)
  /-- R280 LB. -/
  | lb (rt rs : RegNum) (imm : Imm16)
  /-- R281 LBU. -/
  | lbu (rt rs : RegNum) (imm : Imm16)
  /-- R282 LH. -/
  | lh (rt rs : RegNum) (imm : Imm16)
  /-- R283 LHU. -/
  | lhu (rt rs : RegNum) (imm : Imm16)
  /-- R284 LW. -/
  | lw (rt rs : RegNum) (imm : Imm16)
  /-- R285 SB. -/
  | sb (rt rs : RegNum) (imm : Imm16)
  /-- R286 SH. -/
  | sh (rt rs : RegNum) (imm : Imm16)
  /-- R287 SW. -/
  | sw (rt rs : RegNum) (imm : Imm16)
  /-- R310 MFC0: rd numbers a CP0 register. -/
  | mfc0 (rt rd : RegNum)
  /-- R311 MTC0: rd numbers a CP0 register. -/
  | mtc0 (rt rd : RegNum)
  /-- R313 SYSCALL. -/
  | syscall
  /-- R340 MULTU (P_EXTENDED). -/
  | multu (rs rt : RegNum)
  /-- R341 MFHI (P_EXTENDED). -/
  | mfhi (rd : RegNum)
  /-- R342 MTHI (P_EXTENDED). -/
  | mthi (rs : RegNum)
  /-- R343 MFLO (P_EXTENDED). -/
  | mflo (rd : RegNum)
  /-- R344 MTLO (P_EXTENDED). -/
  | mtlo (rs : RegNum)
  /-- R345 BLTZAL (P_EXTENDED). -/
  | bltzal (rs : RegNum) (imm : Imm16)
  /-- R346 LWL (P_EXTENDED). -/
  | lwl (rt rs : RegNum) (imm : Imm16)
  /-- R347 LWR (P_EXTENDED). -/
  | lwr (rt rs : RegNum) (imm : Imm16)
  /-- R348 SWL (P_EXTENDED). -/
  | swl (rt rs : RegNum) (imm : Imm16)
  /-- R349 SWR (P_EXTENDED). -/
  | swr (rt rs : RegNum) (imm : Imm16)
deriving DecidableEq, Repr

/-- The ten instructions admitted only under P_EXTENDED (R141). -/
def Instr.isExtended : Instr → Bool
  | .j _ => false
  | .jal _ => false
  | .jr _ => false
  | .jalr _ _ => false
  | .beq _ _ _ => false
  | .bne _ _ _ => false
  | .blez _ _ => false
  | .bgtz _ _ => false
  | .bltz _ _ => false
  | .bgez _ _ => false
  | .bgezal _ _ => false
  | .add _ _ _ => false
  | .addu _ _ _ => false
  | .addi _ _ _ => false
  | .addiu _ _ _ => false
  | .sub _ _ _ => false
  | .subu _ _ _ => false
  | .and _ _ _ => false
  | .andi _ _ _ => false
  | .or _ _ _ => false
  | .ori _ _ _ => false
  | .xor _ _ _ => false
  | .xori _ _ _ => false
  | .nor _ _ _ => false
  | .sll _ _ _ => false
  | .srl _ _ _ => false
  | .sra _ _ _ => false
  | .sllv _ _ _ => false
  | .srlv _ _ _ => false
  | .srav _ _ _ => false
  | .slt _ _ _ => false
  | .sltu _ _ _ => false
  | .slti _ _ _ => false
  | .sltiu _ _ _ => false
  | .lui _ _ => false
  | .mult _ _ => false
  | .div _ _ => false
  | .divu _ _ => false
  | .lb _ _ _ => false
  | .lbu _ _ _ => false
  | .lh _ _ _ => false
  | .lhu _ _ _ => false
  | .lw _ _ _ => false
  | .sb _ _ _ => false
  | .sh _ _ _ => false
  | .sw _ _ _ => false
  | .mfc0 _ _ => false
  | .mtc0 _ _ => false
  | .syscall => false
  | .multu _ _ => true
  | .mfhi _ => true
  | .mthi _ => true
  | .mflo _ => true
  | .mtlo _ => true
  | .bltzal _ _ => true
  | .lwl _ _ _ => true
  | .lwr _ _ _ => true
  | .swl _ _ _ => true
  | .swr _ _ _ => true

end Sys2Proof
end

