-- ==== Sys2Proof/WellFormed.lean ====
section
/-! DEFINITION. When an instruction is one the machine admits. Every operand is a field of exactly its encoded width, so the
operand types leave nothing to check (30_encoding.md R121, R124, R145); what is left is the admitted set of R140 and R141. -/

namespace Sys2Proof

/-- R140, R141: with P_EXTENDED false the 49 instructions of R140 are admitted, with P_EXTENDED true all 59. -/
def Instr.wf (extended : Bool) (i : Instr) : Bool := extended || !i.isExtended

end Sys2Proof
end

