-- ==== Sys2Proof/Decode.lean ====
section
/-! DEFINITION. The decoder of 30_encoding.md (R120-R134, R145, R150), total on every word and every list of bytes and rejecting by
name, and after it the encoder, written from the same maps. The byte-order helpers of R92 and R120 stand here too. -/

namespace Sys2Proof

/-! ### Byte order (R92, R120) -/

/-- The value of bytes in ascending address order: the first byte holds bits 7:0 (R90, R92). -/
def wordOfBytes : List Byte → Word
  | [] => 0#32
  | b :: bs => b.setWidth 32 ||| (wordOfBytes bs <<< 8)

/-- The four bytes of a word, the byte of the lowest address first (R92). -/
def bytesOfWord (w : Word) : List Byte :=
  [w.extractLsb' 0 8, w.extractLsb' 8 8, w.extractLsb' 16 8, w.extractLsb' 24 8]

/-! ### Fields (R121, R122) -/

/-- The record of every field of the three formats, sliced from one word (R122). -/
structure Fields where
  op : BitVec 6
  rs : RegNum
  rt : RegNum
  rd : RegNum
  shamt : Shamt
  funct : BitVec 6
  imm : Imm16
  target : Target26
deriving DecidableEq, Repr

/-- R122: `op = w[31:26]`, `rs = w[25:21]`, `rt = w[20:16]`, `rd = w[15:11]`, `shamt = w[10:6]`, `funct = w[5:0]`, `imm = w[15:0]`,
`target = w[25:0]`. -/
def fields (w : Word) : Fields where
  op := w.extractLsb' 26 6
  rs := w.extractLsb' 21 5
  rt := w.extractLsb' 16 5
  rd := w.extractLsb' 11 5
  shamt := w.extractLsb' 6 5
  funct := w.extractLsb' 0 6
  imm := w.extractLsb' 0 16
  target := w.extractLsb' 0 26

/-! ### The decoder (R130-R134) -/

/-- Why a word is `Unknown` (R150), by the map that has no entry for it. -/
inductive UnknownWord where
  /-- The primary opcode has no entry in R130's map. -/
  | primary (op : Nat)
  /-- The function code has no entry in R131's map. -/
  | special (funct : Nat)
  /-- The rt selector has no entry in R132's map. -/
  | regimm (rt : Nat)
  /-- The rs selector has no entry in R133's map. -/
  | cop0 (rs : Nat)
  /-- The entry is marked (ext) and P_EXTENDED is false. -/
  | needsExtended (i : Instr)
  /-- Fewer than four bytes are left; no fetch of R161 gives so few. -/
  | truncated
deriving DecidableEq, Repr

/-- What `Decode(w)` of R134 answers. -/
inductive Decoded where
  | known (i : Instr)
  | unknown (why : UnknownWord)
deriving DecidableEq, Repr

/-- R131: the SPECIAL map, selected by `funct`. -/
def specialMap (f : Fields) : Decoded :=
  match f.funct.toNat with
  | 0x00 => .known (.sll f.rd f.rt f.shamt)
  | 0x02 => .known (.srl f.rd f.rt f.shamt)
  | 0x03 => .known (.sra f.rd f.rt f.shamt)
  | 0x04 => .known (.sllv f.rd f.rt f.rs)
  | 0x06 => .known (.srlv f.rd f.rt f.rs)
  | 0x07 => .known (.srav f.rd f.rt f.rs)
  | 0x08 => .known (.jr f.rs)
  | 0x09 => .known (.jalr f.rd f.rs)
  | 0x0C => .known .syscall
  | 0x10 => .known (.mfhi f.rd)
  | 0x11 => .known (.mthi f.rs)
  | 0x12 => .known (.mflo f.rd)
  | 0x13 => .known (.mtlo f.rs)
  | 0x18 => .known (.mult f.rs f.rt)
  | 0x19 => .known (.multu f.rs f.rt)
  | 0x1A => .known (.div f.rs f.rt)
  | 0x1B => .known (.divu f.rs f.rt)
  | 0x20 => .known (.add f.rd f.rs f.rt)
  | 0x21 => .known (.addu f.rd f.rs f.rt)
  | 0x22 => .known (.sub f.rd f.rs f.rt)
  | 0x23 => .known (.subu f.rd f.rs f.rt)
  | 0x24 => .known (.and f.rd f.rs f.rt)
  | 0x25 => .known (.or f.rd f.rs f.rt)
  | 0x26 => .known (.xor f.rd f.rs f.rt)
  | 0x27 => .known (.nor f.rd f.rs f.rt)
  | 0x2A => .known (.slt f.rd f.rs f.rt)
  | 0x2B => .known (.sltu f.rd f.rs f.rt)
  | n => .unknown (.special n)

/-- R132: the REGIMM map, selected by `rt`; the other values are no aliases (D20). -/
def regimmMap (f : Fields) : Decoded :=
  match f.rt.toNat with
  | 0x00 => .known (.bltz f.rs f.imm)
  | 0x01 => .known (.bgez f.rs f.imm)
  | 0x10 => .known (.bltzal f.rs f.imm)
  | 0x11 => .known (.bgezal f.rs f.imm)
  | n => .unknown (.regimm n)

/-- R133: the COP0 map, selected by `rs`. -/
def cop0Map (f : Fields) : Decoded :=
  match f.rs.toNat with
  | 0x00 => .known (.mfc0 f.rt f.rd)
  | 0x04 => .known (.mtc0 f.rt f.rd)
  | n => .unknown (.cop0 n)

/-- R130: the primary map, for the opcodes other than SPECIAL, REGIMM and COP0. -/
def primaryMap (f : Fields) : Decoded :=
  match f.op.toNat with
  | 0x02 => .known (.j f.target)
  | 0x03 => .known (.jal f.target)
  | 0x04 => .known (.beq f.rs f.rt f.imm)
  | 0x05 => .known (.bne f.rs f.rt f.imm)
  | 0x06 => .known (.blez f.rs f.imm)
  | 0x07 => .known (.bgtz f.rs f.imm)
  | 0x08 => .known (.addi f.rt f.rs f.imm)
  | 0x09 => .known (.addiu f.rt f.rs f.imm)
  | 0x0A => .known (.slti f.rt f.rs f.imm)
  | 0x0B => .known (.sltiu f.rt f.rs f.imm)
  | 0x0C => .known (.andi f.rt f.rs f.imm)
  | 0x0D => .known (.ori f.rt f.rs f.imm)
  | 0x0E => .known (.xori f.rt f.rs f.imm)
  | 0x0F => .known (.lui f.rt f.imm)
  | 0x20 => .known (.lb f.rt f.rs f.imm)
  | 0x21 => .known (.lh f.rt f.rs f.imm)
  | 0x22 => .known (.lwl f.rt f.rs f.imm)
  | 0x23 => .known (.lw f.rt f.rs f.imm)
  | 0x24 => .known (.lbu f.rt f.rs f.imm)
  | 0x25 => .known (.lhu f.rt f.rs f.imm)
  | 0x26 => .known (.lwr f.rt f.rs f.imm)
  | 0x28 => .known (.sb f.rt f.rs f.imm)
  | 0x29 => .known (.sh f.rt f.rs f.imm)
  | 0x2A => .known (.swl f.rt f.rs f.imm)
  | 0x2B => .known (.sw f.rt f.rs f.imm)
  | 0x2E => .known (.swr f.rt f.rs f.imm)
  | n => .unknown (.primary n)

/-- R134 before the (ext) check: only `op`, and `funct`, `rt` or `rs` under it, select. Every other field is an operand or is
ignored (R145). -/
def lookup (f : Fields) : Decoded :=
  match f.op.toNat with
  | 0x00 => specialMap f
  | 0x01 => regimmMap f
  | 0x10 => cop0Map f
  | _ => primaryMap f

/-- `Decode(w)` of R134, on the word and P_EXTENDED alone (R122, R153). -/
def decode (extended : Bool) (w : Word) : Decoded :=
  match lookup (fields w) with
  | .known i => if i.wf extended then .known i else .unknown (.needsExtended i)
  | .unknown why => .unknown why

/-- The decoder on bytes in ascending address order: one instruction is four bytes, little-endian (R120). -/
def decodeBytes (extended : Bool) : List Byte → Decoded
  | b0 :: b1 :: b2 :: b3 :: _ => decode extended (wordOfBytes [b0, b1, b2, b3])
  | _ => .unknown .truncated

/-! ### The encoder -/

/-- R-type layout (R121). -/
def encodeR (op : BitVec 6) (rs rt rd : RegNum) (shamt : Shamt) (funct : BitVec 6) : Word :=
  op ++ rs ++ rt ++ rd ++ shamt ++ funct

/-- I-type layout (R121). -/
def encodeI (op : BitVec 6) (rs rt : RegNum) (imm : Imm16) : Word := op ++ rs ++ rt ++ imm

/-- J-type layout (R121). -/
def encodeJ (op : BitVec 6) (target : Target26) : Word := op ++ target

/-- The word of an instruction, with 0 in every field R145 ignores. -/
def encode : Instr → Word
  | .j target => encodeJ 0x02#6 target
  | .jal target => encodeJ 0x03#6 target
  | .jr rs => encodeR 0x00#6 rs 0#5 0#5 0#5 0x08#6
  | .jalr rd rs => encodeR 0x00#6 rs 0#5 rd 0#5 0x09#6
  | .beq rs rt imm => encodeI 0x04#6 rs rt imm
  | .bne rs rt imm => encodeI 0x05#6 rs rt imm
  | .blez rs imm => encodeI 0x06#6 rs 0#5 imm
  | .bgtz rs imm => encodeI 0x07#6 rs 0#5 imm
  | .bltz rs imm => encodeI 0x01#6 rs 0x00#5 imm
  | .bgez rs imm => encodeI 0x01#6 rs 0x01#5 imm
  | .bgezal rs imm => encodeI 0x01#6 rs 0x11#5 imm
  | .add rd rs rt => encodeR 0x00#6 rs rt rd 0#5 0x20#6
  | .addu rd rs rt => encodeR 0x00#6 rs rt rd 0#5 0x21#6
  | .addi rt rs imm => encodeI 0x08#6 rs rt imm
  | .addiu rt rs imm => encodeI 0x09#6 rs rt imm
  | .sub rd rs rt => encodeR 0x00#6 rs rt rd 0#5 0x22#6
  | .subu rd rs rt => encodeR 0x00#6 rs rt rd 0#5 0x23#6
  | .and rd rs rt => encodeR 0x00#6 rs rt rd 0#5 0x24#6
  | .andi rt rs imm => encodeI 0x0C#6 rs rt imm
  | .or rd rs rt => encodeR 0x00#6 rs rt rd 0#5 0x25#6
  | .ori rt rs imm => encodeI 0x0D#6 rs rt imm
  | .xor rd rs rt => encodeR 0x00#6 rs rt rd 0#5 0x26#6
  | .xori rt rs imm => encodeI 0x0E#6 rs rt imm
  | .nor rd rs rt => encodeR 0x00#6 rs rt rd 0#5 0x27#6
  | .sll rd rt shamt => encodeR 0x00#6 0#5 rt rd shamt 0x00#6
  | .srl rd rt shamt => encodeR 0x00#6 0#5 rt rd shamt 0x02#6
  | .sra rd rt shamt => encodeR 0x00#6 0#5 rt rd shamt 0x03#6
  | .sllv rd rt rs => encodeR 0x00#6 rs rt rd 0#5 0x04#6
  | .srlv rd rt rs => encodeR 0x00#6 rs rt rd 0#5 0x06#6
  | .srav rd rt rs => encodeR 0x00#6 rs rt rd 0#5 0x07#6
  | .slt rd rs rt => encodeR 0x00#6 rs rt rd 0#5 0x2A#6
  | .sltu rd rs rt => encodeR 0x00#6 rs rt rd 0#5 0x2B#6
  | .slti rt rs imm => encodeI 0x0A#6 rs rt imm
  | .sltiu rt rs imm => encodeI 0x0B#6 rs rt imm
  | .lui rt imm => encodeI 0x0F#6 0#5 rt imm
  | .mult rs rt => encodeR 0x00#6 rs rt 0#5 0#5 0x18#6
  | .div rs rt => encodeR 0x00#6 rs rt 0#5 0#5 0x1A#6
  | .divu rs rt => encodeR 0x00#6 rs rt 0#5 0#5 0x1B#6
  | .lb rt rs imm => encodeI 0x20#6 rs rt imm
  | .lbu rt rs imm => encodeI 0x24#6 rs rt imm
  | .lh rt rs imm => encodeI 0x21#6 rs rt imm
  | .lhu rt rs imm => encodeI 0x25#6 rs rt imm
  | .lw rt rs imm => encodeI 0x23#6 rs rt imm
  | .sb rt rs imm => encodeI 0x28#6 rs rt imm
  | .sh rt rs imm => encodeI 0x29#6 rs rt imm
  | .sw rt rs imm => encodeI 0x2B#6 rs rt imm
  | .mfc0 rt rd => encodeR 0x10#6 0x00#5 rt rd 0#5 0#6
  | .mtc0 rt rd => encodeR 0x10#6 0x04#5 rt rd 0#5 0#6
  | .syscall => encodeR 0x00#6 0#5 0#5 0#5 0#5 0x0C#6
  | .multu rs rt => encodeR 0x00#6 rs rt 0#5 0#5 0x19#6
  | .mfhi rd => encodeR 0x00#6 0#5 0#5 rd 0#5 0x10#6
  | .mthi rs => encodeR 0x00#6 rs 0#5 0#5 0#5 0x11#6
  | .mflo rd => encodeR 0x00#6 0#5 0#5 rd 0#5 0x12#6
  | .mtlo rs => encodeR 0x00#6 rs 0#5 0#5 0#5 0x13#6
  | .bltzal rs imm => encodeI 0x01#6 rs 0x10#5 imm
  | .lwl rt rs imm => encodeI 0x22#6 rs rt imm
  | .lwr rt rs imm => encodeI 0x26#6 rs rt imm
  | .swl rt rs imm => encodeI 0x2A#6 rs rt imm
  | .swr rt rs imm => encodeI 0x2E#6 rs rt imm

/-! ### The rows of spec/opcode_table.json -/

/-- The selecting bits of an instruction's row: `mask` in spec/opcode_table.json. -/
def Instr.tableMask : Instr → Word
  | .j _ => 0xFC000000#32
  | .jal _ => 0xFC000000#32
  | .jr _ => 0xFC00003F#32
  | .jalr _ _ => 0xFC00003F#32
  | .beq _ _ _ => 0xFC000000#32
  | .bne _ _ _ => 0xFC000000#32
  | .blez _ _ => 0xFC000000#32
  | .bgtz _ _ => 0xFC000000#32
  | .bltz _ _ => 0xFC1F0000#32
  | .bgez _ _ => 0xFC1F0000#32
  | .bgezal _ _ => 0xFC1F0000#32
  | .add _ _ _ => 0xFC00003F#32
  | .addu _ _ _ => 0xFC00003F#32
  | .addi _ _ _ => 0xFC000000#32
  | .addiu _ _ _ => 0xFC000000#32
  | .sub _ _ _ => 0xFC00003F#32
  | .subu _ _ _ => 0xFC00003F#32
  | .and _ _ _ => 0xFC00003F#32
  | .andi _ _ _ => 0xFC000000#32
  | .or _ _ _ => 0xFC00003F#32
  | .ori _ _ _ => 0xFC000000#32
  | .xor _ _ _ => 0xFC00003F#32
  | .xori _ _ _ => 0xFC000000#32
  | .nor _ _ _ => 0xFC00003F#32
  | .sll _ _ _ => 0xFC00003F#32
  | .srl _ _ _ => 0xFC00003F#32
  | .sra _ _ _ => 0xFC00003F#32
  | .sllv _ _ _ => 0xFC00003F#32
  | .srlv _ _ _ => 0xFC00003F#32
  | .srav _ _ _ => 0xFC00003F#32
  | .slt _ _ _ => 0xFC00003F#32
  | .sltu _ _ _ => 0xFC00003F#32
  | .slti _ _ _ => 0xFC000000#32
  | .sltiu _ _ _ => 0xFC000000#32
  | .lui _ _ => 0xFC000000#32
  | .mult _ _ => 0xFC00003F#32
  | .div _ _ => 0xFC00003F#32
  | .divu _ _ => 0xFC00003F#32
  | .lb _ _ _ => 0xFC000000#32
  | .lbu _ _ _ => 0xFC000000#32
  | .lh _ _ _ => 0xFC000000#32
  | .lhu _ _ _ => 0xFC000000#32
  | .lw _ _ _ => 0xFC000000#32
  | .sb _ _ _ => 0xFC000000#32
  | .sh _ _ _ => 0xFC000000#32
  | .sw _ _ _ => 0xFC000000#32
  | .mfc0 _ _ => 0xFFE00000#32
  | .mtc0 _ _ => 0xFFE00000#32
  | .syscall => 0xFC00003F#32
  | .multu _ _ => 0xFC00003F#32
  | .mfhi _ => 0xFC00003F#32
  | .mthi _ => 0xFC00003F#32
  | .mflo _ => 0xFC00003F#32
  | .mtlo _ => 0xFC00003F#32
  | .bltzal _ _ => 0xFC1F0000#32
  | .lwl _ _ _ => 0xFC000000#32
  | .lwr _ _ _ => 0xFC000000#32
  | .swl _ _ _ => 0xFC000000#32
  | .swr _ _ _ => 0xFC000000#32

/-- What an instruction's row asks of those bits: `match` in spec/opcode_table.json. -/
def Instr.tableMatch : Instr → Word
  | .j _ => 0x08000000#32
  | .jal _ => 0x0C000000#32
  | .jr _ => 0x00000008#32
  | .jalr _ _ => 0x00000009#32
  | .beq _ _ _ => 0x10000000#32
  | .bne _ _ _ => 0x14000000#32
  | .blez _ _ => 0x18000000#32
  | .bgtz _ _ => 0x1C000000#32
  | .bltz _ _ => 0x04000000#32
  | .bgez _ _ => 0x04010000#32
  | .bgezal _ _ => 0x04110000#32
  | .add _ _ _ => 0x00000020#32
  | .addu _ _ _ => 0x00000021#32
  | .addi _ _ _ => 0x20000000#32
  | .addiu _ _ _ => 0x24000000#32
  | .sub _ _ _ => 0x00000022#32
  | .subu _ _ _ => 0x00000023#32
  | .and _ _ _ => 0x00000024#32
  | .andi _ _ _ => 0x30000000#32
  | .or _ _ _ => 0x00000025#32
  | .ori _ _ _ => 0x34000000#32
  | .xor _ _ _ => 0x00000026#32
  | .xori _ _ _ => 0x38000000#32
  | .nor _ _ _ => 0x00000027#32
  | .sll _ _ _ => 0x00000000#32
  | .srl _ _ _ => 0x00000002#32
  | .sra _ _ _ => 0x00000003#32
  | .sllv _ _ _ => 0x00000004#32
  | .srlv _ _ _ => 0x00000006#32
  | .srav _ _ _ => 0x00000007#32
  | .slt _ _ _ => 0x0000002A#32
  | .sltu _ _ _ => 0x0000002B#32
  | .slti _ _ _ => 0x28000000#32
  | .sltiu _ _ _ => 0x2C000000#32
  | .lui _ _ => 0x3C000000#32
  | .mult _ _ => 0x00000018#32
  | .div _ _ => 0x0000001A#32
  | .divu _ _ => 0x0000001B#32
  | .lb _ _ _ => 0x80000000#32
  | .lbu _ _ _ => 0x90000000#32
  | .lh _ _ _ => 0x84000000#32
  | .lhu _ _ _ => 0x94000000#32
  | .lw _ _ _ => 0x8C000000#32
  | .sb _ _ _ => 0xA0000000#32
  | .sh _ _ _ => 0xA4000000#32
  | .sw _ _ _ => 0xAC000000#32
  | .mfc0 _ _ => 0x40000000#32
  | .mtc0 _ _ => 0x40800000#32
  | .syscall => 0x0000000C#32
  | .multu _ _ => 0x00000019#32
  | .mfhi _ => 0x00000010#32
  | .mthi _ => 0x00000011#32
  | .mflo _ => 0x00000012#32
  | .mtlo _ => 0x00000013#32
  | .bltzal _ _ => 0x04100000#32
  | .lwl _ _ _ => 0x88000000#32
  | .lwr _ _ _ => 0x98000000#32
  | .swl _ _ _ => 0xA8000000#32
  | .swr _ _ _ => 0xB8000000#32

/-- The bits of an instruction's operand fields in spec/opcode_table.json. With the row's mask they are all the bits that count: the
rest are the fields R145 ignores. -/
def Instr.operandMask : Instr → Word
  | .j _ => 0x03FFFFFF#32
  | .jal _ => 0x03FFFFFF#32
  | .jr _ => 0x03E00000#32
  | .jalr _ _ => 0x03E0F800#32
  | .beq _ _ _ => 0x03FFFFFF#32
  | .bne _ _ _ => 0x03FFFFFF#32
  | .blez _ _ => 0x03E0FFFF#32
  | .bgtz _ _ => 0x03E0FFFF#32
  | .bltz _ _ => 0x03E0FFFF#32
  | .bgez _ _ => 0x03E0FFFF#32
  | .bgezal _ _ => 0x03E0FFFF#32
  | .add _ _ _ => 0x03FFF800#32
  | .addu _ _ _ => 0x03FFF800#32
  | .addi _ _ _ => 0x03FFFFFF#32
  | .addiu _ _ _ => 0x03FFFFFF#32
  | .sub _ _ _ => 0x03FFF800#32
  | .subu _ _ _ => 0x03FFF800#32
  | .and _ _ _ => 0x03FFF800#32
  | .andi _ _ _ => 0x03FFFFFF#32
  | .or _ _ _ => 0x03FFF800#32
  | .ori _ _ _ => 0x03FFFFFF#32
  | .xor _ _ _ => 0x03FFF800#32
  | .xori _ _ _ => 0x03FFFFFF#32
  | .nor _ _ _ => 0x03FFF800#32
  | .sll _ _ _ => 0x001FFFC0#32
  | .srl _ _ _ => 0x001FFFC0#32
  | .sra _ _ _ => 0x001FFFC0#32
  | .sllv _ _ _ => 0x03FFF800#32
  | .srlv _ _ _ => 0x03FFF800#32
  | .srav _ _ _ => 0x03FFF800#32
  | .slt _ _ _ => 0x03FFF800#32
  | .sltu _ _ _ => 0x03FFF800#32
  | .slti _ _ _ => 0x03FFFFFF#32
  | .sltiu _ _ _ => 0x03FFFFFF#32
  | .lui _ _ => 0x001FFFFF#32
  | .mult _ _ => 0x03FF0000#32
  | .div _ _ => 0x03FF0000#32
  | .divu _ _ => 0x03FF0000#32
  | .lb _ _ _ => 0x03FFFFFF#32
  | .lbu _ _ _ => 0x03FFFFFF#32
  | .lh _ _ _ => 0x03FFFFFF#32
  | .lhu _ _ _ => 0x03FFFFFF#32
  | .lw _ _ _ => 0x03FFFFFF#32
  | .sb _ _ _ => 0x03FFFFFF#32
  | .sh _ _ _ => 0x03FFFFFF#32
  | .sw _ _ _ => 0x03FFFFFF#32
  | .mfc0 _ _ => 0x001FF800#32
  | .mtc0 _ _ => 0x001FF800#32
  | .syscall => 0x00000000#32
  | .multu _ _ => 0x03FF0000#32
  | .mfhi _ => 0x0000F800#32
  | .mthi _ => 0x03E00000#32
  | .mflo _ => 0x0000F800#32
  | .mtlo _ => 0x03E00000#32
  | .bltzal _ _ => 0x03E0FFFF#32
  | .lwl _ _ _ => 0x03FFFFFF#32
  | .lwr _ _ _ => 0x03FFFFFF#32
  | .swl _ _ _ => 0x03FFFFFF#32
  | .swr _ _ _ => 0x03FFFFFF#32

/-! ### The host's reading of a table word -/

/-- The instruction the decoder reads from a table word of `nbits` bits, with every row of the table admitted: P_EXTENDED is taken as
true here, since ten of the rows are words of the extended set only (log entry 1). -/
def decodeTableWord (nbits w : Nat) : Option Instr :=
  match decodeBytes true (bytesOfWord (BitVec.ofNat 32 (w % 2 ^ nbits))) with
  | .known i => some i
  | .unknown _ => none

end Sys2Proof
end

