-- ==== Sys2Proof/Machine/Flags.lean ====
section
/-! DEFINITION. The core has no condition codes, status flags or predicate registers, and no instruction has a flag side effect
(10_state.md R37). What stands in their place: the comparisons whose 0 or 1 goes to a general register, the conditions that branches
test on general registers, and the one status bit with an effect, cache-isolate (R41). -/

namespace Sys2Proof.Machine

/-- `<s`: the comparison of SLT and SLTI (R242, R244). -/
def lessSigned (a b : Word) : Bool := decide (a.toInt < b.toInt)

/-- `<u`: the comparison of SLTU and SLTIU (R243, R245). -/
def lessUnsigned (a b : Word) : Bool := decide (a.toNat < b.toNat)

/-- The word a comparison writes: 1 or 0 (R37). -/
def wordOfBool (c : Bool) : Word := if c then 1#32 else 0#32

/-- The condition of BLEZ (R196). -/
def isLez (a : Word) : Bool := decide (a.toInt ≤ 0)

/-- The condition of BGTZ (R197). -/
def isGtz (a : Word) : Bool := decide (0 < a.toInt)

/-- The condition of BLTZ and BLTZAL (R198, R345). -/
def isLtz (a : Word) : Bool := decide (a.toInt < 0)

/-- The condition of BGEZ and BGEZAL (R199, R200). -/
def isGez (a : Word) : Bool := decide (0 ≤ a.toInt)

/-- R41: the cache-isolate bit of a status value, bit 16. -/
def isolateBit (status : Word) : Bool := status.getLsbD 16

end Sys2Proof.Machine
end

