-- ==== Sys2Proof/Config.lean ====
section
/-! DEFINITION. What is fixed for a whole run (00_scope.md R8, R12) and the one free value of the machine,
the device oracle P_IO (20_memory.md R84). -/

namespace Sys2Proof

/-- The launch parameters that are plain numbers (R8). They are fixed for a run: State carries them, no step changes
them, and a statement over all states holds for every choice of them. P_ROM and P_MEM_INIT, the other two parameters,
are memory contents (Machine/Launch.lean). Log entries 1 and 2. -/
structure Config where
  /-- P_EXTENDED: admits the ten instructions of 46_extended.md (R12, R141; D1). -/
  extended : Bool
  /-- P_RESET_PC: the ROM entry vector (R401; D5). -/
  resetPc : Word
  /-- P_EXC_VECTOR: where SYSCALL goes (R372; D6). -/
  excVector : Word
deriving DecidableEq, Repr

namespace Config

/-- The defaults of R8. -/
def default : Config := ⟨false, 0xBFC00000#32, 0x80000080#32⟩

/-- R8: P_RESET_PC and P_EXC_VECTOR are multiples of 4. -/
def wf (c : Config) : Bool := c.resetPc.toNat % 4 == 0 && c.excVector.toNat % 4 == 0

end Config

/-- One call the core makes on the device port of the I/O window (R84), at an offset 0..0x1FFF. -/
inductive IoEvent where
  /-- `read8(off)`, with the byte the device answered. -/
  | read8 (off : Nat) (answer : Byte)
  /-- `write8(off, byte)`. -/
  | write8 (off : Nat) (byte : Byte)
deriving DecidableEq, Repr

/-- P_IO, the device oracle (R8, R84; D14; U5): the byte a device answers to `read8(off)`. A free value: it has no body, so nothing
can be proved of what it answers. Its arguments are the devices' side (`State.devSeed`), every earlier call on the port
(`State.ioLog`, which grows at each read, so two reads never share their arguments) and the offset. Log entry 5. -/
opaque Config.ioAnswer : Nat → List IoEvent → Nat → Byte

end Sys2Proof
end

