-- ==== Sys2Proof/Machine/State.lean ====
section
/-! DEFINITION. The state of the machine (10_state.md), plain data throughout, its faults and refusals, and the state after reset. -/

namespace Sys2Proof.Machine

/-- A bank of 32 registers of 32 bits: the general registers (R30, R33) and the CP0 bank (R39). -/
abbrev RegFile := Vector Word 32

/-- The bytes of RAM, expansion region 1, scratchpad and ROM by physical address (R80), strictly rising and with no zero byte: an
address that is not listed reads 0 (log entry 3). Machine/Memory.lean says when a list is in that form. -/
abbrev Memory := List Host.Cell

/-- The state of the loop (R48). -/
inductive RunState where
  /-- The loop performs instruction cycles. -/
  | running
  /-- A decode failure at `fpc` on the raw word `fword` ended the run. -/
  | fatal (fpc fword : Word)
  /-- The host ended the run (R393). -/
  | stopped
deriving DecidableEq, Repr

/-- A diagnostic event of the bus (R49, R96): the byte's physical address, the width of the access, and for a write the byte. -/
inductive Diag where
  | unmappedRead (q : Word) (n : Nat)
  | unmappedWrite (q : Word) (n : Nat) (b : Byte)
  | romWrite (q : Word) (n : Nat) (b : Byte)
deriving DecidableEq, Repr

/-- Why a step stops. No instruction of the machine faults: both reasons are answered by `step` alone, in a state whose run has
already ended. -/
inductive Fault where
  /-- Raised by `step` when `run` is `Fatal(fpc, fword)`: R48, R375, R393, "the loop takes no further cycle". It is the host's
  fatal report of R375. Safe: the hardware stops there too. -/
  | unimplemented (fpc fword : Word)
  /-- Raised by `step` when `run` is `Stopped` (R48, R393). Safe: the hardware stops there too. -/
  | externalStop
deriving DecidableEq, Repr

/-- Why the model has no meaning for an instruction. -/
inductive Refusal where
  /-- Raised by `exec` for an instruction without a meaning. No arm raises it: all 59 instructions have theirs. Safe: a claim about
  such an instruction could not be proved. -/
  | notModelled (mnemonic : String)
deriving DecidableEq, Repr

structure State where
  /-- The launch parameters of the run (R8, R12); no step changes them. -/
  cfg : Config
  /-- The general registers (R30). Entry 0 holds 0 and is never read or written (R30, R31). -/
  x : RegFile
  /-- The program counter (R34). -/
  pc : Word
  /-- HI (R38). -/
  hi : Word
  /-- LO (R38). -/
  lo : Word
  /-- The CP0 bank (R39); 12 is status, 13 Cause, 14 EPC (R41-R43). -/
  cp0 : RegFile
  /-- The armed flag of the delayed branch (R44). -/
  brArmed : Bool
  /-- The target of the delayed branch (R44). -/
  brTarget : Word
  /-- The branch the present cycle consumed: `(prev_armed, prev_target)` of R161, `none` when nothing was armed. It lives within a
  cycle, and between cycles it is `none` (log entry 4). -/
  consumed : Option Word
  /-- The level of the interrupt-trigger input, which the devices drive (R380, R392). -/
  irqLine : Bool
  /-- The interrupt latch (R46). -/
  irqPending : Bool
  /-- The cycle counter (R47). -/
  cycles : BitVec 64
  /-- The state of the loop (R48). -/
  run : RunState
  /-- The diagnostic events, oldest first (R49). -/
  diag : List Diag
  /-- The calls made on the device port, oldest first (R84). -/
  ioLog : List IoEvent
  /-- The model's own field: the devices' side, as the oracle `Config.ioAnswer` sees it. No step reads it but to ask the oracle, and
  only a device step changes it (R390). Log entry 5. -/
  devSeed : Nat
  /-- The host's instruction-tracing toggle (R389); it changes nothing architectural. -/
  traceInstr : Bool
  /-- The host's memory-access-tracing toggle (R389); it changes nothing architectural. -/
  traceMem : Bool
  /-- The contents of the buffers of R80. -/
  mem : Memory
deriving DecidableEq, Repr

/-- The state after reset (R50, R400) at the default parameters of R8. Memory lists nothing: P_ROM and P_MEM_INIT, the launch
inputs, are all zeros here (log entry 3), and Machine/Launch.lean launches with any others. -/
def State.reset : State where
  cfg := Config.default
  x := Vector.replicate 32 0#32
  pc := Config.default.resetPc
  hi := 0#32
  lo := 0#32
  cp0 := Vector.replicate 32 0#32
  brArmed := false
  brTarget := 0#32
  consumed := none
  irqLine := false
  irqPending := false
  cycles := 0#64
  run := .running
  diag := []
  ioLog := []
  devSeed := 0
  traceInstr := false
  traceMem := false
  mem := []

end Sys2Proof.Machine
end

