-- ==== Sys2Proof/Machine/Memory.lean ====
section
/-! DEFINITION. The address map (20_memory.md): the translator (R70-R74), the region table (R80, R81), the device tags (R89), and
the canonical list that holds the bytes of the buffers. -/

namespace Sys2Proof.Machine

/-! ### Address translator -/

/-- R71: the raw addresses of the cache-control window, 0xFFFE0000 up to 0xFFFE0200 exclusive (C4). -/
def inCacheControl (a : Word) : Bool := 0xFFFE0000 ≤ a.toNat && a.toNat < 0xFFFE0200

/-- R72: the physical address of a raw address that is not in the window of R71. KUSEG passes through, up to 0x7FFFFFFF, although R88
says that nothing from 0x60000000 up is produced (log entry 22). -/
def translateAddr (a : Word) : Word :=
  if 0xA0000000 ≤ a.toNat then a - 0xA0000000#32
  else if 0x80000000 ≤ a.toNat then a - 0x80000000#32
  else a

/-! ### Region table -/

/-- The rows of R80. -/
inductive Region where
  | ram | exp1 | spad | io | rom | unmapped
deriving DecidableEq, Repr

/-- R81: the region of a physical address, by the bounds of R80; the upper bounds are written exclusive here. -/
def regionOf (q : Nat) : Region :=
  if q < 0x00200000 then .ram
  else if 0x1F000000 ≤ q ∧ q < 0x1F010000 then .exp1
  else if 0x1F800000 ≤ q ∧ q < 0x1F800400 then .spad
  else if 0x1F801000 ≤ q ∧ q < 0x1F803000 then .io
  else if 0x1FC00000 ≤ q ∧ q < 0x1FC80000 then .rom
  else .unmapped

/-- The regions whose bytes the core holds (R80): RAM, expansion region 1, scratchpad and ROM. -/
def Region.backed : Region → Bool
  | .ram | .exp1 | .spad | .rom => true
  | .io | .unmapped => false

/-- R84: the first address of the I/O window; a device offset counts from it. -/
def ioBase : Nat := 0x1F801000

/-- R86: the first address of ROM. -/
def romBase : Nat := 0x1FC00000

/-- R404: the size of the ROM image. -/
def romSize : Nat := 524288

/-- The device tags of R89. -/
inductive DeviceTag where
  | memoryControl | peripherals | interruptControl | dma | timers | discController | audioEngine | untagged
deriving DecidableEq, Repr

/-- R89: the tag of a physical address in the I/O window. A label only; no rule depends on it. -/
def deviceTag (q : Nat) : DeviceTag :=
  if (0x1F801000 ≤ q ∧ q ≤ 0x1F801023) ∨ (0x1F801060 ≤ q ∧ q ≤ 0x1F801063) then .memoryControl
  else if 0x1F801040 ≤ q ∧ q ≤ 0x1F80105F then .peripherals
  else if 0x1F801070 ≤ q ∧ q ≤ 0x1F801077 then .interruptControl
  else if 0x1F801080 ≤ q ∧ q ≤ 0x1F8010FF then .dma
  else if 0x1F801100 ≤ q ∧ q ≤ 0x1F80112F then .timers
  else if 0x1F801800 ≤ q ∧ q ≤ 0x1F801803 then .discController
  else if 0x1F801C00 ≤ q ∧ q ≤ 0x1F801FFF then .audioEngine
  else .untagged

/-! ### The bytes of the buffers -/

/-- What an address that is not listed reads as (log entry 3). -/
def unlistedByte : Byte := 0#8

/-- The byte held at an address. -/
def Memory.read : Memory → Nat → Byte
  | [], _ => unlistedByte
  | (k, v) :: m, a => if a = k then v else Memory.read m a

/-- Puts a byte at an address, keeping the list in its one form. -/
def Memory.write : Memory → Nat → Byte → Memory
  | [], a, b => if b = unlistedByte then [] else [(a, b)]
  | (k, v) :: m, a, b =>
    if a < k then if b = unlistedByte then (k, v) :: m else (a, b) :: (k, v) :: m
    else if a = k then if b = unlistedByte then m else (a, b) :: m
    else (k, v) :: Memory.write m a b

/-- Puts bytes at an address and the ones after it: how an image is loaded (R400), not a store of the program's. -/
def Memory.load : Memory → Nat → List Byte → Memory
  | m, _, [] => m
  | m, a, b :: bs => Memory.load (Memory.write m a b) (a + 1) bs

/-- The canonical form from address `lo` up: strictly rising, no byte that an unlisted address reads as, and every address in a
region that the core holds. -/
def Memory.wfFrom : Nat → Memory → Bool
  | _, [] => true
  | lo, (k, v) :: m => decide (lo ≤ k) && v != unlistedByte && (regionOf k).backed && Memory.wfFrom (k + 1) m

/-- The canonical form of memory: equal memories are equal lists. -/
def Memory.wf (m : Memory) : Bool := Memory.wfFrom 0 m

end Sys2Proof.Machine
end

