-- ==== Sys2Proof/Machine/Ops.lean ====
section
/-! DEFINITION. The named operations every instruction is written over (00_scope.md R11): registers, the delayed branch, the bus, and
trap entry. -/

namespace Sys2Proof.Machine

/-! ### Register banks -/

/-- Entry `r` of a bank. -/
def RegFile.get (v : RegFile) (r : RegNum) : Word := v[r.toNat]'r.isLt

/-- A bank with entry `r` replaced. -/
def RegFile.put (v : RegFile) (r : RegNum) (w : Word) : RegFile := v.set r.toNat w r.isLt

namespace State

/-- `x[i]` (R11): general register 0 reads 0 at all times (R30). -/
def reg (s : State) (r : RegNum) : Word := if r = 0#5 then 0#32 else s.x.get r

/-- `x[i] <- v` (R11): a write to register 0 is dropped (R31). -/
def setReg (s : State) (r : RegNum) (v : Word) : State := { s with x := if r = 0#5 then s.x else s.x.put r v }

/-- `cp0[i]` (R39): every number reads the stored value. -/
def cp0Reg (s : State) (r : RegNum) : Word := s.cp0.get r

/-- `cp0[i] <- v` (R39): all 32 bits are stored, for every number. -/
def setCp0 (s : State) (r : RegNum) (v : Word) : State := { s with cp0 := s.cp0.put r v }

/-- The write of HI and LO together (R38). -/
def setHiLo (s : State) (hi lo : Word) : State := { s with hi := hi, lo := lo }

/-- `hi <- v` (R342). -/
def setHi (s : State) (v : Word) : State := { s with hi := v }

/-- `lo <- v` (R344). -/
def setLo (s : State) (v : Word) : State := { s with lo := v }

/-- R41: the cache-isolate state is exactly bit 16 of `cp0[12]`. -/
def isolated (s : State) : Bool := isolateBit (s.cp0Reg 12#5)

/-- The byte held at a physical address, read without any effect: what the host's snapshot shows of the buffers (R51). -/
def byteAt (s : State) (q : Word) : Byte := s.mem.read q.toNat

/-! ### The delayed branch -/

/-- `arm_branch(t)` (R44, R163). -/
def armBranch (s : State) (t : Word) : State := { s with brArmed := true, brTarget := t }

/-- A conditional branch arms only when its condition holds (R164). -/
def branchIf (s : State) (c : Bool) (t : Word) : State := if c then s.armBranch t else s

/-- The link value: the address after the delay slot, `pc + 4` where `pc` is the branch's address plus 4 (R191; C1). -/
def linkAddr (s : State) : Word := s.pc + 4#32

/-! ### Trap entry (R371) -/

/-- `raise Syscall()`: EPC gets the address of the SYSCALL itself, which is `pc - 4` while it executes (R162; C2); Cause is replaced
whole; the vector is fixed (R372); the branch the cycle consumed is dropped (R168). Status and everything else keep their
values. The core has no return from exception: a handler returns with JR (R374). -/
def raiseSyscall (s : State) : State :=
  { s with
    cp0 := (s.cp0.put 14#5 (s.pc - 4#32)).put 13#5 0x00000020#32
    pc := s.cfg.excVector
    consumed := none }

end State

/-! ### The bus (R84-R96) -/

/-- `ReadByte(q)` of R90, in an access of width `n`. -/
def readByte (n : Nat) (q : Word) (s : State) : Byte × State :=
  match regionOf q.toNat with
  | .ram | .exp1 | .spad | .rom => (s.byteAt q, s)
  | .io =>
    let off := q.toNat - ioBase
    let b := Config.ioAnswer s.devSeed s.ioLog off
    (b, { s with ioLog := s.ioLog ++ [.read8 off b] })
  | .unmapped => (0#8, { s with diag := s.diag ++ [.unmappedRead q n] })

/-- `WriteByte(q, b)` of R91, in an access of width `n`: cache-isolate discards a write to RAM (R95). -/
def writeByte (n : Nat) (q : Word) (b : Byte) (s : State) : State :=
  match regionOf q.toNat with
  | .ram => if s.isolated then s else { s with mem := s.mem.write q.toNat b }
  | .exp1 | .spad => { s with mem := s.mem.write q.toNat b }
  | .io => { s with ioLog := s.ioLog ++ [.write8 (q.toNat - ioBase) b] }
  | .rom => { s with diag := s.diag ++ [.romWrite q n b] }
  | .unmapped => { s with diag := s.diag ++ [.unmappedWrite q n b] }

/-- `k` bytes from physical address `q` up, in ascending order (R90), each resolved on its own (R94). -/
def readBytes (n : Nat) : Nat → Word → State → List Byte × State
  | 0, _, s => ([], s)
  | k + 1, q, s =>
    let r := readByte n q s
    let rest := readBytes n k (q + 1#32) r.2
    (r.1 :: rest.1, rest.2)

/-- The low `k` bytes of `v` to physical address `q` up, in ascending order (R91), each resolved on its own (R94). -/
def writeBytes (n : Nat) : Nat → Word → Word → State → State
  | 0, _, _, s => s
  | k + 1, q, v, s => writeBytes n k (q + 1#32) (v >>> 8) (writeByte n q (v.setWidth 8) s)

/-- `MemRead(a, n)` of R90: the window of R71 and the translation are taken once, on the first byte's raw address (D13). -/
def memRead (a : Word) (n : Nat) (s : State) : Word × State :=
  if inCacheControl a then (0#32, s)
  else
    let r := readBytes n n (translateAddr a) s
    (wordOfBytes r.1, r.2)

/-- `MemWrite(a, n, v)` of R91. -/
def memWrite (a : Word) (n : Nat) (v : Word) (s : State) : State :=
  if inCacheControl a then s else writeBytes n n (translateAddr a) v s

/-! ### Bytes of a word, for the unaligned pairs (R346-R349) -/

/-- Byte `k` of a word replaced: bits `8*k+7 : 8*k`. -/
def setByte (v : Word) (k : Nat) (b : Byte) : Word := (v &&& ~~~(0xFF#32 <<< (8 * k))) ||| (b.setWidth 32 <<< (8 * k))

/-- Byte `k` of a word: bits `8*k+7 : 8*k`. -/
def getByte (v : Word) (k : Nat) : Byte := v.extractLsb' (8 * k) 8

/-- `c` single-byte reads from raw address `a` up, into bytes `k`, `k+1`, … of `v` (the loops of R346 and R347). -/
def loadBytesInto : Nat → Word → Nat → Word → State → Word × State
  | 0, _, _, v, s => (v, s)
  | c + 1, a, k, v, s =>
    let r := memRead a 1 s
    loadBytesInto c (a + 1#32) (k + 1) (setByte v k (r.1.setWidth 8)) r.2

/-- `c` single-byte writes to raw address `a` up, of bytes `k`, `k+1`, … of `v` (the loops of R348 and R349). -/
def storeBytesFrom : Nat → Word → Nat → Word → State → State
  | 0, _, _, _, s => s
  | c + 1, a, k, v, s => storeBytesFrom c (a + 1#32) (k + 1) v (memWrite a 1 ((getByte v k).setWidth 32) s)

end Sys2Proof.Machine
end

