-- ==== Sys2Proof/Machine/Cycle.lean ====
section
/-! DEFINITION. The parts of the instruction cycle around Execute (40_cycle.md R161), and the placing of a word where the next
fetch reads it. -/

namespace Sys2Proof.Machine.State

/-- R161 step (1), the checkpoint: the latch takes the level of the line, and nothing else happens (R380). -/
def checkpoint (s : State) : State := { s with irqPending := s.irqLine }

/-- R161 step (2): the word at `pc`, through translator and bus, with the effects of the read (R106). -/
def fetch (s : State) : Word × State := memRead s.pc 4 s

/-- R161 step (4): the unimplemented-instruction stop (R375). -/
def fatalStop (w : Word) (s : State) : State := { s with run := .fatal s.pc w }

/-- R161 steps (5) and (6): the armed branch is consumed, and `pc` advances before the instruction executes (R162).
`brTarget` keeps its value, where R44 leaves any (log entry 12). -/
def beginExecute (s : State) : State :=
  { s with
    consumed := if s.brArmed then some s.brTarget else none
    brArmed := false
    pc := s.pc + 4#32 }

/-- R161 steps (8) to (10): the branch of the previous cycle is applied, masked to a word boundary (R165), unless a trap dropped it
(R168), and the cycle counts (R171). -/
def endCycle (s : State) : State :=
  { s with
    pc := match s.consumed with
      | some t => wordAligned t
      | none => s.pc
    consumed := none
    cycles := s.cycles + 1#64 }

/-! ### Placing a word where the next fetch reads it -/

/-- Whether the four bytes at a raw address are bytes the core holds. -/
def placeable (a : Word) : Bool :=
  !inCacheControl a && (List.range 4).all fun k => (regionOf ((translateAddr a).toNat + k)).backed

/-- `s` running, with `w` stored at its `pc`. Where no byte of the core's lies at `pc` (the window, the I/O window, unmapped space), `pc` is
moved to the first word of ROM. P_EXTENDED is selected when the word is an instruction only under it. Log entry 6. -/
def placeWord (s : State) (w : Word) : State :=
  let pc := if placeable s.pc then s.pc else 0xBFC00000#32
  let extended := match decode false w with
    | .unknown (.needsExtended _) => true
    | _ => s.cfg.extended
  { s with
    run := .running
    pc := pc
    cfg := { s.cfg with extended := extended }
    mem := s.mem.load (translateAddr pc).toNat (bytesOfWord w) }

end Sys2Proof.Machine.State
end

