-- ==== Sys2Proof/Machine/Alu.lean ====
section
/-! DEFINITION. The ALU, the shift unit, the comparisons and LUI (42_alu.md). Every instruction reads its sources and then writes
one general register (R234); it touches nothing else. -/

namespace Sys2Proof.Machine

/-- The shape `x[dst] <- v` (R234). -/
def writeResult (dst : RegNum) (v : Word) (s : State) : Host.Outcome State Fault Refusal := .next (s.setReg dst v)

/-! ### Add and subtract: all wrap, none traps (R233) -/

/-- R220: ADD. -/
def execAdd (rd rs rt : RegNum) (s : State) : Host.Outcome State Fault Refusal :=
  writeResult rd (s.reg rs + s.reg rt) s

/-- R221: ADDU. -/
def execAddu (rd rs rt : RegNum) (s : State) : Host.Outcome State Fault Refusal :=
  writeResult rd (s.reg rs + s.reg rt) s

/-- R222: ADDI. -/
def execAddi (rt rs : RegNum) (imm : Imm16) (s : State) : Host.Outcome State Fault Refusal :=
  writeResult rt (s.reg rs + simm imm) s

/-- R223: ADDIU; the immediate is sign-extended despite the name. -/
def execAddiu (rt rs : RegNum) (imm : Imm16) (s : State) : Host.Outcome State Fault Refusal :=
  writeResult rt (s.reg rs + simm imm) s

/-- R224: SUB. -/
def execSub (rd rs rt : RegNum) (s : State) : Host.Outcome State Fault Refusal :=
  writeResult rd (s.reg rs - s.reg rt) s

/-- R225: SUBU. -/
def execSubu (rd rs rt : RegNum) (s : State) : Host.Outcome State Fault Refusal :=
  writeResult rd (s.reg rs - s.reg rt) s

/-! ### Logical -/

/-- R226: AND. -/
def execAnd (rd rs rt : RegNum) (s : State) : Host.Outcome State Fault Refusal :=
  writeResult rd (s.reg rs &&& s.reg rt) s

/-- R227: ANDI. -/
def execAndi (rt rs : RegNum) (imm : Imm16) (s : State) : Host.Outcome State Fault Refusal :=
  writeResult rt (s.reg rs &&& zimm imm) s

/-- R228: OR. -/
def execOr (rd rs rt : RegNum) (s : State) : Host.Outcome State Fault Refusal :=
  writeResult rd (s.reg rs ||| s.reg rt) s

/-- R229: ORI. -/
def execOri (rt rs : RegNum) (imm : Imm16) (s : State) : Host.Outcome State Fault Refusal :=
  writeResult rt (s.reg rs ||| zimm imm) s

/-- R230: XOR. -/
def execXor (rd rs rt : RegNum) (s : State) : Host.Outcome State Fault Refusal :=
  writeResult rd (s.reg rs ^^^ s.reg rt) s

/-- R231: XORI. -/
def execXori (rt rs : RegNum) (imm : Imm16) (s : State) : Host.Outcome State Fault Refusal :=
  writeResult rt (s.reg rs ^^^ zimm imm) s

/-- R232: NOR. -/
def execNor (rd rs rt : RegNum) (s : State) : Host.Outcome State Fault Refusal :=
  writeResult rd (~~~(s.reg rs ||| s.reg rt)) s

/-! ### Shifts (R235) -/

/-- R236: SLL; the word 0x00000000 is SLL r0, r0, 0, the NOP (R151). -/
def execSll (rd rt : RegNum) (shamt : Shamt) (s : State) : Host.Outcome State Fault Refusal :=
  writeResult rd (s.reg rt <<< sa shamt) s

/-- R237: SRL. -/
def execSrl (rd rt : RegNum) (shamt : Shamt) (s : State) : Host.Outcome State Fault Refusal :=
  writeResult rd (s.reg rt >>> sa shamt) s

/-- R238: SRA. -/
def execSra (rd rt : RegNum) (shamt : Shamt) (s : State) : Host.Outcome State Fault Refusal :=
  writeResult rd ((s.reg rt).sshiftRight (sa shamt)) s

/-- R239: SLLV. -/
def execSllv (rd rt rs : RegNum) (s : State) : Host.Outcome State Fault Refusal :=
  writeResult rd (s.reg rt <<< vsa (s.reg rs)) s

/-- R240: SRLV. -/
def execSrlv (rd rt rs : RegNum) (s : State) : Host.Outcome State Fault Refusal :=
  writeResult rd (s.reg rt >>> vsa (s.reg rs)) s

/-- R241: SRAV. -/
def execSrav (rd rt rs : RegNum) (s : State) : Host.Outcome State Fault Refusal :=
  writeResult rd ((s.reg rt).sshiftRight (vsa (s.reg rs))) s

/-! ### Comparisons -/

/-- R242: SLT. -/
def execSlt (rd rs rt : RegNum) (s : State) : Host.Outcome State Fault Refusal :=
  writeResult rd (wordOfBool (lessSigned (s.reg rs) (s.reg rt))) s

/-- R243: SLTU. -/
def execSltu (rd rs rt : RegNum) (s : State) : Host.Outcome State Fault Refusal :=
  writeResult rd (wordOfBool (lessUnsigned (s.reg rs) (s.reg rt))) s

/-- R244: SLTI. -/
def execSlti (rt rs : RegNum) (imm : Imm16) (s : State) : Host.Outcome State Fault Refusal :=
  writeResult rt (wordOfBool (lessSigned (s.reg rs) (simm imm))) s

/-- R245: SLTIU; the immediate is sign-extended and then compared unsigned. -/
def execSltiu (rt rs : RegNum) (imm : Imm16) (s : State) : Host.Outcome State Fault Refusal :=
  writeResult rt (wordOfBool (lessUnsigned (s.reg rs) (simm imm))) s

/-! ### Load upper immediate -/

/-- R246: LUI. -/
def execLui (rt : RegNum) (imm : Imm16) (s : State) : Host.Outcome State Fault Refusal :=
  writeResult rt (uimm imm) s

end Sys2Proof.Machine
end

