-- ==== Sys2Proof/Machine/Branch.lean ====
section
/-! DEFINITION. Jumps and branches (41_branch.md) and BLTZAL (46_extended.md). `s.pc` is the address of the instruction plus 4 (R162).
None of them changes `pc`: each arms a branch that the next cycle applies (R163, R165). -/

namespace Sys2Proof.Machine

/-- The target of a conditional branch: `pc + (sext_32(imm) << 2)` (R123, R201). -/
def branchTarget (imm : Imm16) (s : State) : Word := s.pc + boff imm

/-- The shape of a conditional branch without a link. -/
def branchOn (c : Bool) (imm : Imm16) (s : State) : Host.Outcome State Fault Refusal := .next (s.branchIf c (branchTarget imm s))

/-- The shape of a conditional branch with a link: register 31 gets the link whether or not the branch is taken (R200). The
condition `c` was read before the link write (D26). -/
def branchLinkOn (c : Bool) (imm : Imm16) (s : State) : Host.Outcome State Fault Refusal :=
  .next ((s.setReg 31#5 s.linkAddr).branchIf c (branchTarget imm s))

/-- R190: J. -/
def execJ (target : Target26) (s : State) : Host.Outcome State Fault Refusal :=
  .next (s.armBranch (jtarget s.pc target))

/-- R191: JAL. -/
def execJal (target : Target26) (s : State) : Host.Outcome State Fault Refusal :=
  .next ((s.setReg 31#5 s.linkAddr).armBranch (jtarget s.pc target))

/-- R192: JR. -/
def execJr (rs : RegNum) (s : State) : Host.Outcome State Fault Refusal :=
  .next (s.armBranch (s.reg rs))

/-- R193: JALR; the target is read before the link is written (D26). -/
def execJalr (rd rs : RegNum) (s : State) : Host.Outcome State Fault Refusal :=
  .next ((s.setReg rd s.linkAddr).armBranch (s.reg rs))

/-- R194: BEQ. -/
def execBeq (rs rt : RegNum) (imm : Imm16) (s : State) : Host.Outcome State Fault Refusal :=
  branchOn (s.reg rs == s.reg rt) imm s

/-- R195: BNE. -/
def execBne (rs rt : RegNum) (imm : Imm16) (s : State) : Host.Outcome State Fault Refusal :=
  branchOn (s.reg rs != s.reg rt) imm s

/-- R196: BLEZ. -/
def execBlez (rs : RegNum) (imm : Imm16) (s : State) : Host.Outcome State Fault Refusal :=
  branchOn (isLez (s.reg rs)) imm s

/-- R197: BGTZ. -/
def execBgtz (rs : RegNum) (imm : Imm16) (s : State) : Host.Outcome State Fault Refusal :=
  branchOn (isGtz (s.reg rs)) imm s

/-- R198: BLTZ. -/
def execBltz (rs : RegNum) (imm : Imm16) (s : State) : Host.Outcome State Fault Refusal :=
  branchOn (isLtz (s.reg rs)) imm s

/-- R199: BGEZ. -/
def execBgez (rs : RegNum) (imm : Imm16) (s : State) : Host.Outcome State Fault Refusal :=
  branchOn (isGez (s.reg rs)) imm s

/-- R200: BGEZAL. -/
def execBgezal (rs : RegNum) (imm : Imm16) (s : State) : Host.Outcome State Fault Refusal :=
  branchLinkOn (isGez (s.reg rs)) imm s

/-- R345: BLTZAL. -/
def execBltzal (rs : RegNum) (imm : Imm16) (s : State) : Host.Outcome State Fault Refusal :=
  branchLinkOn (isLtz (s.reg rs)) imm s

end Sys2Proof.Machine
end

