-- ==== Sys2Proof/Machine/Cop0.lean ====
section
/-! DEFINITION. Coprocessor 0 access and SYSCALL (45_cop0_system.md). There is one mode and no privilege check (R385). -/

namespace Sys2Proof.Machine

/-- R310: MFC0. -/
def execMfc0 (rt rd : RegNum) (s : State) : Host.Outcome State Fault Refusal :=
  .next (s.setReg rt (s.cp0Reg rd))

/-- R311, R312: MTC0; a write to register 12 is what sets or clears cache-isolate. -/
def execMtc0 (rt rd : RegNum) (s : State) : Host.Outcome State Fault Refusal :=
  .next (s.setCp0 rd (s.reg rt))

/-- R313: SYSCALL takes the Syscall trap (R371). -/
def execSyscall (s : State) : Host.Outcome State Fault Refusal :=
  .next s.raiseSyscall

end Sys2Proof.Machine
end

