-- ==== Sys2Proof/Machine/LoadStore.lean ====
section
/-! DEFINITION. Loads and stores (44_loadstore.md) and the unaligned pairs LWL, LWR, SWL and SWR (46_extended.md). No access has an
alignment check (R289), and none faults (R290, R291). -/

namespace Sys2Proof.Machine

/-- The shape of a load: the read of `n` bytes at the effective address, with its effects on the bus, and then the write of `rt`;
with rt = 0 the read still happens (R290). -/
def loadWith (n : Nat) (extend : Word → Word) (rt rs : RegNum) (imm : Imm16) (s : State) : Host.Outcome State Fault Refusal :=
  let r := memRead (effAddr (s.reg rs) imm) n s
  .next (r.2.setReg rt (extend r.1))

/-- The shape of a store: the low `n` bytes of `rt` at the effective address (R291). -/
def storeWith (n : Nat) (rt rs : RegNum) (imm : Imm16) (s : State) : Host.Outcome State Fault Refusal :=
  .next (memWrite (effAddr (s.reg rs) imm) n (s.reg rt) s)

/-- `sext_32` of the low `n` bytes. -/
def signExtendBytes (n : Nat) (v : Word) : Word := (v.setWidth (8 * n)).signExtend 32

/-- `zext_32` of the low `n` bytes. -/
def zeroExtendBytes (n : Nat) (v : Word) : Word := (v.setWidth (8 * n)).setWidth 32

/-- R280: LB. -/
def execLb (rt rs : RegNum) (imm : Imm16) (s : State) : Host.Outcome State Fault Refusal :=
  loadWith 1 (signExtendBytes 1) rt rs imm s

/-- R281: LBU. -/
def execLbu (rt rs : RegNum) (imm : Imm16) (s : State) : Host.Outcome State Fault Refusal :=
  loadWith 1 (zeroExtendBytes 1) rt rs imm s

/-- R282: LH. -/
def execLh (rt rs : RegNum) (imm : Imm16) (s : State) : Host.Outcome State Fault Refusal :=
  loadWith 2 (signExtendBytes 2) rt rs imm s

/-- R283: LHU. -/
def execLhu (rt rs : RegNum) (imm : Imm16) (s : State) : Host.Outcome State Fault Refusal :=
  loadWith 2 (zeroExtendBytes 2) rt rs imm s

/-- R284: LW. -/
def execLw (rt rs : RegNum) (imm : Imm16) (s : State) : Host.Outcome State Fault Refusal :=
  loadWith 4 id rt rs imm s

/-- R285: SB. -/
def execSb (rt rs : RegNum) (imm : Imm16) (s : State) : Host.Outcome State Fault Refusal :=
  storeWith 1 rt rs imm s

/-- R286: SH. -/
def execSh (rt rs : RegNum) (imm : Imm16) (s : State) : Host.Outcome State Fault Refusal :=
  storeWith 2 rt rs imm s

/-- R287: SW. -/
def execSw (rt rs : RegNum) (imm : Imm16) (s : State) : Host.Outcome State Fault Refusal :=
  storeWith 4 rt rs imm s

/-! ### The unaligned pairs -/

/-- R346: LWL reads bytes 0 .. n of the aligned word, n = `ea & 3`, into bytes 3-n .. 3 of `rt`. -/
def execLwl (rt rs : RegNum) (imm : Imm16) (s : State) : Host.Outcome State Fault Refusal :=
  let ea := effAddr (s.reg rs) imm
  let n := byteInWord ea
  let r := loadBytesInto (n + 1) (wordAligned ea) (3 - n) (s.reg rt) s
  .next (r.2.setReg rt r.1)

/-- R347: LWR reads bytes n .. 3 of the aligned word, n = `ea & 3`, into bytes 0 .. 3-n of `rt`. -/
def execLwr (rt rs : RegNum) (imm : Imm16) (s : State) : Host.Outcome State Fault Refusal :=
  let ea := effAddr (s.reg rs) imm
  let n := byteInWord ea
  let r := loadBytesInto (4 - n) (wordAligned ea + BitVec.ofNat 32 n) 0 (s.reg rt) s
  .next (r.2.setReg rt r.1)

/-- R348: SWL writes bytes 3-n .. 3 of `rt` to bytes 0 .. n of the aligned word, n = `ea & 3`. -/
def execSwl (rt rs : RegNum) (imm : Imm16) (s : State) : Host.Outcome State Fault Refusal :=
  let ea := effAddr (s.reg rs) imm
  let n := byteInWord ea
  .next (storeBytesFrom (n + 1) (wordAligned ea) (3 - n) (s.reg rt) s)

/-- R349: SWR writes bytes 0 .. 3-n of `rt` to bytes n .. 3 of the aligned word, n = `ea & 3`. -/
def execSwr (rt rs : RegNum) (imm : Imm16) (s : State) : Host.Outcome State Fault Refusal :=
  let ea := effAddr (s.reg rs) imm
  let n := byteInWord ea
  .next (storeBytesFrom (4 - n) (wordAligned ea + BitVec.ofNat 32 n) 0 (s.reg rt) s)

end Sys2Proof.Machine
end

