-- ==== Sys2Proof/Machine/MulDiv.lean ====
section
/-! DEFINITION. The multiply/divide unit (43_muldiv.md), and the five instructions of 46_extended.md that work on HI and LO. Each
completes within its own cycle (R264, R350). -/

namespace Sys2Proof.Machine

/-- The two halves of a 64-bit product pattern: HI, LO (R260). -/
def productHalves (p : BitVec 64) : Word × Word := (p.extractLsb' 32 32, p.extractLsb' 0 32)

/-- R260: the signed product as HI, LO. -/
def mulSigned (a b : Word) : Word × Word := productHalves (BitVec.ofInt 64 (a.toInt * b.toInt))

/-- R340: the unsigned product as HI, LO. -/
def mulUnsigned (a b : Word) : Word × Word := productHalves (BitVec.ofNat 64 (a.toNat * b.toNat))

/-- R261: signed division as HI (remainder), LO (quotient), rounded toward zero. The zero divisor and the quotient that does not fit
have the values of R261 (D3). -/
def divSigned (a b : Word) : Word × Word :=
  if b = 0#32 then (a, if 0 ≤ a.toInt then 0xFFFFFFFF#32 else 0x00000001#32)
  else if a = 0x80000000#32 ∧ b = 0xFFFFFFFF#32 then (0x00000000#32, 0x80000000#32)
  else
    let q := a.toInt.tdiv b.toInt
    (BitVec.ofInt 32 (a.toInt - q * b.toInt), BitVec.ofInt 32 q)

/-- R262: unsigned division as HI (remainder), LO (quotient). -/
def divUnsigned (a b : Word) : Word × Word :=
  if b = 0#32 then (a, 0xFFFFFFFF#32)
  else (BitVec.ofNat 32 (a.toNat % b.toNat), BitVec.ofNat 32 (a.toNat / b.toNat))

/-- The shape of MULT, MULTU, DIV and DIVU: both halves are written, and nothing else (R38). -/
def writeHiLo (r : Word × Word) (s : State) : Host.Outcome State Fault Refusal := .next (s.setHiLo r.1 r.2)

/-- R260: MULT. -/
def execMult (rs rt : RegNum) (s : State) : Host.Outcome State Fault Refusal :=
  writeHiLo (mulSigned (s.reg rs) (s.reg rt)) s

/-- R261: DIV. -/
def execDiv (rs rt : RegNum) (s : State) : Host.Outcome State Fault Refusal :=
  writeHiLo (divSigned (s.reg rs) (s.reg rt)) s

/-- R262: DIVU. -/
def execDivu (rs rt : RegNum) (s : State) : Host.Outcome State Fault Refusal :=
  writeHiLo (divUnsigned (s.reg rs) (s.reg rt)) s

/-- R340: MULTU. -/
def execMultu (rs rt : RegNum) (s : State) : Host.Outcome State Fault Refusal :=
  writeHiLo (mulUnsigned (s.reg rs) (s.reg rt)) s

/-- R341: MFHI. -/
def execMfhi (rd : RegNum) (s : State) : Host.Outcome State Fault Refusal :=
  .next (s.setReg rd s.hi)

/-- R342: MTHI. -/
def execMthi (rs : RegNum) (s : State) : Host.Outcome State Fault Refusal :=
  .next (s.setHi (s.reg rs))

/-- R343: MFLO. -/
def execMflo (rd : RegNum) (s : State) : Host.Outcome State Fault Refusal :=
  .next (s.setReg rd s.lo)

/-- R344: MTLO. -/
def execMtlo (rs : RegNum) (s : State) : Host.Outcome State Fault Refusal :=
  .next (s.setLo (s.reg rs))

end Sys2Proof.Machine
end

