-- ==== Sys2Proof/Machine/Step.lean ====
section
/-! DEFINITION. One step of the machine is one instruction cycle (40_cycle.md R160, R161). -/

namespace Sys2Proof.Machine

/-- R161 steps (7) to (10): execute, then end the cycle. -/
def executeCycle (i : Instr) (s : State) : Host.Outcome State Fault Refusal :=
  match exec i s.beginExecute with
  | .next t => .next t.endCycle
  | .fault r => .fault r
  | .refused r => .refused r

/-- The cycle of R161. An unknown word leads to the state whose `run` is `Fatal` (R375). A cycle is enabled only while `run` is
`Running` (R160); in the other two states the step stops (R48). -/
def step (s : State) : Host.Outcome State Fault Refusal :=
  match s.run with
  | .fatal fpc fword => .fault (.unimplemented fpc fword)
  | .stopped => .fault .externalStop
  | .running =>
    let f := s.checkpoint.fetch
    match decode s.cfg.extended f.1 with
    | .unknown _ => .next (f.2.fatalStop f.1)
    | .known i => executeCycle i f.2

/-- `s` with one instruction of `nbits` bits stored where the next step fetches it. -/
def State.withFetchWord (s : State) (nbits w : Nat) : State := s.placeWord (BitVec.ofNat 32 (w % 2 ^ nbits))

end Sys2Proof.Machine
end

