-- ==== Sys2Proof/Machine/Launch.lean ====
section
/-! DEFINITION. The launch of a run with any parameters (00_scope.md R8; 70_reset_and_hazards.md R400, R404). -/

namespace Sys2Proof.Machine

/-- P_MEM_INIT is contents of RAM, expansion region 1 and scratchpad, in the canonical form. -/
def memInitOk (init : Memory) : Bool := init.wf && init.all fun c => regionOf c.1 != .rom

/-- R400: the buffers hold P_MEM_INIT, the ROM image is loaded byte-exact, the CPU state is that of R50, and the loop runs. A ROM image
of another size is refused (R404; D28), and so are parameters outside R8. -/
def State.launch (cfg : Config) (rom : List Byte) (init : Memory) : Option State :=
  if rom.length = romSize ∧ cfg.wf ∧ memInitOk init then
    some { State.reset with cfg := cfg, pc := cfg.resetPc, mem := init.load romBase rom }
  else none

end Sys2Proof.Machine
end

