-- ==== Sys2Proof/Machine/External.lean ====
section
/-! DEFINITION. The second agent, the devices and the host (00_scope.md R15; 60_exceptions.md R390-R394): what it does to the state,
always between two instruction cycles, and the total order of its acts and the cycles (20_memory.md R101). -/

namespace Sys2Proof.Machine

/-- The interactions of R390. The loading of ROM, which comes before the first cycle, is `State.launch`. -/
inductive External where
  /-- Devices make internal progress: their side becomes another, any other. -/
  | deviceStep (side : Nat)
  /-- A device reads `n` bytes at physical address `q` (R101). -/
  | busRead (q : Word) (n : Nat)
  /-- A device writes the low `n` bytes of `v` at physical address `q` (R101). -/
  | busWrite (q : Word) (n : Nat) (v : Word)
  /-- A device drives the interrupt line to a level (R392). -/
  | irq (level : Bool)
  /-- The host stops the run (R393). -/
  | stop
  /-- The host reads the snapshot (R51). -/
  | snapshot
  /-- The host sets the two tracing toggles (R389). -/
  | toggles (instr mem : Bool)
deriving DecidableEq, Repr

/-- The bytes a bus read by a device is answered, with its effects (R101): R80 to R87 without translation. -/
def externalRead (q : Word) (n : Nat) (s : State) : Word × State :=
  let r := readBytes n n q s
  (wordOfBytes r.1, r.2)

/-- R393: an external stop ends a running loop; `Stopped` and `Fatal` are final. DEDUCED (log entry 10): a stop leaves `Fatal` as it is. -/
def State.stop (s : State) : State :=
  match s.run with
  | .running => { s with run := .stopped }
  | .fatal _ _ | .stopped => s

/-- What an external act does to the state (R390). Cache-isolate applies to a device's writes as to the CPU's (R95, R101). DESIGN CHOICE
(log entry 21): the act does the same in every run state; the spec leaves open whether devices still reach the state once `run` is
`Fatal` or `Stopped` (R174). -/
def External.act (e : External) (s : State) : State :=
  match e with
  | .deviceStep side => { s with devSeed := side }
  | .busRead q n => (externalRead q n s).2
  | .busWrite q n v => writeBytes n n q v s
  | .irq level => { s with irqLine := level }
  | .stop => s.stop
  | .snapshot => s
  | .toggles i m => { s with traceInstr := i, traceMem := m }

/-- One event of the system's total order (R101): a cycle of the CPU, or an external act. -/
inductive Event where
  | cycle
  | external (e : External)
deriving DecidableEq, Repr

/-- One event. -/
def systemStep (e : Event) (s : State) : Host.Outcome State Fault Refusal :=
  match e with
  | .cycle => step s
  | .external x => .next (x.act s)

/-- Events in their order, up to the first stop. -/
def systemRun : List Event → State → Host.Outcome State Fault Refusal
  | [], s => .next s
  | e :: es, s =>
    match systemStep e s with
    | .next t => systemRun es t
    | .fault r => .fault r
    | .refused r => .refused r

/-! ### What the host sees -/

/-- The snapshot of R51. -/
structure Snapshot where
  pc : Word
  x : RegFile
  hi : Word
  lo : Word
  cp0 : RegFile
  brArmed : Bool
  brTarget : Word
  irqPending : Bool
  cycles : BitVec 64
  run : RunState
  diag : List Diag
  buffers : Memory
deriving DecidableEq, Repr

/-- R51: the host reads the state; register 0 shows as 0 (R30). -/
def State.snapshot (s : State) : Snapshot where
  pc := s.pc
  x := s.x.set 0 0#32
  hi := s.hi
  lo := s.lo
  cp0 := s.cp0
  brArmed := s.brArmed
  brTarget := s.brTarget
  irqPending := s.irqPending
  cycles := s.cycles
  run := s.run
  diag := s.diag
  buffers := s.mem

/-- The fatal signal of R375 and R394: the offending pc and raw word. -/
def State.fatalReport (s : State) : Option (Word × Word) :=
  match s.run with
  | .fatal fpc fword => some (fpc, fword)
  | .running | .stopped => none

end Sys2Proof.Machine
end

