-- ==== Sys2Proof/Safety.lean ====
section
/-! DEFINITION. What claims are stated in: the invariant of the machine between cycles, the safe runs, and the words the statements
share. -/

namespace Sys2Proof.Machine

/-- What holds between cycles whatever the program does: R30 (the unused entry 0 of the register file holds 0), R36 (`pc` is a
multiple of 4), R8 (so are the vectors), R45 (no consumed branch is left over), and the canonical form of memory. -/
abbrev State.Inv (s : State) : Prop :=
  s.x.get 0#5 = 0#32 ∧ s.pc.toNat % 4 = 0 ∧ s.cfg.wf = true ∧ s.consumed = none ∧ s.mem.wf = true

/-- A run under a schedule is safe when no event of it stops: the loop was running at each of its cycles. -/
def SafeRun (es : List Event) (s : State) : Prop := ∃ t, systemRun es s = .next t

/-- What the next cycle decodes: the word the fetch of R161 reads after the checkpoint. -/
def State.decoded (s : State) : Decoded := decode s.cfg.extended s.checkpoint.fetch.1

/-- The state in which the fetched instruction executes (R161 steps (1), (2), (5) and (6)). -/
def State.executing (s : State) : State := s.checkpoint.fetch.2.beginExecute

/-- From `s` to `t` general register `r` gets `v`, unless `r` is register 0 (R31), and nothing else changes. -/
def WritesReg (s t : State) (r : RegNum) (v : Word) : Prop :=
  (∀ k, t.reg k = if k = r ∧ k ≠ 0#5 then v else s.reg k) ∧ { t with x := s.x } = s

/-- `a` is one of the `n` bytes from physical address `q` up, modulo 2^32 (R90, R91). -/
abbrev InSpan (q : Word) (n : Nat) (a : Word) : Prop := (a - q).toNat < n

/-- The regions whose bytes a store replaces in state `s` (R80, R95). -/
abbrev State.Writable (s : State) (q : Word) : Prop :=
  regionOf q.toNat = .exp1 ∨ regionOf q.toNat = .spad ∨ (regionOf q.toNat = .ram ∧ s.isolated = false)

/-- What a read of the byte at `q` may answer (R90): the byte the core holds, 0 where nothing is mapped, and in the I/O window whatever
the device says (R84). -/
abbrev State.Answers (s : State) (q : Word) (b : Byte) : Prop :=
  ((regionOf q.toNat).backed = true → b = s.byteAt q) ∧ (regionOf q.toNat = .unmapped → b = 0#8)

/-- What reading `bytes`, each at its physical address, records in an access of width `n` (R84, R90, R96): in their order, a diagnostic
event for each unmapped one and a device call for each one in the I/O window. -/
def State.recordReads (s : State) (n : Nat) (bytes : List (Word × Byte)) : State :=
  { s with
    diag := s.diag ++ bytes.filterMap fun c =>
      if regionOf c.1.toNat = .unmapped then some (.unmappedRead c.1 n) else none
    ioLog := s.ioLog ++ bytes.filterMap fun c =>
      if regionOf c.1.toNat = .io then some (.read8 (c.1.toNat - 0x1F801000) c.2) else none }

/-- What writing `bytes`, each at its physical address, records in an access of width `n` (R84, R91, R96): in their order, a diagnostic
event for each one in ROM or unmapped space and a device call for each one in the I/O window. -/
def State.recordWrites (s : State) (n : Nat) (bytes : List (Word × Byte)) : State :=
  { s with
    diag := s.diag ++ bytes.filterMap fun c =>
      if regionOf c.1.toNat = .rom then some (.romWrite c.1 n c.2)
      else if regionOf c.1.toNat = .unmapped then some (.unmappedWrite c.1 n c.2) else none
    ioLog := s.ioLog ++ bytes.filterMap fun c =>
      if regionOf c.1.toNat = .io then some (.write8 (c.1.toNat - 0x1F801000) c.2) else none }

/-- The jumps and branches (41_branch.md, R345): the instructions that may arm the delayed branch. -/
def mayBranch : Instr → Bool
  | .j _ => true
  | .jal _ => true
  | .jr _ => true
  | .jalr _ _ => true
  | .beq _ _ _ => true
  | .bne _ _ _ => true
  | .blez _ _ => true
  | .bgtz _ _ => true
  | .bltz _ _ => true
  | .bgez _ _ => true
  | .bgezal _ _ => true
  | .add _ _ _ => false
  | .addu _ _ _ => false
  | .addi _ _ _ => false
  | .addiu _ _ _ => false
  | .sub _ _ _ => false
  | .subu _ _ _ => false
  | .and _ _ _ => false
  | .andi _ _ _ => false
  | .or _ _ _ => false
  | .ori _ _ _ => false
  | .xor _ _ _ => false
  | .xori _ _ _ => false
  | .nor _ _ _ => false
  | .sll _ _ _ => false
  | .srl _ _ _ => false
  | .sra _ _ _ => false
  | .sllv _ _ _ => false
  | .srlv _ _ _ => false
  | .srav _ _ _ => false
  | .slt _ _ _ => false
  | .sltu _ _ _ => false
  | .slti _ _ _ => false
  | .sltiu _ _ _ => false
  | .lui _ _ => false
  | .mult _ _ => false
  | .div _ _ => false
  | .divu _ _ => false
  | .lb _ _ _ => false
  | .lbu _ _ _ => false
  | .lh _ _ _ => false
  | .lhu _ _ _ => false
  | .lw _ _ _ => false
  | .sb _ _ _ => false
  | .sh _ _ _ => false
  | .sw _ _ _ => false
  | .mfc0 _ _ => false
  | .mtc0 _ _ => false
  | .syscall => false
  | .multu _ _ => false
  | .mfhi _ => false
  | .mthi _ => false
  | .mflo _ => false
  | .mtlo _ => false
  | .bltzal _ _ => true
  | .lwl _ _ _ => false
  | .lwr _ _ _ => false
  | .swl _ _ _ => false
  | .swr _ _ _ => false

/-- The instructions that write HI or LO (R38). -/
def writesHiLo : Instr → Bool
  | .j _ => false
  | .jal _ => false
  | .jr _ => false
  | .jalr _ _ => false
  | .beq _ _ _ => false
  | .bne _ _ _ => false
  | .blez _ _ => false
  | .bgtz _ _ => false
  | .bltz _ _ => false
  | .bgez _ _ => false
  | .bgezal _ _ => false
  | .add _ _ _ => false
  | .addu _ _ _ => false
  | .addi _ _ _ => false
  | .addiu _ _ _ => false
  | .sub _ _ _ => false
  | .subu _ _ _ => false
  | .and _ _ _ => false
  | .andi _ _ _ => false
  | .or _ _ _ => false
  | .ori _ _ _ => false
  | .xor _ _ _ => false
  | .xori _ _ _ => false
  | .nor _ _ _ => false
  | .sll _ _ _ => false
  | .srl _ _ _ => false
  | .sra _ _ _ => false
  | .sllv _ _ _ => false
  | .srlv _ _ _ => false
  | .srav _ _ _ => false
  | .slt _ _ _ => false
  | .sltu _ _ _ => false
  | .slti _ _ _ => false
  | .sltiu _ _ _ => false
  | .lui _ _ => false
  | .mult _ _ => true
  | .div _ _ => true
  | .divu _ _ => true
  | .lb _ _ _ => false
  | .lbu _ _ _ => false
  | .lh _ _ _ => false
  | .lhu _ _ _ => false
  | .lw _ _ _ => false
  | .sb _ _ _ => false
  | .sh _ _ _ => false
  | .sw _ _ _ => false
  | .mfc0 _ _ => false
  | .mtc0 _ _ => false
  | .syscall => false
  | .multu _ _ => true
  | .mfhi _ => false
  | .mthi _ => true
  | .mflo _ => false
  | .mtlo _ => true
  | .bltzal _ _ => false
  | .lwl _ _ _ => false
  | .lwr _ _ _ => false
  | .swl _ _ _ => false
  | .swr _ _ _ => false

/-- The instructions that write memory (R97). -/
def storesMemory : Instr → Bool
  | .j _ => false
  | .jal _ => false
  | .jr _ => false
  | .jalr _ _ => false
  | .beq _ _ _ => false
  | .bne _ _ _ => false
  | .blez _ _ => false
  | .bgtz _ _ => false
  | .bltz _ _ => false
  | .bgez _ _ => false
  | .bgezal _ _ => false
  | .add _ _ _ => false
  | .addu _ _ _ => false
  | .addi _ _ _ => false
  | .addiu _ _ _ => false
  | .sub _ _ _ => false
  | .subu _ _ _ => false
  | .and _ _ _ => false
  | .andi _ _ _ => false
  | .or _ _ _ => false
  | .ori _ _ _ => false
  | .xor _ _ _ => false
  | .xori _ _ _ => false
  | .nor _ _ _ => false
  | .sll _ _ _ => false
  | .srl _ _ _ => false
  | .sra _ _ _ => false
  | .sllv _ _ _ => false
  | .srlv _ _ _ => false
  | .srav _ _ _ => false
  | .slt _ _ _ => false
  | .sltu _ _ _ => false
  | .slti _ _ _ => false
  | .sltiu _ _ _ => false
  | .lui _ _ => false
  | .mult _ _ => false
  | .div _ _ => false
  | .divu _ _ => false
  | .lb _ _ _ => false
  | .lbu _ _ _ => false
  | .lh _ _ _ => false
  | .lhu _ _ _ => false
  | .lw _ _ _ => false
  | .sb _ _ _ => true
  | .sh _ _ _ => true
  | .sw _ _ _ => true
  | .mfc0 _ _ => false
  | .mtc0 _ _ => false
  | .syscall => false
  | .multu _ _ => false
  | .mfhi _ => false
  | .mthi _ => false
  | .mflo _ => false
  | .mtlo _ => false
  | .bltzal _ _ => false
  | .lwl _ _ _ => false
  | .lwr _ _ _ => false
  | .swl _ _ _ => true
  | .swr _ _ _ => true

end Sys2Proof.Machine
end

