-- ==== Sys2Proof/Certificates/Slice0/Obligations.lean ====
section
/-! DEFINITION. The statements for the provers. Each docstring names the rules of spec/ it formalises. -/

open Sys2Proof Sys2Proof.Machine

/-! ### Encoding -/

/-- One word of each family, with its encoding as the spec's examples print it, decodes to the instruction it stands for. -/
def Obligations.SpecExampleWordsDecode : Prop :=
  decode false 0x08004100#32 = .known (.j 0x0004100)          -- R190
    ∧ decode false 0x0080F809#32 = .known (.jalr 31 4)        -- R193
    ∧ decode false 0x04110008#32 = .known (.bgezal 0 8)       -- R200
    ∧ decode false 0x00221820#32 = .known (.add 3 1 2)        -- R220
    ∧ decode false 0x2022FFFF#32 = .known (.addi 2 1 0xFFFF)  -- R222
    ∧ decode false 0x00011103#32 = .known (.sra 2 1 4)        -- R238
    ∧ decode false 0x00411804#32 = .known (.sllv 3 1 2)       -- R239
    ∧ decode false 0x3C011234#32 = .known (.lui 1 0x1234)     -- R246
    ∧ decode false 0x0022001A#32 = .known (.div 1 2)          -- R261
    ∧ decode false 0xA4220002#32 = .known (.sh 2 1 2)         -- R286
    ∧ decode false 0x40817000#32 = .known (.mtc0 1 14)        -- R311
    ∧ decode false 0x0000000C#32 = .known .syscall            -- R313
    ∧ decode true 0x88020104#32 = .known (.lwl 2 0 0x104)     -- R346
    ∧ decode false 0x88020104#32 = .unknown (.needsExtended (.lwl 2 0 0x104))  -- R141

/-- Decoding the bytes of an encoded admitted instruction gives it back, with every operand at every value (R120-R134). -/
def Obligations.DecodeOfEncodeIsTheInstruction : Prop :=
  ∀ (extended : Bool) (i : Instr), i.wf extended = true → decodeBytes extended (bytesOfWord (encode i)) = .known i

/-- A word that decodes to an instruction has the fixed bits of its row of the opcode table, its instruction is admitted, and encoding the
instruction gives the word back but for the bits R145 ignores. -/
def Obligations.DecodeKeepsEveryCountingBit : Prop :=
  ∀ (extended : Bool) (w : Word) (i : Instr), decode extended w = .known i →
    w &&& i.tableMask = i.tableMatch ∧ encode i = w &&& (i.tableMask ||| i.operandMask) ∧ i.wf extended = true

/-- R130-R133, R141, R145: the encoding of each of the 59 instructions, with every operand and every ignored field at every value: the 49 of
R140 under both values of P_EXTENDED, the ten of R141 when it is true. -/
def Obligations.EveryEncodingDecodes : Prop :=
  ∀ (e : Bool) (rs rt rd : RegNum) (sh : Shamt) (imm : Imm16) (target : Target26) (code : BitVec 20) (low : BitVec 11),
    decode e (0x00#6 ++ rs ++ rt ++ rd ++ sh ++ 0x00#6) = .known (.sll rd rt sh)
      ∧ decode e (0x00#6 ++ rs ++ rt ++ rd ++ sh ++ 0x02#6) = .known (.srl rd rt sh)
      ∧ decode e (0x00#6 ++ rs ++ rt ++ rd ++ sh ++ 0x03#6) = .known (.sra rd rt sh)
      ∧ decode e (0x00#6 ++ rs ++ rt ++ rd ++ sh ++ 0x04#6) = .known (.sllv rd rt rs)
      ∧ decode e (0x00#6 ++ rs ++ rt ++ rd ++ sh ++ 0x06#6) = .known (.srlv rd rt rs)
      ∧ decode e (0x00#6 ++ rs ++ rt ++ rd ++ sh ++ 0x07#6) = .known (.srav rd rt rs)
      ∧ decode e (0x00#6 ++ rs ++ rt ++ rd ++ sh ++ 0x08#6) = .known (.jr rs)
      ∧ decode e (0x00#6 ++ rs ++ rt ++ rd ++ sh ++ 0x09#6) = .known (.jalr rd rs)
      ∧ decode e (0x00#6 ++ code ++ 0x0C#6) = .known .syscall
      ∧ decode e (0x00#6 ++ rs ++ rt ++ rd ++ sh ++ 0x18#6) = .known (.mult rs rt)
      ∧ decode e (0x00#6 ++ rs ++ rt ++ rd ++ sh ++ 0x1A#6) = .known (.div rs rt)
      ∧ decode e (0x00#6 ++ rs ++ rt ++ rd ++ sh ++ 0x1B#6) = .known (.divu rs rt)
      ∧ decode e (0x00#6 ++ rs ++ rt ++ rd ++ sh ++ 0x20#6) = .known (.add rd rs rt)
      ∧ decode e (0x00#6 ++ rs ++ rt ++ rd ++ sh ++ 0x21#6) = .known (.addu rd rs rt)
      ∧ decode e (0x00#6 ++ rs ++ rt ++ rd ++ sh ++ 0x22#6) = .known (.sub rd rs rt)
      ∧ decode e (0x00#6 ++ rs ++ rt ++ rd ++ sh ++ 0x23#6) = .known (.subu rd rs rt)
      ∧ decode e (0x00#6 ++ rs ++ rt ++ rd ++ sh ++ 0x24#6) = .known (.and rd rs rt)
      ∧ decode e (0x00#6 ++ rs ++ rt ++ rd ++ sh ++ 0x25#6) = .known (.or rd rs rt)
      ∧ decode e (0x00#6 ++ rs ++ rt ++ rd ++ sh ++ 0x26#6) = .known (.xor rd rs rt)
      ∧ decode e (0x00#6 ++ rs ++ rt ++ rd ++ sh ++ 0x27#6) = .known (.nor rd rs rt)
      ∧ decode e (0x00#6 ++ rs ++ rt ++ rd ++ sh ++ 0x2A#6) = .known (.slt rd rs rt)
      ∧ decode e (0x00#6 ++ rs ++ rt ++ rd ++ sh ++ 0x2B#6) = .known (.sltu rd rs rt)
      ∧ decode e (0x01#6 ++ rs ++ 0x00#5 ++ imm) = .known (.bltz rs imm)
      ∧ decode e (0x01#6 ++ rs ++ 0x01#5 ++ imm) = .known (.bgez rs imm)
      ∧ decode e (0x01#6 ++ rs ++ 0x11#5 ++ imm) = .known (.bgezal rs imm)
      ∧ decode e (0x02#6 ++ target) = .known (.j target)
      ∧ decode e (0x03#6 ++ target) = .known (.jal target)
      ∧ decode e (0x04#6 ++ rs ++ rt ++ imm) = .known (.beq rs rt imm)
      ∧ decode e (0x05#6 ++ rs ++ rt ++ imm) = .known (.bne rs rt imm)
      ∧ decode e (0x06#6 ++ rs ++ rt ++ imm) = .known (.blez rs imm)
      ∧ decode e (0x07#6 ++ rs ++ rt ++ imm) = .known (.bgtz rs imm)
      ∧ decode e (0x08#6 ++ rs ++ rt ++ imm) = .known (.addi rt rs imm)
      ∧ decode e (0x09#6 ++ rs ++ rt ++ imm) = .known (.addiu rt rs imm)
      ∧ decode e (0x0A#6 ++ rs ++ rt ++ imm) = .known (.slti rt rs imm)
      ∧ decode e (0x0B#6 ++ rs ++ rt ++ imm) = .known (.sltiu rt rs imm)
      ∧ decode e (0x0C#6 ++ rs ++ rt ++ imm) = .known (.andi rt rs imm)
      ∧ decode e (0x0D#6 ++ rs ++ rt ++ imm) = .known (.ori rt rs imm)
      ∧ decode e (0x0E#6 ++ rs ++ rt ++ imm) = .known (.xori rt rs imm)
      ∧ decode e (0x0F#6 ++ rs ++ rt ++ imm) = .known (.lui rt imm)
      ∧ decode e (0x10#6 ++ 0x00#5 ++ rt ++ rd ++ low) = .known (.mfc0 rt rd)
      ∧ decode e (0x10#6 ++ 0x04#5 ++ rt ++ rd ++ low) = .known (.mtc0 rt rd)
      ∧ decode e (0x20#6 ++ rs ++ rt ++ imm) = .known (.lb rt rs imm)
      ∧ decode e (0x21#6 ++ rs ++ rt ++ imm) = .known (.lh rt rs imm)
      ∧ decode e (0x23#6 ++ rs ++ rt ++ imm) = .known (.lw rt rs imm)
      ∧ decode e (0x24#6 ++ rs ++ rt ++ imm) = .known (.lbu rt rs imm)
      ∧ decode e (0x25#6 ++ rs ++ rt ++ imm) = .known (.lhu rt rs imm)
      ∧ decode e (0x28#6 ++ rs ++ rt ++ imm) = .known (.sb rt rs imm)
      ∧ decode e (0x29#6 ++ rs ++ rt ++ imm) = .known (.sh rt rs imm)
      ∧ decode e (0x2B#6 ++ rs ++ rt ++ imm) = .known (.sw rt rs imm)
      ∧ decode true (0x00#6 ++ rs ++ rt ++ rd ++ sh ++ 0x10#6) = .known (.mfhi rd)
      ∧ decode true (0x00#6 ++ rs ++ rt ++ rd ++ sh ++ 0x11#6) = .known (.mthi rs)
      ∧ decode true (0x00#6 ++ rs ++ rt ++ rd ++ sh ++ 0x12#6) = .known (.mflo rd)
      ∧ decode true (0x00#6 ++ rs ++ rt ++ rd ++ sh ++ 0x13#6) = .known (.mtlo rs)
      ∧ decode true (0x00#6 ++ rs ++ rt ++ rd ++ sh ++ 0x19#6) = .known (.multu rs rt)
      ∧ decode true (0x01#6 ++ rs ++ 0x10#5 ++ imm) = .known (.bltzal rs imm)
      ∧ decode true (0x22#6 ++ rs ++ rt ++ imm) = .known (.lwl rt rs imm)
      ∧ decode true (0x26#6 ++ rs ++ rt ++ imm) = .known (.lwr rt rs imm)
      ∧ decode true (0x2A#6 ++ rs ++ rt ++ imm) = .known (.swl rt rs imm)
      ∧ decode true (0x2E#6 ++ rs ++ rt ++ imm) = .known (.swr rt rs imm)

/-- R130-R133, R150: exactly these words are unknown. -/
def Obligations.UnknownWordsAreExactlyThese : Prop :=
  ∀ (extended : Bool) (w : Word), (∀ i, decode extended w ≠ .known i) ↔
    let op := (w >>> 26).toNat
    let funct := (w &&& 0x3F#32).toNat
    let rs := ((w >>> 21) &&& 0x1F#32).toNat
    let rt := ((w >>> 16) &&& 0x1F#32).toNat
    (0x11 ≤ op ∧ op ≤ 0x1F) ∨ op = 0x27 ∨ op = 0x2C ∨ op = 0x2D ∨ op = 0x2F ∨ 0x30 ≤ op
      ∨ (op = 0x00 ∧ (funct ∈ [0x01, 0x05, 0x0A, 0x0B, 0x0D, 0x0E, 0x0F, 0x28, 0x29] ∨ (0x14 ≤ funct ∧ funct ≤ 0x17)
          ∨ (0x1C ≤ funct ∧ funct ≤ 0x1F) ∨ 0x2C ≤ funct))
      ∨ (op = 0x01 ∧ rt ∉ [0x00, 0x01, 0x10, 0x11])
      ∨ (op = 0x10 ∧ rs ≠ 0x00 ∧ rs ≠ 0x04)
      ∨ (extended = false ∧ (op ∈ [0x22, 0x26, 0x2A, 0x2E] ∨ (op = 0x01 ∧ rt = 0x10)
          ∨ (op = 0x00 ∧ funct ∈ [0x10, 0x11, 0x12, 0x13, 0x19])))

/-- R12, R140, R141: P_EXTENDED adds the ten instructions of 46_extended.md and changes no other word. -/
def Obligations.ExtendedSwitchOnlyAdds : Prop :=
  ∀ (w : Word) (i : Instr), decode false w = .known i ↔ decode true w = .known i ∧ i.isExtended = false

/-! ### The instruction cycle -/

/-- A step of a running loop runs the instruction it fetched (R161): the state it executes in differs from `s` as steps (1), (2), (5) and
(6) say, and what follows the execution is steps (8) to (10). Two clauses are the model's own form of R161: the branch the cycle
consumed stands in the field `consumed` (log entry 4), and `brTarget` keeps its value when the branch is consumed, where R44 leaves any
value (log entry 12). -/
def Obligations.StepExecutesTheDecodedInstruction : Prop :=
  ∀ (s : State) (i : Instr), s.run = .running → s.decoded = .known i →
    (∀ t, exec i s.executing = .next t → step s = .next
        { t with
          pc := match t.consumed with
            | some b => b &&& 0xFFFFFFFC#32
            | none => t.pc
          consumed := none
          cycles := t.cycles + 1#64 })
      ∧ (∀ e, e = s.executing →
          e.pc = s.pc + 4#32 ∧ e.brArmed = false ∧ e.irqPending = s.irqLine
            ∧ e.consumed = (if s.brArmed then some s.brTarget else none)
            ∧ { e with pc := s.pc, brArmed := s.brArmed, irqPending := s.irqPending, consumed := s.consumed, diag := s.diag,
                       ioLog := s.ioLog } = s)

/-- R375, R169: an unknown word ends the run with its address and raw value, which the host is told, changes nothing else but the latch
and the records of the fetch itself, and no further cycle is taken. -/
def Obligations.UnknownWordStopsFatally : Prop :=
  ∀ (s : State) (why : UnknownWord), s.run = .running → s.decoded = .unknown why →
    ∃ t, step s = .next t ∧ t.run = .fatal s.pc s.checkpoint.fetch.1
      ∧ { t with run := s.run, irqPending := s.irqPending, diag := s.diag, ioLog := s.ioLog } = s
      ∧ (∀ u, step t ≠ .next u) ∧ t.fatalReport = some (s.pc, s.checkpoint.fetch.1)

/-- R48: in every state a running loop completes its step, whatever the word, and in `Fatal` and `Stopped` no further cycle is taken. -/
def Obligations.StepCompletesExactlyWhileRunning : Prop :=
  ∀ s : State, (∃ t, step s = .next t) ↔ s.run = .running

/-- What a completed cycle leaves in `pc`: the three things of R35, which the spec marks as derived, by R162, R165 and R371. -/
def Obligations.PcAfterCompletedCycle : Prop :=
  ∀ (s : State) (i : Instr), s.run = .running → s.decoded = .known i → ∃ t, step s = .next t
    ∧ t.pc = (if i = .syscall then s.cfg.excVector
        else if s.brArmed then s.brTarget &&& 0xFFFFFFFC#32 else s.pc + 4#32)

/-- R47, R171: `cycles` counts each completed cycle, SYSCALL's too, and not one that ends unimplemented-fatal; it wraps; and nothing reads
it: another value of it changes the outcome in this field alone. That the devices answer alike in the two runs compared is the model's
choice (log entry 5). -/
def Obligations.CyclesCountCompletedCycles : Prop :=
  ∀ s : State, s.run = .running → ∃ t, step s = .next t
    ∧ t.cycles = (match s.decoded with
        | .known _ => s.cycles + 1#64
        | .unknown _ => s.cycles)
    ∧ ∀ c : BitVec 64, step { s with cycles := c } = .next { t with
        cycles := match s.decoded with
          | .known _ => c + 1#64
          | .unknown _ => c }

/-- R165: after a branch is armed at `s`, exactly one instruction runs, the one at `s.pc + 4`, and the next fetch is from the target,
masked. (A SYSCALL there loses the branch: see SyscallInDelaySlotLosesTheBranch.) -/
def Obligations.DelaySlotRunsOnceBeforeTheTarget : Prop :=
  ∀ (s s1 : State) (i : Instr), s.run = .running → s.brArmed = false → step s = .next s1 → s1.brArmed = true →
    s1.decoded = .known i → i ≠ .syscall →
    s1.pc = s.pc + 4#32 ∧ ∃ s2, step s1 = .next s2 ∧ s2.pc = s1.brTarget &&& 0xFFFFFFFC#32

/-- R167: a jump in a delay slot: the first target is applied, and the second is armed, in the same cycle; then one instruction runs at
the first target, and the next fetch is from the second. -/
def Obligations.JumpInDelaySlot : Prop :=
  ∀ (s : State) (target : Target26), s.run = .running → s.brArmed = true → s.decoded = .known (.j target) →
    ∃ t, step s = .next t ∧ t.pc = s.brTarget &&& 0xFFFFFFFC#32 ∧ t.brArmed = true
      ∧ t.brTarget = ((s.pc + 4#32) &&& 0xF0000000#32) ||| (target.setWidth 32 <<< 2)
      ∧ ∀ i, t.decoded = .known i → i ≠ .syscall →
          ∃ u, step t = .next u ∧ u.pc = ((s.pc + 4#32) &&& 0xF0000000#32) ||| (target.setWidth 32 <<< 2)

/-- R168: SYSCALL in a delay slot: the trap wins and the branch is lost. -/
def Obligations.SyscallInDelaySlotLosesTheBranch : Prop :=
  ∀ s : State, s.run = .running → s.brArmed = true → s.decoded = .known .syscall →
    ∃ t, step s = .next t ∧ t.pc = s.cfg.excVector ∧ t.brArmed = false ∧ t.consumed = none ∧ t.cp0Reg 14 = s.pc

/-- R45, R164: a completed cycle of an instruction that is no jump or branch leaves nothing armed, and no cycle leaves a consumed branch. -/
def Obligations.OnlyBranchesLeaveABranchArmed : Prop :=
  ∀ (s : State) (i : Instr), s.run = .running → s.decoded = .known i →
    ∃ t, step s = .next t ∧ t.consumed = none ∧ (mayBranch i = false → t.brArmed = false)

/-- R380: a cycle copies the level of the line into the latch, leaves the line, and does nothing else with either: another level changes
the outcome in these two fields alone, and the latch's old value in none. That the devices answer alike in the two runs compared is the
model's choice (log entry 5). -/
def Obligations.InterruptLineIsOnlyLatched : Prop :=
  ∀ (s t : State) (level old : Bool), step s = .next t →
    t.irqPending = s.irqLine ∧ t.irqLine = s.irqLine
      ∧ step { s with irqLine := level, irqPending := old } = .next { t with irqLine := level, irqPending := level }

/-! ### ALU -/

/-- R30: register 0 reads 0. A write to it is dropped (R31, which the spec marks as derived from R30). -/
def Obligations.RegisterZeroIsHardWired : Prop :=
  ∀ (s : State) (v : Word), s.reg 0 = 0#32 ∧ s.setReg 0 v = s

/-- R220-R225, R233: the sums and differences are modulo 2^32, the operands read as signed or as unsigned, and none traps. -/
def Obligations.AddAndSubtractWrap : Prop :=
  ∀ (s : State) (rd rs rt : RegNum) (imm : Imm16),
    (∃ t, exec (.add rd rs rt) s = .next t ∧ WritesReg s t rd (BitVec.ofInt 32 ((s.reg rs).toInt + (s.reg rt).toInt)))
      ∧ (∃ t, exec (.addu rd rs rt) s = .next t ∧ WritesReg s t rd (BitVec.ofNat 32 ((s.reg rs).toNat + (s.reg rt).toNat)))
      ∧ (∃ t, exec (.addi rt rs imm) s = .next t ∧ WritesReg s t rt (BitVec.ofInt 32 ((s.reg rs).toInt + imm.toInt)))
      ∧ (∃ t, exec (.addiu rt rs imm) s = .next t ∧ WritesReg s t rt (BitVec.ofInt 32 ((s.reg rs).toNat + imm.toInt)))
      ∧ (∃ t, exec (.sub rd rs rt) s = .next t ∧ WritesReg s t rd (BitVec.ofInt 32 ((s.reg rs).toInt - (s.reg rt).toInt)))
      ∧ (∃ t, exec (.subu rd rs rt) s = .next t ∧ WritesReg s t rd (BitVec.ofInt 32 ((s.reg rs).toNat - (s.reg rt).toNat)))

/-- R226-R232: the logical operations; the immediates are zero-extended. -/
def Obligations.LogicalOperations : Prop :=
  ∀ (s : State) (rd rs rt : RegNum) (imm : Imm16),
    (∃ t, exec (.and rd rs rt) s = .next t ∧ WritesReg s t rd (s.reg rs &&& s.reg rt))
      ∧ (∃ t, exec (.andi rt rs imm) s = .next t ∧ WritesReg s t rt (s.reg rs &&& (0#16 ++ imm)))
      ∧ (∃ t, exec (.or rd rs rt) s = .next t ∧ WritesReg s t rd (s.reg rs ||| s.reg rt))
      ∧ (∃ t, exec (.ori rt rs imm) s = .next t ∧ WritesReg s t rt (s.reg rs ||| (0#16 ++ imm)))
      ∧ (∃ t, exec (.xor rd rs rt) s = .next t ∧ WritesReg s t rd (s.reg rs ^^^ s.reg rt))
      ∧ (∃ t, exec (.xori rt rs imm) s = .next t ∧ WritesReg s t rt (s.reg rs ^^^ (0#16 ++ imm)))
      ∧ (∃ t, exec (.nor rd rs rt) s = .next t ∧ WritesReg s t rd (~~~(s.reg rs ||| s.reg rt)))

/-- R235-R241: the shifts; a variable amount counts modulo 32. -/
def Obligations.Shifts : Prop :=
  ∀ (s : State) (rd rt rs : RegNum) (shamt : Shamt),
    (∃ t, exec (.sll rd rt shamt) s = .next t ∧ WritesReg s t rd (s.reg rt <<< shamt.toNat))
      ∧ (∃ t, exec (.srl rd rt shamt) s = .next t ∧ WritesReg s t rd (s.reg rt >>> shamt.toNat))
      ∧ (∃ t, exec (.sra rd rt shamt) s = .next t ∧ WritesReg s t rd ((s.reg rt).sshiftRight shamt.toNat))
      ∧ (∃ t, exec (.sllv rd rt rs) s = .next t ∧ WritesReg s t rd (s.reg rt <<< ((s.reg rs).toNat % 32)))
      ∧ (∃ t, exec (.srlv rd rt rs) s = .next t ∧ WritesReg s t rd (s.reg rt >>> ((s.reg rs).toNat % 32)))
      ∧ (∃ t, exec (.srav rd rt rs) s = .next t ∧ WritesReg s t rd ((s.reg rt).sshiftRight ((s.reg rs).toNat % 32)))

/-- R242-R245: the comparisons write 1 or 0; SLTIU compares its sign-extended immediate as unsigned. -/
def Obligations.Comparisons : Prop :=
  ∀ (s : State) (rd rs rt : RegNum) (imm : Imm16),
    (∃ t, exec (.slt rd rs rt) s = .next t ∧ WritesReg s t rd (if (s.reg rs).toInt < (s.reg rt).toInt then 1 else 0))
      ∧ (∃ t, exec (.sltu rd rs rt) s = .next t ∧ WritesReg s t rd (if (s.reg rs).toNat < (s.reg rt).toNat then 1 else 0))
      ∧ (∃ t, exec (.slti rt rs imm) s = .next t ∧ WritesReg s t rt (if (s.reg rs).toInt < imm.toInt then 1 else 0))
      ∧ (∃ t, exec (.sltiu rt rs imm) s = .next t
          ∧ WritesReg s t rt (if (s.reg rs).toNat < (imm.signExtend 32).toNat then 1 else 0))

/-- R246: LUI loads the upper half and zeroes the lower. -/
def Obligations.LoadUpperImmediate : Prop :=
  ∀ (s : State) (rt : RegNum) (imm : Imm16), ∃ t v, exec (.lui rt imm) s = .next t ∧ WritesReg s t rt v
    ∧ v.extractLsb' 16 16 = imm ∧ v.extractLsb' 0 16 = 0#16

/-! ### Multiply and divide -/

/-- R260, R340: HI and LO together are the exact product, signed for MULT and unsigned for MULTU; nothing else changes. -/
def Obligations.ProductsAreExact : Prop :=
  ∀ (s : State) (rs rt : RegNum),
    (∃ t, exec (.mult rs rt) s = .next t ∧ (t.hi ++ t.lo).toInt = (s.reg rs).toInt * (s.reg rt).toInt
        ∧ { t with hi := s.hi, lo := s.lo } = s)
      ∧ (∃ t, exec (.multu rs rt) s = .next t ∧ (t.hi ++ t.lo).toNat = (s.reg rs).toNat * (s.reg rt).toNat
        ∧ { t with hi := s.hi, lo := s.lo } = s)

/-- R261: DIV's quotient is rounded toward zero and its remainder has the dividend's sign; the zero divisor and the quotient that does not
fit have their own results. -/
def Obligations.SignedDivision : Prop :=
  ∀ (s : State) (rs rt : RegNum), ∃ t, exec (.div rs rt) s = .next t ∧ { t with hi := s.hi, lo := s.lo } = s
    ∧ (s.reg rt = 0#32 → t.hi = s.reg rs ∧ t.lo = if 0 ≤ (s.reg rs).toInt then 0xFFFFFFFF#32 else 0x00000001#32)
    ∧ (s.reg rs = 0x80000000#32 → s.reg rt = 0xFFFFFFFF#32 → t.hi = 0#32 ∧ t.lo = 0x80000000#32)
    ∧ (s.reg rt ≠ 0#32 → ¬ (s.reg rs = 0x80000000#32 ∧ s.reg rt = 0xFFFFFFFF#32) →
        (s.reg rs).toInt = t.lo.toInt * (s.reg rt).toInt + t.hi.toInt ∧ |t.hi.toInt| < |(s.reg rt).toInt|
          ∧ (t.hi.toInt = 0 ∨ (t.hi.toInt < 0 ↔ (s.reg rs).toInt < 0)))

/-- R262: DIVU's quotient and remainder, and the zero divisor's results. -/
def Obligations.UnsignedDivision : Prop :=
  ∀ (s : State) (rs rt : RegNum), ∃ t, exec (.divu rs rt) s = .next t ∧ { t with hi := s.hi, lo := s.lo } = s
    ∧ (s.reg rt = 0#32 → t.hi = s.reg rs ∧ t.lo = 0xFFFFFFFF#32)
    ∧ (s.reg rt ≠ 0#32 → (s.reg rs).toNat = t.lo.toNat * (s.reg rt).toNat + t.hi.toNat ∧ t.hi.toNat < (s.reg rt).toNat)

/-- R341-R344: the moves from and to HI and LO. -/
def Obligations.HiLoMoves : Prop :=
  ∀ (s : State) (r : RegNum),
    (∃ t, exec (.mfhi r) s = .next t ∧ WritesReg s t r s.hi)
      ∧ (∃ t, exec (.mflo r) s = .next t ∧ WritesReg s t r s.lo)
      ∧ exec (.mthi r) s = .next { s with hi := s.reg r }
      ∧ exec (.mtlo r) s = .next { s with lo := s.reg r }

/-! ### Jumps and branches; `s.pc` is the branch's address plus 4 (R162) -/

/-- R190-R193: the jumps arm their target and write their link; JALR's target is the old value of `rs`, even when it is also `rd`. -/
def Obligations.JumpsArmAndLink : Prop :=
  ∀ (s : State) (target : Target26) (rd rs : RegNum),
    let t26 := (s.pc &&& 0xF0000000#32) ||| (target.setWidth 32 <<< 2)
    exec (.j target) s = .next { s with brArmed := true, brTarget := t26 }
      ∧ (∃ t, exec (.jal target) s = .next t
          ∧ WritesReg { s with brArmed := true, brTarget := t26 } t 31 (s.pc + 4#32))
      ∧ exec (.jr rs) s = .next { s with brArmed := true, brTarget := s.reg rs }
      ∧ (∃ t, exec (.jalr rd rs) s = .next t
          ∧ WritesReg { s with brArmed := true, brTarget := s.reg rs } t rd (s.pc + 4#32))

/-- R194-R199: a conditional branch arms its target when its condition holds and has no effect when it does not. -/
def Obligations.ConditionalBranches : Prop :=
  ∀ (s : State) (rs rt : RegNum) (imm : Imm16),
    let a := (s.reg rs).toInt
    let taken := { s with brArmed := true, brTarget := s.pc + (imm.signExtend 32 <<< 2) }
    exec (.beq rs rt imm) s = .next (if s.reg rs = s.reg rt then taken else s)
      ∧ exec (.bne rs rt imm) s = .next (if s.reg rs = s.reg rt then s else taken)
      ∧ exec (.blez rs imm) s = .next (if a ≤ 0 then taken else s)
      ∧ exec (.bgtz rs imm) s = .next (if a > 0 then taken else s)
      ∧ exec (.bltz rs imm) s = .next (if a < 0 then taken else s)
      ∧ exec (.bgez rs imm) s = .next (if a ≥ 0 then taken else s)

/-- R200, R345: BGEZAL and BLTZAL write the link whether or not they are taken, and test the old value of `rs`, even when it is 31. -/
def Obligations.LinkingBranches : Prop :=
  ∀ (s : State) (rs : RegNum) (imm : Imm16),
    let a := (s.reg rs).toInt
    let taken := { s with brArmed := true, brTarget := s.pc + (imm.signExtend 32 <<< 2) }
    (∃ t, exec (.bgezal rs imm) s = .next t ∧ WritesReg (if a ≥ 0 then taken else s) t 31 (s.pc + 4#32))
      ∧ (∃ t, exec (.bltzal rs imm) s = .next t ∧ WritesReg (if a < 0 then taken else s) t 31 (s.pc + 4#32))

/-! ### Loads -/

/-- R280-R284, R288: a load writes the extended value of MemRead at base plus signed offset, in the state the read leaves. -/
def Obligations.LoadsWriteWhatMemReadAnswers : Prop :=
  ∀ (s : State) (rt rs : RegNum) (imm : Imm16),
    let ea := s.reg rs + imm.signExtend 32
    (∃ t, exec (.lb rt rs imm) s = .next t
        ∧ WritesReg (memRead ea 1 s).2 t rt (((memRead ea 1 s).1.setWidth 8).signExtend 32))
      ∧ (∃ t, exec (.lbu rt rs imm) s = .next t
        ∧ WritesReg (memRead ea 1 s).2 t rt (((memRead ea 1 s).1.setWidth 8).setWidth 32))
      ∧ (∃ t, exec (.lh rt rs imm) s = .next t
        ∧ WritesReg (memRead ea 2 s).2 t rt (((memRead ea 2 s).1.setWidth 16).signExtend 32))
      ∧ (∃ t, exec (.lhu rt rs imm) s = .next t
        ∧ WritesReg (memRead ea 2 s).2 t rt (((memRead ea 2 s).1.setWidth 16).setWidth 32))
      ∧ (∃ t, exec (.lw rt rs imm) s = .next t ∧ WritesReg (memRead ea 4 s).2 t rt (memRead ea 4 s).1)

/-- R83, R86, R90, R92, R94: where the bytes at the effective address are bytes the core holds, aligned or not, a load gives them
little-endian and has no other effect. -/
def Obligations.LoadsOfHeldBytes : Prop :=
  ∀ (s : State) (rt rs : RegNum) (imm : Imm16),
    let ea := s.reg rs + imm.signExtend 32
    let at' := fun j : Nat => translateAddr ea + BitVec.ofNat 32 j
    let b := fun j => s.byteAt (at' j)
    let held := fun n => ∀ j < n, (regionOf (at' j).toNat).backed = true
    inCacheControl ea = false →
      (held 1 → ∃ t, exec (.lb rt rs imm) s = .next t ∧ WritesReg s t rt ((b 0).signExtend 32))
        ∧ (held 1 → ∃ t, exec (.lbu rt rs imm) s = .next t ∧ WritesReg s t rt ((b 0).setWidth 32))
        ∧ (held 2 → ∃ t, exec (.lh rt rs imm) s = .next t ∧ WritesReg s t rt ((b 1 ++ b 0).signExtend 32))
        ∧ (held 2 → ∃ t, exec (.lhu rt rs imm) s = .next t ∧ WritesReg s t rt ((b 1 ++ b 0).setWidth 32))
        ∧ (held 4 → ∃ t, exec (.lw rt rs imm) s = .next t ∧ WritesReg s t rt (b 3 ++ b 2 ++ b 1 ++ b 0))

/-- R290, R289: every load completes at every address; it changes no register but `rt`, no byte of memory, and otherwise only adds to the
diagnostic events and the record of device calls. -/
def Obligations.LoadsCompleteEverywhere : Prop :=
  ∀ (s : State) (rt rs : RegNum) (imm : Imm16) (i : Instr),
    i ∈ [.lb rt rs imm, .lbu rt rs imm, .lh rt rs imm, .lhu rt rs imm, .lw rt rs imm, .lwl rt rs imm, .lwr rt rs imm] →
    ∃ t, exec i s = .next t ∧ (∀ k, k ≠ rt → t.reg k = s.reg k) ∧ (∀ q, t.byteAt q = s.byteAt q)
      ∧ { t with x := s.x, diag := s.diag, ioLog := s.ioLog } = s ∧ s.diag <+: t.diag ∧ s.ioLog <+: t.ioLog

/-- R87, R96: a load of unmapped bytes gives 0 and one event a byte, in ascending order, with the width of the access. -/
def Obligations.LoadsOfUnmappedBytes : Prop :=
  ∀ (s : State) (rt rs : RegNum) (imm : Imm16),
    let ea := s.reg rs + imm.signExtend 32
    let at' := fun j : Nat => translateAddr ea + BitVec.ofNat 32 j
    let unmapped := fun n => ∀ j < n, regionOf (at' j).toNat = .unmapped
    inCacheControl ea = false →
      (∀ i ∈ [Instr.lb rt rs imm, .lbu rt rs imm], unmapped 1 → ∃ t, exec i s = .next t
          ∧ WritesReg { s with diag := s.diag ++ [.unmappedRead (at' 0) 1] } t rt 0#32)
        ∧ (∀ i ∈ [Instr.lh rt rs imm, .lhu rt rs imm], unmapped 2 → ∃ t, exec i s = .next t
          ∧ WritesReg { s with diag := s.diag ++ [.unmappedRead (at' 0) 2, .unmappedRead (at' 1) 2] } t rt 0#32)
        ∧ (unmapped 4 → ∃ t, exec (.lw rt rs imm) s = .next t
          ∧ WritesReg { s with diag := s.diag ++ [.unmappedRead (at' 0) 4, .unmappedRead (at' 1) 4, .unmappedRead (at' 2) 4,
              .unmappedRead (at' 3) 4] } t rt 0#32)

/-- R84: a load from the I/O window is one `read8` a byte, in ascending order; the device's answers, whatever they are (log entry 5), are
recorded, and make up the value little-endian. R90, R94: the last clause says of every load what the others say of one region: each byte
is resolved on its own, whatever regions the bytes of the access lie in (the last bytes of RAM or ROM and the unmapped ones after them). -/
def Obligations.LoadsFromDevices : Prop :=
  ∀ (s : State) (rt rs : RegNum) (imm : Imm16),
    let ea := s.reg rs + imm.signExtend 32
    let at' := fun j : Nat => translateAddr ea + BitVec.ofNat 32 j
    let off := fun j => (at' j).toNat - 0x1F801000
    let device := fun n => ∀ j < n, regionOf (at' j).toNat = .io
    inCacheControl ea = false →
      (device 1 → ∃ t b0, exec (.lb rt rs imm) s = .next t
          ∧ WritesReg { s with ioLog := s.ioLog ++ [.read8 (off 0) b0] } t rt (b0.signExtend 32))
        ∧ (device 1 → ∃ t b0, exec (.lbu rt rs imm) s = .next t
          ∧ WritesReg { s with ioLog := s.ioLog ++ [.read8 (off 0) b0] } t rt (b0.setWidth 32))
        ∧ (device 2 → ∃ t b0 b1, exec (.lh rt rs imm) s = .next t
          ∧ WritesReg { s with ioLog := s.ioLog ++ [.read8 (off 0) b0, .read8 (off 1) b1] } t rt ((b1 ++ b0).signExtend 32))
        ∧ (device 2 → ∃ t b0 b1, exec (.lhu rt rs imm) s = .next t
          ∧ WritesReg { s with ioLog := s.ioLog ++ [.read8 (off 0) b0, .read8 (off 1) b1] } t rt ((b1 ++ b0).setWidth 32))
        ∧ (device 4 → ∃ t b0 b1 b2 b3, exec (.lw rt rs imm) s = .next t
          ∧ WritesReg { s with ioLog := s.ioLog ++ [.read8 (off 0) b0, .read8 (off 1) b1, .read8 (off 2) b2, .read8 (off 3) b3] }
              t rt (b3 ++ b2 ++ b1 ++ b0))
        ∧ ∀ n i v, (n, i, v) ∈ [(1, Instr.lb rt rs imm, fun b : Nat → Byte => (b 0).signExtend 32),
              (1, .lbu rt rs imm, fun b => (b 0).setWidth 32), (2, .lh rt rs imm, fun b => (b 1 ++ b 0).signExtend 32),
              (2, .lhu rt rs imm, fun b => (b 1 ++ b 0).setWidth 32), (4, .lw rt rs imm, fun b => b 3 ++ b 2 ++ b 1 ++ b 0)] →
            ∃ t b, exec i s = .next t ∧ (∀ j < n, s.Answers (at' j) (b j))
              ∧ WritesReg (s.recordReads n ((List.range n).map fun j => (at' j, b j))) t rt (v b)

/-- R71: an access whose raw address lies in the window reads 0 or writes nothing, with no other effect, whatever its width; outside the
window it goes to the bytes of the translated address. -/
def Obligations.CacheControlWindow : Prop :=
  ∀ (s : State) (a v : Word) (n : Nat),
    (0xFFFE0000 ≤ a.toNat → a.toNat < 0xFFFE0200 → memRead a n s = (0#32, s) ∧ memWrite a n v s = s)
      ∧ ((a.toNat < 0xFFFE0000 ∨ 0xFFFE0200 ≤ a.toNat) →
          memRead a n s = (wordOfBytes (readBytes n n (translateAddr a) s).1, (readBytes n n (translateAddr a) s).2)
            ∧ memWrite a n v s = writeBytes n n (translateAddr a) v s)

/-- R73, which the spec marks as derived from R71, R72 and R80: the three views of a physical offset are one memory for reads and for writes
of every width, and reach one device offset. For an offset in the I/O window, where R73 lets two reads differ, that the reads compared
here have the same answer is the model's choice (log entry 5): the oracle answers alike from one state. -/
def Obligations.ViewsMirror : Prop :=
  ∀ (s : State) (p v : Word) (n : Nat), p.toNat < 0x20000000 →
    memRead (p + 0x80000000#32) n s = memRead p n s ∧ memRead (p + 0xA0000000#32) n s = memRead p n s
      ∧ memWrite (p + 0x80000000#32) n v s = memWrite p n v s ∧ memWrite (p + 0xA0000000#32) n v s = memWrite p n v s

/-- R93, which the spec marks as derived from R90 to R92: after a word is written to RAM with cache-isolate clear, the narrower reads of it. -/
def Obligations.MixedWidthView : Prop :=
  ∀ (s : State) (a : Word), s.mem.wf = true → s.isolated = false →
    (∀ j < 4, regionOf (translateAddr a + BitVec.ofNat 32 j).toNat = .ram) →
    let t := memWrite a 4 0x11223344#32 s
    (memRead a 1 t).1 = 0x44#32 ∧ (memRead (a + 1#32) 1 t).1 = 0x33#32 ∧ (memRead (a + 2#32) 1 t).1 = 0x22#32
      ∧ (memRead (a + 3#32) 1 t).1 = 0x11#32 ∧ (memRead a 2 t).1 = 0x3344#32 ∧ (memRead (a + 2#32) 2 t).1 = 0x1122#32

/-! ### Stores -/

/-- R285-R287, R288: a store is MemWrite of the low bytes of `rt` at base plus signed offset. -/
def Obligations.StoresAreMemWrites : Prop :=
  ∀ (s : State) (rt rs : RegNum) (imm : Imm16),
    let ea := s.reg rs + imm.signExtend 32
    exec (.sb rt rs imm) s = .next (memWrite ea 1 (s.reg rt) s)
      ∧ exec (.sh rt rs imm) s = .next (memWrite ea 2 (s.reg rt) s)
      ∧ exec (.sw rt rs imm) s = .next (memWrite ea 4 (s.reg rt) s)

/-- R83-R87, R91, R94-R96: a store resolves each of its bytes on its own, aligned or not: it replaces exactly those that take a write,
little-endian, records what the others ask (one event a byte in ROM or unmapped space, one `write8` a byte in the I/O window, nothing
in RAM under cache-isolate), in ascending order, and changes nothing else. -/
def Obligations.StoresReplaceExactlyTheirBytes : Prop :=
  ∀ (s : State) (rt rs : RegNum) (imm : Imm16),
    let ea := s.reg rs + imm.signExtend 32
    let p := translateAddr ea
    let b := fun j : Nat => (s.reg rt).extractLsb' (8 * j) 8
    s.mem.wf = true → inCacheControl ea = false →
      ∀ n i, (n, i) ∈ [(1, Instr.sb rt rs imm), (2, .sh rt rs imm), (4, .sw rt rs imm)] →
        ∃ t, exec i s = .next t
          ∧ (∀ q, t.byteAt q = if InSpan p n q ∧ s.Writable q then b (q - p).toNat else s.byteAt q)
          ∧ { t with mem := s.mem } = s.recordWrites n ((List.range n).map fun j => (p + BitVec.ofNat 32 j, b j))

/-- R291, R289: every store completes at every address; it changes no byte outside the bytes it stores to, and otherwise only adds to the
diagnostic events and the record of device calls. The bytes are those of the translated effective address, and for SWL and SWR those
of the word that holds it, up to it or from it. -/
def Obligations.StoresCompleteEverywhere : Prop :=
  ∀ (s : State) (rt rs : RegNum) (imm : Imm16),
    let ea := s.reg rs + imm.signExtend 32
    let word := ea &&& 0xFFFFFFFC#32
    let n := (ea &&& 3#32).toNat
    let done := fun (i : Instr) (stored : Word → Prop) => ∃ t, exec i s = .next t
      ∧ (∀ q, ¬ stored q → t.byteAt q = s.byteAt q)
      ∧ { t with mem := s.mem, diag := s.diag, ioLog := s.ioLog } = s ∧ s.diag <+: t.diag ∧ s.ioLog <+: t.ioLog
    done (.sb rt rs imm) (InSpan (translateAddr ea) 1)
      ∧ done (.sh rt rs imm) (InSpan (translateAddr ea) 2)
      ∧ done (.sw rt rs imm) (InSpan (translateAddr ea) 4)
      ∧ done (.swl rt rs imm) (fun q => ∃ j ≤ n, q = translateAddr (word + BitVec.ofNat 32 j))
      ∧ done (.swr rt rs imm) (fun q => ∃ j, n ≤ j ∧ j ≤ 3 ∧ q = translateAddr (word + BitVec.ofNat 32 j))

/-- R84, R86, R87, R95, R96: what a store does where its bytes do not take it: to ROM and to unmapped space it is discarded with one event
a byte, to RAM under cache-isolate it is discarded silently, and to the I/O window it is one `write8` a byte. -/
def Obligations.StoresThatReplaceNothing : Prop :=
  ∀ (s : State) (rt rs : RegNum) (imm : Imm16),
    let ea := s.reg rs + imm.signExtend 32
    let at' := fun j : Nat => translateAddr ea + BitVec.ofNat 32 j
    let b := fun j : Nat => (s.reg rt).extractLsb' (8 * j) 8
    let all := fun n r => ∀ j < n, regionOf (at' j).toNat = r
    inCacheControl ea = false →
      ∀ n i, (n, i) ∈ [(1, Instr.sb rt rs imm), (2, .sh rt rs imm), (4, .sw rt rs imm)] →
        (all n .rom → exec i s = .next { s with diag := s.diag ++ (List.range n).map fun j => .romWrite (at' j) n (b j) })
          ∧ (all n .unmapped →
              exec i s = .next { s with diag := s.diag ++ (List.range n).map fun j => .unmappedWrite (at' j) n (b j) })
          ∧ (all n .ram → s.isolated = true → exec i s = .next s)
          ∧ (all n .io →
              exec i s = .next { s with ioLog := s.ioLog ++ (List.range n).map fun j => .write8 ((at' j).toNat - 0x1F801000) (b j) })

/-- R92, R287, R284: a word stored where its bytes take it is read back, whatever registers the two instructions use. -/
def Obligations.StoreThenLoadWord : Prop :=
  ∀ (s t : State) (rt rs rd rb : RegNum) (imm off : Imm16),
    let ea := s.reg rs + imm.signExtend 32
    s.mem.wf = true → inCacheControl ea = false → (∀ j < 4, s.Writable (translateAddr ea + BitVec.ofNat 32 j)) →
    s.reg rb + off.signExtend 32 = ea → exec (.sw rt rs imm) s = .next t →
    ∃ u, exec (.lw rd rb off) t = .next u ∧ WritesReg t u rd (s.reg rt)

/-- R104, which the spec marks as derived from R90 and R100: a store is seen by the next fetch of the same bytes. -/
def Obligations.StoreIsSeenByTheNextFetch : Prop :=
  ∀ (s t : State) (rt rs : RegNum) (imm : Imm16),
    let ea := s.reg rs + imm.signExtend 32
    s.mem.wf = true → inCacheControl ea = false → inCacheControl s.pc = false →
    (∀ j < 4, s.Writable (translateAddr ea + BitVec.ofNat 32 j)) → translateAddr s.pc = translateAddr ea →
    exec (.sw rt rs imm) s = .next t → t.fetch = (s.reg rt, t)

/-! ### The unaligned pairs -/

/-- R346, R347: which bytes of the aligned word LWL and LWR put where, and which bytes of `rt` they keep. Only the named bytes are read, one
at a time in ascending order, each resolved on its own in an access of width 1 (R90, R96), whatever region it lies in; in the
cache-control window each reads 0 and nothing is recorded (R71). What a device answers is the free value of log entry 5. -/
def Obligations.LwlAndLwrBytes : Prop :=
  ∀ (s : State) (rt rs : RegNum) (imm : Imm16),
    let ea := s.reg rs + imm.signExtend 32
    let word := ea &&& 0xFFFFFFFC#32
    let n := (ea &&& 3#32).toNat
    let at' := fun j : Nat => translateAddr (word + BitVec.ofNat 32 j)
    let lwl := fun (b : Nat → Byte) (v : Word) => ∀ k < 4, getByte v k = if 3 - n ≤ k then b (k - (3 - n)) else getByte (s.reg rt) k
    let lwr := fun (b : Nat → Byte) (v : Word) => ∀ k < 4, getByte v k = if k ≤ 3 - n then b (n + k) else getByte (s.reg rt) k
    (inCacheControl word = false →
        (∃ t v b, exec (.lwl rt rs imm) s = .next t ∧ (∀ j ≤ n, s.Answers (at' j) (b j)) ∧ lwl b v
          ∧ WritesReg (s.recordReads 1 ((List.range (n + 1)).map fun j => (at' j, b j))) t rt v)
        ∧ (∃ t v b, exec (.lwr rt rs imm) s = .next t ∧ (∀ j, n ≤ j → j < 4 → s.Answers (at' j) (b j)) ∧ lwr b v
          ∧ WritesReg (s.recordReads 1 ((List.range' n (4 - n)).map fun j => (at' j, b j))) t rt v))
      ∧ (inCacheControl word = true →
        (∃ t v, exec (.lwl rt rs imm) s = .next t ∧ lwl (fun _ => 0#8) v ∧ WritesReg s t rt v)
        ∧ (∃ t v, exec (.lwr rt rs imm) s = .next t ∧ lwr (fun _ => 0#8) v ∧ WritesReg s t rt v))

/-- R348, R349: which bytes of `rt` SWL and SWR put where. Only the named bytes are written, one at a time in ascending order, each resolved
on its own in an access of width 1 (R91, R96): it replaces the byte where it takes a write and records what its region asks; in the
cache-control window nothing happens (R71). Nothing else changes (StoresCompleteEverywhere says which bytes of memory). -/
def Obligations.SwlAndSwrBytes : Prop :=
  ∀ (s : State) (rt rs : RegNum) (imm : Imm16),
    let ea := s.reg rs + imm.signExtend 32
    let word := ea &&& 0xFFFFFFFC#32
    let n := (ea &&& 3#32).toNat
    let at' := fun j : Nat => translateAddr (word + BitVec.ofNat 32 j)
    (s.mem.wf = true → inCacheControl word = false →
        (∃ t, exec (.swl rt rs imm) s = .next t
          ∧ { t with mem := s.mem } = s.recordWrites 1 ((List.range (n + 1)).map fun j => (at' j, getByte (s.reg rt) (3 - n + j)))
          ∧ ∀ j < 4, t.byteAt (at' j) = if j ≤ n ∧ s.Writable (at' j) then getByte (s.reg rt) (3 - n + j) else s.byteAt (at' j))
        ∧ (∃ t, exec (.swr rt rs imm) s = .next t
          ∧ { t with mem := s.mem } = s.recordWrites 1 ((List.range' n (4 - n)).map fun j => (at' j, getByte (s.reg rt) (j - n)))
          ∧ ∀ j < 4, t.byteAt (at' j) = if n ≤ j ∧ s.Writable (at' j) then getByte (s.reg rt) (j - n) else s.byteAt (at' j)))
      ∧ (inCacheControl word = true → exec (.swl rt rs imm) s = .next s ∧ exec (.swr rt rs imm) s = .next s)

/-- R346, R347: LWR at an address and LWL at the address plus 3 load the unaligned word there. -/
def Obligations.UnalignedPairLoadsTheWord : Prop :=
  ∀ (s t : State) (rt rs : RegNum) (imm imm' : Imm16),
    let ea := s.reg rs + imm.signExtend 32
    let b := fun j : Nat => s.byteAt (translateAddr (ea + BitVec.ofNat 32 j))
    rt ≠ 0 → rs ≠ rt → s.reg rs + imm'.signExtend 32 = ea + 3#32 →
    (∀ j < 4, inCacheControl (ea + BitVec.ofNat 32 j) = false
      ∧ (regionOf (translateAddr (ea + BitVec.ofNat 32 j)).toNat).backed = true) →
    exec (.lwr rt rs imm) s = .next t →
    ∃ u, exec (.lwl rt rs imm') t = .next u ∧ WritesReg s u rt (b 3 ++ b 2 ++ b 1 ++ b 0)

/-! ### CP0 and SYSCALL -/

/-- R310-R312: MFC0 reads and MTC0 stores all 32 bits of any CP0 register, in any state, and after a write to register 12 cache-isolate is
bit 16 of the value written, whatever it was. -/
def Obligations.Cp0Moves : Prop :=
  ∀ (s : State) (rt rd : RegNum),
    (∃ t, exec (.mfc0 rt rd) s = .next t ∧ WritesReg s t rt (s.cp0Reg rd))
      ∧ (∃ t, exec (.mtc0 rt rd) s = .next t ∧ (∀ k, t.cp0Reg k = if k = rd then s.reg rt else s.cp0Reg k)
          ∧ { t with cp0 := s.cp0 } = s
          ∧ t.isolated = if rd = 12 then (s.reg rt).getLsbD 16 else s.isolated)

/-- R371, R313: SYSCALL at `ia` puts `ia` in EPC and 0x20 in Cause, goes to the vector, drops the branch the cycle consumed, and changes
nothing else. -/
def Obligations.SyscallTrapEntry : Prop :=
  ∀ (s : State) (ia : Word), s.pc = ia + 4#32 →
    ∃ t, exec .syscall s = .next t ∧ t.cp0Reg 14 = ia ∧ t.cp0Reg 13 = 0x00000020#32
      ∧ (∀ k, k ≠ 13 → k ≠ 14 → t.cp0Reg k = s.cp0Reg k) ∧ t.pc = s.cfg.excVector ∧ t.consumed = none
      ∧ { t with cp0 := s.cp0, pc := s.pc, consumed := s.consumed } = s

/-! ### Whole-machine rules -/

/-- R39, R41-R43: no step changes a CP0 register but MTC0 to it, and SYSCALL, which changes EPC and Cause alone. -/
def Obligations.Cp0IsWrittenOnlyByMtc0AndSyscall : Prop :=
  ∀ (s t : State) (k : RegNum), step s = .next t → t.cp0Reg k ≠ s.cp0Reg k →
    (∃ rt, s.decoded = .known (.mtc0 rt k)) ∨ (s.decoded = .known .syscall ∧ (k = 13 ∨ k = 14))

/-- R38: no step changes HI or LO but one of the instructions that write them. -/
def Obligations.HiLoAreWrittenOnlyByTheirInstructions : Prop :=
  ∀ (s t : State), step s = .next t → ¬ (t.hi = s.hi ∧ t.lo = s.lo) →
    ∃ i, s.decoded = .known i ∧ writesHiLo i = true

/-- R100, R161: no step changes memory but one of a store. -/
def Obligations.OnlyStoresWriteMemory : Prop :=
  ∀ (s t : State), step s = .next t → t.mem ≠ s.mem → ∃ i, s.decoded = .known i ∧ storesMemory i = true

/-- R86, R404: under every schedule of cycles and external acts the bytes of ROM stay as they were loaded. -/
def Obligations.RomIsImmutable : Prop :=
  ∀ (es : List Event) (s t : State), systemRun es s = .next t →
    ∀ q, regionOf q.toNat = .rom → t.byteAt q = s.byteAt q

/-- R95: while cache-isolate is set no step and no external act changes a byte of RAM. -/
def Obligations.CacheIsolateProtectsRam : Prop :=
  ∀ (s t : State) (e : Event), s.isolated = true → systemStep e s = .next t →
    ∀ q, regionOf q.toNat = .ram → t.byteAt q = s.byteAt q

/-- R49, R84: the diagnostic events and the record of device calls are append-only, under every schedule. -/
def Obligations.EventSequencesOnlyGrow : Prop :=
  ∀ (es : List Event) (s t : State), systemRun es s = .next t → s.diag <+: t.diag ∧ s.ioLog <+: t.ioLog

/-- R8, R12: the launch parameters are fixed for the whole run, under every schedule. -/
def Obligations.LaunchParametersNeverChange : Prop :=
  ∀ (es : List Event) (s t : State), systemRun es s = .next t → t.cfg = s.cfg

/-- R393: an external stop ends a running loop, and `Stopped` and `Fatal` are final: no external act leaves them, and no cycle is taken.
That a stop of a run that ended in `Fatal` leaves `Fatal` as it is, is the model's inference from R393, whose sentence on the stop names
no state (log entry 10). -/
def Obligations.StoppedAndFatalAreFinal : Prop :=
  ∀ s : State, (s.run = .running → s.stop.run = .stopped)
    ∧ (s.run ≠ .running → (∀ e : External, (e.act s).run = s.run) ∧ ∀ t, step s ≠ .next t)

/-! ### Reset and the invariant -/

/-- The state after reset meets the invariant. -/
def Obligations.ResetMeetsTheInvariant : Prop := State.reset.Inv

/-- R30, R36, R45: every step keeps the invariant. -/
def Obligations.StepKeepsTheInvariant : Prop :=
  ∀ s t : State, s.Inv → step s = .next t → t.Inv

/-- R15, R101: every schedule of cycles and external acts keeps the invariant. -/
def Obligations.EveryScheduleKeepsTheInvariant : Prop :=
  ∀ (es : List Event) (s t : State), s.Inv → systemRun es s = .next t → t.Inv

/-- R50, R400, R404: a launch with a ROM image of exactly 524288 bytes, parameters that are multiples of 4 (R8) and a P_MEM_INIT in
canonical form succeeds, and gives the reset state: every register 0, `pc` at P_RESET_PC, nothing armed, byte `i` of the image at
physical 0x1FC00000 + `i`, and P_MEM_INIT everywhere else; it meets the invariant. That another image is refused is the model's choice,
which R404 allows (log entry 19). -/
def Obligations.LaunchGivesTheResetState : Prop :=
  ∀ (cfg : Config) (rom : List Byte) (init : Memory),
    (rom.length ≠ 524288 → State.launch cfg rom init = none)
      ∧ (rom.length = 524288 → cfg.wf = true → memInitOk init = true → ∃ s, State.launch cfg rom init = some s)
      ∧ ∀ s, State.launch cfg rom init = some s →
          (∀ r, s.reg r = 0#32 ∧ s.cp0Reg r = 0#32) ∧ s.pc = cfg.resetPc ∧ s.hi = 0#32 ∧ s.lo = 0#32
            ∧ s.brArmed = false ∧ s.brTarget = 0#32 ∧ s.irqPending = false ∧ s.cycles = 0#64 ∧ s.run = .running ∧ s.diag = []
            ∧ s.cfg = cfg ∧ s.isolated = false ∧ rom.length = 524288
            ∧ (∀ i < 524288, s.byteAt (BitVec.ofNat 32 (0x1FC00000 + i)) = rom.getD i 0#8)
            ∧ (∀ q : Word, regionOf q.toNat ≠ .rom → s.byteAt q = init.read q.toNat) ∧ s.Inv
end

