-- ==== Sys2Proof/Laws/State.lean ====
section
/-! SUPPORT. One lemma per field per named update of the state, so that no proof unfolds a record update. -/

namespace Sys2Proof.Machine.State

/-! ### setReg -/

@[simp] theorem setReg_cfg (s : State) (r : RegNum) (v : Word) : (s.setReg r v).cfg = s.cfg := rfl
@[simp] theorem setReg_x (s : State) (r : RegNum) (v : Word) : (s.setReg r v).x = if r = 0#5 then s.x else s.x.put r v := rfl
@[simp] theorem setReg_pc (s : State) (r : RegNum) (v : Word) : (s.setReg r v).pc = s.pc := rfl
@[simp] theorem setReg_hi (s : State) (r : RegNum) (v : Word) : (s.setReg r v).hi = s.hi := rfl
@[simp] theorem setReg_lo (s : State) (r : RegNum) (v : Word) : (s.setReg r v).lo = s.lo := rfl
@[simp] theorem setReg_cp0 (s : State) (r : RegNum) (v : Word) : (s.setReg r v).cp0 = s.cp0 := rfl
@[simp] theorem setReg_brArmed (s : State) (r : RegNum) (v : Word) : (s.setReg r v).brArmed = s.brArmed := rfl
@[simp] theorem setReg_brTarget (s : State) (r : RegNum) (v : Word) : (s.setReg r v).brTarget = s.brTarget := rfl
@[simp] theorem setReg_consumed (s : State) (r : RegNum) (v : Word) : (s.setReg r v).consumed = s.consumed := rfl
@[simp] theorem setReg_irqLine (s : State) (r : RegNum) (v : Word) : (s.setReg r v).irqLine = s.irqLine := rfl
@[simp] theorem setReg_irqPending (s : State) (r : RegNum) (v : Word) : (s.setReg r v).irqPending = s.irqPending := rfl
@[simp] theorem setReg_cycles (s : State) (r : RegNum) (v : Word) : (s.setReg r v).cycles = s.cycles := rfl
@[simp] theorem setReg_run (s : State) (r : RegNum) (v : Word) : (s.setReg r v).run = s.run := rfl
@[simp] theorem setReg_diag (s : State) (r : RegNum) (v : Word) : (s.setReg r v).diag = s.diag := rfl
@[simp] theorem setReg_ioLog (s : State) (r : RegNum) (v : Word) : (s.setReg r v).ioLog = s.ioLog := rfl
@[simp] theorem setReg_devSeed (s : State) (r : RegNum) (v : Word) : (s.setReg r v).devSeed = s.devSeed := rfl
@[simp] theorem setReg_traceInstr (s : State) (r : RegNum) (v : Word) : (s.setReg r v).traceInstr = s.traceInstr := rfl
@[simp] theorem setReg_traceMem (s : State) (r : RegNum) (v : Word) : (s.setReg r v).traceMem = s.traceMem := rfl
@[simp] theorem setReg_mem (s : State) (r : RegNum) (v : Word) : (s.setReg r v).mem = s.mem := rfl

/-! ### setCp0 -/

@[simp] theorem setCp0_cfg (s : State) (r : RegNum) (v : Word) : (s.setCp0 r v).cfg = s.cfg := rfl
@[simp] theorem setCp0_x (s : State) (r : RegNum) (v : Word) : (s.setCp0 r v).x = s.x := rfl
@[simp] theorem setCp0_pc (s : State) (r : RegNum) (v : Word) : (s.setCp0 r v).pc = s.pc := rfl
@[simp] theorem setCp0_hi (s : State) (r : RegNum) (v : Word) : (s.setCp0 r v).hi = s.hi := rfl
@[simp] theorem setCp0_lo (s : State) (r : RegNum) (v : Word) : (s.setCp0 r v).lo = s.lo := rfl
@[simp] theorem setCp0_cp0 (s : State) (r : RegNum) (v : Word) : (s.setCp0 r v).cp0 = s.cp0.put r v := rfl
@[simp] theorem setCp0_brArmed (s : State) (r : RegNum) (v : Word) : (s.setCp0 r v).brArmed = s.brArmed := rfl
@[simp] theorem setCp0_brTarget (s : State) (r : RegNum) (v : Word) : (s.setCp0 r v).brTarget = s.brTarget := rfl
@[simp] theorem setCp0_consumed (s : State) (r : RegNum) (v : Word) : (s.setCp0 r v).consumed = s.consumed := rfl
@[simp] theorem setCp0_irqLine (s : State) (r : RegNum) (v : Word) : (s.setCp0 r v).irqLine = s.irqLine := rfl
@[simp] theorem setCp0_irqPending (s : State) (r : RegNum) (v : Word) : (s.setCp0 r v).irqPending = s.irqPending := rfl
@[simp] theorem setCp0_cycles (s : State) (r : RegNum) (v : Word) : (s.setCp0 r v).cycles = s.cycles := rfl
@[simp] theorem setCp0_run (s : State) (r : RegNum) (v : Word) : (s.setCp0 r v).run = s.run := rfl
@[simp] theorem setCp0_diag (s : State) (r : RegNum) (v : Word) : (s.setCp0 r v).diag = s.diag := rfl
@[simp] theorem setCp0_ioLog (s : State) (r : RegNum) (v : Word) : (s.setCp0 r v).ioLog = s.ioLog := rfl
@[simp] theorem setCp0_devSeed (s : State) (r : RegNum) (v : Word) : (s.setCp0 r v).devSeed = s.devSeed := rfl
@[simp] theorem setCp0_traceInstr (s : State) (r : RegNum) (v : Word) : (s.setCp0 r v).traceInstr = s.traceInstr := rfl
@[simp] theorem setCp0_traceMem (s : State) (r : RegNum) (v : Word) : (s.setCp0 r v).traceMem = s.traceMem := rfl
@[simp] theorem setCp0_mem (s : State) (r : RegNum) (v : Word) : (s.setCp0 r v).mem = s.mem := rfl

/-! ### setHiLo -/

@[simp] theorem setHiLo_cfg (s : State) (h l : Word) : (s.setHiLo h l).cfg = s.cfg := rfl
@[simp] theorem setHiLo_x (s : State) (h l : Word) : (s.setHiLo h l).x = s.x := rfl
@[simp] theorem setHiLo_pc (s : State) (h l : Word) : (s.setHiLo h l).pc = s.pc := rfl
@[simp] theorem setHiLo_hi (s : State) (h l : Word) : (s.setHiLo h l).hi = h := rfl
@[simp] theorem setHiLo_lo (s : State) (h l : Word) : (s.setHiLo h l).lo = l := rfl
@[simp] theorem setHiLo_cp0 (s : State) (h l : Word) : (s.setHiLo h l).cp0 = s.cp0 := rfl
@[simp] theorem setHiLo_brArmed (s : State) (h l : Word) : (s.setHiLo h l).brArmed = s.brArmed := rfl
@[simp] theorem setHiLo_brTarget (s : State) (h l : Word) : (s.setHiLo h l).brTarget = s.brTarget := rfl
@[simp] theorem setHiLo_consumed (s : State) (h l : Word) : (s.setHiLo h l).consumed = s.consumed := rfl
@[simp] theorem setHiLo_irqLine (s : State) (h l : Word) : (s.setHiLo h l).irqLine = s.irqLine := rfl
@[simp] theorem setHiLo_irqPending (s : State) (h l : Word) : (s.setHiLo h l).irqPending = s.irqPending := rfl
@[simp] theorem setHiLo_cycles (s : State) (h l : Word) : (s.setHiLo h l).cycles = s.cycles := rfl
@[simp] theorem setHiLo_run (s : State) (h l : Word) : (s.setHiLo h l).run = s.run := rfl
@[simp] theorem setHiLo_diag (s : State) (h l : Word) : (s.setHiLo h l).diag = s.diag := rfl
@[simp] theorem setHiLo_ioLog (s : State) (h l : Word) : (s.setHiLo h l).ioLog = s.ioLog := rfl
@[simp] theorem setHiLo_devSeed (s : State) (h l : Word) : (s.setHiLo h l).devSeed = s.devSeed := rfl
@[simp] theorem setHiLo_traceInstr (s : State) (h l : Word) : (s.setHiLo h l).traceInstr = s.traceInstr := rfl
@[simp] theorem setHiLo_traceMem (s : State) (h l : Word) : (s.setHiLo h l).traceMem = s.traceMem := rfl
@[simp] theorem setHiLo_mem (s : State) (h l : Word) : (s.setHiLo h l).mem = s.mem := rfl

/-! ### setHi -/

@[simp] theorem setHi_cfg (s : State) (v : Word) : (s.setHi v).cfg = s.cfg := rfl
@[simp] theorem setHi_x (s : State) (v : Word) : (s.setHi v).x = s.x := rfl
@[simp] theorem setHi_pc (s : State) (v : Word) : (s.setHi v).pc = s.pc := rfl
@[simp] theorem setHi_hi (s : State) (v : Word) : (s.setHi v).hi = v := rfl
@[simp] theorem setHi_lo (s : State) (v : Word) : (s.setHi v).lo = s.lo := rfl
@[simp] theorem setHi_cp0 (s : State) (v : Word) : (s.setHi v).cp0 = s.cp0 := rfl
@[simp] theorem setHi_brArmed (s : State) (v : Word) : (s.setHi v).brArmed = s.brArmed := rfl
@[simp] theorem setHi_brTarget (s : State) (v : Word) : (s.setHi v).brTarget = s.brTarget := rfl
@[simp] theorem setHi_consumed (s : State) (v : Word) : (s.setHi v).consumed = s.consumed := rfl
@[simp] theorem setHi_irqLine (s : State) (v : Word) : (s.setHi v).irqLine = s.irqLine := rfl
@[simp] theorem setHi_irqPending (s : State) (v : Word) : (s.setHi v).irqPending = s.irqPending := rfl
@[simp] theorem setHi_cycles (s : State) (v : Word) : (s.setHi v).cycles = s.cycles := rfl
@[simp] theorem setHi_run (s : State) (v : Word) : (s.setHi v).run = s.run := rfl
@[simp] theorem setHi_diag (s : State) (v : Word) : (s.setHi v).diag = s.diag := rfl
@[simp] theorem setHi_ioLog (s : State) (v : Word) : (s.setHi v).ioLog = s.ioLog := rfl
@[simp] theorem setHi_devSeed (s : State) (v : Word) : (s.setHi v).devSeed = s.devSeed := rfl
@[simp] theorem setHi_traceInstr (s : State) (v : Word) : (s.setHi v).traceInstr = s.traceInstr := rfl
@[simp] theorem setHi_traceMem (s : State) (v : Word) : (s.setHi v).traceMem = s.traceMem := rfl
@[simp] theorem setHi_mem (s : State) (v : Word) : (s.setHi v).mem = s.mem := rfl

/-! ### setLo -/

@[simp] theorem setLo_cfg (s : State) (v : Word) : (s.setLo v).cfg = s.cfg := rfl
@[simp] theorem setLo_x (s : State) (v : Word) : (s.setLo v).x = s.x := rfl
@[simp] theorem setLo_pc (s : State) (v : Word) : (s.setLo v).pc = s.pc := rfl
@[simp] theorem setLo_hi (s : State) (v : Word) : (s.setLo v).hi = s.hi := rfl
@[simp] theorem setLo_lo (s : State) (v : Word) : (s.setLo v).lo = v := rfl
@[simp] theorem setLo_cp0 (s : State) (v : Word) : (s.setLo v).cp0 = s.cp0 := rfl
@[simp] theorem setLo_brArmed (s : State) (v : Word) : (s.setLo v).brArmed = s.brArmed := rfl
@[simp] theorem setLo_brTarget (s : State) (v : Word) : (s.setLo v).brTarget = s.brTarget := rfl
@[simp] theorem setLo_consumed (s : State) (v : Word) : (s.setLo v).consumed = s.consumed := rfl
@[simp] theorem setLo_irqLine (s : State) (v : Word) : (s.setLo v).irqLine = s.irqLine := rfl
@[simp] theorem setLo_irqPending (s : State) (v : Word) : (s.setLo v).irqPending = s.irqPending := rfl
@[simp] theorem setLo_cycles (s : State) (v : Word) : (s.setLo v).cycles = s.cycles := rfl
@[simp] theorem setLo_run (s : State) (v : Word) : (s.setLo v).run = s.run := rfl
@[simp] theorem setLo_diag (s : State) (v : Word) : (s.setLo v).diag = s.diag := rfl
@[simp] theorem setLo_ioLog (s : State) (v : Word) : (s.setLo v).ioLog = s.ioLog := rfl
@[simp] theorem setLo_devSeed (s : State) (v : Word) : (s.setLo v).devSeed = s.devSeed := rfl
@[simp] theorem setLo_traceInstr (s : State) (v : Word) : (s.setLo v).traceInstr = s.traceInstr := rfl
@[simp] theorem setLo_traceMem (s : State) (v : Word) : (s.setLo v).traceMem = s.traceMem := rfl
@[simp] theorem setLo_mem (s : State) (v : Word) : (s.setLo v).mem = s.mem := rfl

/-! ### armBranch -/

@[simp] theorem armBranch_cfg (s : State) (t : Word) : (s.armBranch t).cfg = s.cfg := rfl
@[simp] theorem armBranch_x (s : State) (t : Word) : (s.armBranch t).x = s.x := rfl
@[simp] theorem armBranch_pc (s : State) (t : Word) : (s.armBranch t).pc = s.pc := rfl
@[simp] theorem armBranch_hi (s : State) (t : Word) : (s.armBranch t).hi = s.hi := rfl
@[simp] theorem armBranch_lo (s : State) (t : Word) : (s.armBranch t).lo = s.lo := rfl
@[simp] theorem armBranch_cp0 (s : State) (t : Word) : (s.armBranch t).cp0 = s.cp0 := rfl
@[simp] theorem armBranch_brArmed (s : State) (t : Word) : (s.armBranch t).brArmed = true := rfl
@[simp] theorem armBranch_brTarget (s : State) (t : Word) : (s.armBranch t).brTarget = t := rfl
@[simp] theorem armBranch_consumed (s : State) (t : Word) : (s.armBranch t).consumed = s.consumed := rfl
@[simp] theorem armBranch_irqLine (s : State) (t : Word) : (s.armBranch t).irqLine = s.irqLine := rfl
@[simp] theorem armBranch_irqPending (s : State) (t : Word) : (s.armBranch t).irqPending = s.irqPending := rfl
@[simp] theorem armBranch_cycles (s : State) (t : Word) : (s.armBranch t).cycles = s.cycles := rfl
@[simp] theorem armBranch_run (s : State) (t : Word) : (s.armBranch t).run = s.run := rfl
@[simp] theorem armBranch_diag (s : State) (t : Word) : (s.armBranch t).diag = s.diag := rfl
@[simp] theorem armBranch_ioLog (s : State) (t : Word) : (s.armBranch t).ioLog = s.ioLog := rfl
@[simp] theorem armBranch_devSeed (s : State) (t : Word) : (s.armBranch t).devSeed = s.devSeed := rfl
@[simp] theorem armBranch_traceInstr (s : State) (t : Word) : (s.armBranch t).traceInstr = s.traceInstr := rfl
@[simp] theorem armBranch_traceMem (s : State) (t : Word) : (s.armBranch t).traceMem = s.traceMem := rfl
@[simp] theorem armBranch_mem (s : State) (t : Word) : (s.armBranch t).mem = s.mem := rfl

/-! ### raiseSyscall -/

@[simp] theorem raiseSyscall_cfg (s : State) : (s.raiseSyscall).cfg = s.cfg := rfl
@[simp] theorem raiseSyscall_x (s : State) : (s.raiseSyscall).x = s.x := rfl
@[simp] theorem raiseSyscall_pc (s : State) : (s.raiseSyscall).pc = s.cfg.excVector := rfl
@[simp] theorem raiseSyscall_hi (s : State) : (s.raiseSyscall).hi = s.hi := rfl
@[simp] theorem raiseSyscall_lo (s : State) : (s.raiseSyscall).lo = s.lo := rfl
@[simp] theorem raiseSyscall_cp0 (s : State) : (s.raiseSyscall).cp0 = (s.cp0.put 14#5 (s.pc - 4#32)).put 13#5 0x00000020#32 := rfl
@[simp] theorem raiseSyscall_brArmed (s : State) : (s.raiseSyscall).brArmed = s.brArmed := rfl
@[simp] theorem raiseSyscall_brTarget (s : State) : (s.raiseSyscall).brTarget = s.brTarget := rfl
@[simp] theorem raiseSyscall_consumed (s : State) : (s.raiseSyscall).consumed = none := rfl
@[simp] theorem raiseSyscall_irqLine (s : State) : (s.raiseSyscall).irqLine = s.irqLine := rfl
@[simp] theorem raiseSyscall_irqPending (s : State) : (s.raiseSyscall).irqPending = s.irqPending := rfl
@[simp] theorem raiseSyscall_cycles (s : State) : (s.raiseSyscall).cycles = s.cycles := rfl
@[simp] theorem raiseSyscall_run (s : State) : (s.raiseSyscall).run = s.run := rfl
@[simp] theorem raiseSyscall_diag (s : State) : (s.raiseSyscall).diag = s.diag := rfl
@[simp] theorem raiseSyscall_ioLog (s : State) : (s.raiseSyscall).ioLog = s.ioLog := rfl
@[simp] theorem raiseSyscall_devSeed (s : State) : (s.raiseSyscall).devSeed = s.devSeed := rfl
@[simp] theorem raiseSyscall_traceInstr (s : State) : (s.raiseSyscall).traceInstr = s.traceInstr := rfl
@[simp] theorem raiseSyscall_traceMem (s : State) : (s.raiseSyscall).traceMem = s.traceMem := rfl
@[simp] theorem raiseSyscall_mem (s : State) : (s.raiseSyscall).mem = s.mem := rfl

/-! ### checkpoint -/

@[simp] theorem checkpoint_cfg (s : State) : (s.checkpoint).cfg = s.cfg := rfl
@[simp] theorem checkpoint_x (s : State) : (s.checkpoint).x = s.x := rfl
@[simp] theorem checkpoint_pc (s : State) : (s.checkpoint).pc = s.pc := rfl
@[simp] theorem checkpoint_hi (s : State) : (s.checkpoint).hi = s.hi := rfl
@[simp] theorem checkpoint_lo (s : State) : (s.checkpoint).lo = s.lo := rfl
@[simp] theorem checkpoint_cp0 (s : State) : (s.checkpoint).cp0 = s.cp0 := rfl
@[simp] theorem checkpoint_brArmed (s : State) : (s.checkpoint).brArmed = s.brArmed := rfl
@[simp] theorem checkpoint_brTarget (s : State) : (s.checkpoint).brTarget = s.brTarget := rfl
@[simp] theorem checkpoint_consumed (s : State) : (s.checkpoint).consumed = s.consumed := rfl
@[simp] theorem checkpoint_irqLine (s : State) : (s.checkpoint).irqLine = s.irqLine := rfl
@[simp] theorem checkpoint_irqPending (s : State) : (s.checkpoint).irqPending = s.irqLine := rfl
@[simp] theorem checkpoint_cycles (s : State) : (s.checkpoint).cycles = s.cycles := rfl
@[simp] theorem checkpoint_run (s : State) : (s.checkpoint).run = s.run := rfl
@[simp] theorem checkpoint_diag (s : State) : (s.checkpoint).diag = s.diag := rfl
@[simp] theorem checkpoint_ioLog (s : State) : (s.checkpoint).ioLog = s.ioLog := rfl
@[simp] theorem checkpoint_devSeed (s : State) : (s.checkpoint).devSeed = s.devSeed := rfl
@[simp] theorem checkpoint_traceInstr (s : State) : (s.checkpoint).traceInstr = s.traceInstr := rfl
@[simp] theorem checkpoint_traceMem (s : State) : (s.checkpoint).traceMem = s.traceMem := rfl
@[simp] theorem checkpoint_mem (s : State) : (s.checkpoint).mem = s.mem := rfl

/-! ### fatalStop -/

@[simp] theorem fatalStop_cfg (s : State) (w : Word) : (State.fatalStop w s).cfg = s.cfg := rfl
@[simp] theorem fatalStop_x (s : State) (w : Word) : (State.fatalStop w s).x = s.x := rfl
@[simp] theorem fatalStop_pc (s : State) (w : Word) : (State.fatalStop w s).pc = s.pc := rfl
@[simp] theorem fatalStop_hi (s : State) (w : Word) : (State.fatalStop w s).hi = s.hi := rfl
@[simp] theorem fatalStop_lo (s : State) (w : Word) : (State.fatalStop w s).lo = s.lo := rfl
@[simp] theorem fatalStop_cp0 (s : State) (w : Word) : (State.fatalStop w s).cp0 = s.cp0 := rfl
@[simp] theorem fatalStop_brArmed (s : State) (w : Word) : (State.fatalStop w s).brArmed = s.brArmed := rfl
@[simp] theorem fatalStop_brTarget (s : State) (w : Word) : (State.fatalStop w s).brTarget = s.brTarget := rfl
@[simp] theorem fatalStop_consumed (s : State) (w : Word) : (State.fatalStop w s).consumed = s.consumed := rfl
@[simp] theorem fatalStop_irqLine (s : State) (w : Word) : (State.fatalStop w s).irqLine = s.irqLine := rfl
@[simp] theorem fatalStop_irqPending (s : State) (w : Word) : (State.fatalStop w s).irqPending = s.irqPending := rfl
@[simp] theorem fatalStop_cycles (s : State) (w : Word) : (State.fatalStop w s).cycles = s.cycles := rfl
@[simp] theorem fatalStop_run (s : State) (w : Word) : (State.fatalStop w s).run = .fatal s.pc w := rfl
@[simp] theorem fatalStop_diag (s : State) (w : Word) : (State.fatalStop w s).diag = s.diag := rfl
@[simp] theorem fatalStop_ioLog (s : State) (w : Word) : (State.fatalStop w s).ioLog = s.ioLog := rfl
@[simp] theorem fatalStop_devSeed (s : State) (w : Word) : (State.fatalStop w s).devSeed = s.devSeed := rfl
@[simp] theorem fatalStop_traceInstr (s : State) (w : Word) : (State.fatalStop w s).traceInstr = s.traceInstr := rfl
@[simp] theorem fatalStop_traceMem (s : State) (w : Word) : (State.fatalStop w s).traceMem = s.traceMem := rfl
@[simp] theorem fatalStop_mem (s : State) (w : Word) : (State.fatalStop w s).mem = s.mem := rfl

/-! ### beginExecute -/

@[simp] theorem beginExecute_cfg (s : State) : (s.beginExecute).cfg = s.cfg := rfl
@[simp] theorem beginExecute_x (s : State) : (s.beginExecute).x = s.x := rfl
@[simp] theorem beginExecute_pc (s : State) : (s.beginExecute).pc = s.pc + 4#32 := rfl
@[simp] theorem beginExecute_hi (s : State) : (s.beginExecute).hi = s.hi := rfl
@[simp] theorem beginExecute_lo (s : State) : (s.beginExecute).lo = s.lo := rfl
@[simp] theorem beginExecute_cp0 (s : State) : (s.beginExecute).cp0 = s.cp0 := rfl
@[simp] theorem beginExecute_brArmed (s : State) : (s.beginExecute).brArmed = false := rfl
@[simp] theorem beginExecute_brTarget (s : State) : (s.beginExecute).brTarget = s.brTarget := rfl
@[simp] theorem beginExecute_consumed (s : State) : (s.beginExecute).consumed = if s.brArmed then some s.brTarget else none := rfl
@[simp] theorem beginExecute_irqLine (s : State) : (s.beginExecute).irqLine = s.irqLine := rfl
@[simp] theorem beginExecute_irqPending (s : State) : (s.beginExecute).irqPending = s.irqPending := rfl
@[simp] theorem beginExecute_cycles (s : State) : (s.beginExecute).cycles = s.cycles := rfl
@[simp] theorem beginExecute_run (s : State) : (s.beginExecute).run = s.run := rfl
@[simp] theorem beginExecute_diag (s : State) : (s.beginExecute).diag = s.diag := rfl
@[simp] theorem beginExecute_ioLog (s : State) : (s.beginExecute).ioLog = s.ioLog := rfl
@[simp] theorem beginExecute_devSeed (s : State) : (s.beginExecute).devSeed = s.devSeed := rfl
@[simp] theorem beginExecute_traceInstr (s : State) : (s.beginExecute).traceInstr = s.traceInstr := rfl
@[simp] theorem beginExecute_traceMem (s : State) : (s.beginExecute).traceMem = s.traceMem := rfl
@[simp] theorem beginExecute_mem (s : State) : (s.beginExecute).mem = s.mem := rfl

/-! ### endCycle -/

@[simp] theorem endCycle_cfg (s : State) : (s.endCycle).cfg = s.cfg := rfl
@[simp] theorem endCycle_x (s : State) : (s.endCycle).x = s.x := rfl
@[simp] theorem endCycle_hi (s : State) : (s.endCycle).hi = s.hi := rfl
@[simp] theorem endCycle_lo (s : State) : (s.endCycle).lo = s.lo := rfl
@[simp] theorem endCycle_cp0 (s : State) : (s.endCycle).cp0 = s.cp0 := rfl
@[simp] theorem endCycle_brArmed (s : State) : (s.endCycle).brArmed = s.brArmed := rfl
@[simp] theorem endCycle_brTarget (s : State) : (s.endCycle).brTarget = s.brTarget := rfl
@[simp] theorem endCycle_consumed (s : State) : (s.endCycle).consumed = none := rfl
@[simp] theorem endCycle_irqLine (s : State) : (s.endCycle).irqLine = s.irqLine := rfl
@[simp] theorem endCycle_irqPending (s : State) : (s.endCycle).irqPending = s.irqPending := rfl
@[simp] theorem endCycle_cycles (s : State) : (s.endCycle).cycles = s.cycles + 1#64 := rfl
@[simp] theorem endCycle_run (s : State) : (s.endCycle).run = s.run := rfl
@[simp] theorem endCycle_diag (s : State) : (s.endCycle).diag = s.diag := rfl
@[simp] theorem endCycle_ioLog (s : State) : (s.endCycle).ioLog = s.ioLog := rfl
@[simp] theorem endCycle_devSeed (s : State) : (s.endCycle).devSeed = s.devSeed := rfl
@[simp] theorem endCycle_traceInstr (s : State) : (s.endCycle).traceInstr = s.traceInstr := rfl
@[simp] theorem endCycle_traceMem (s : State) : (s.endCycle).traceMem = s.traceMem := rfl
@[simp] theorem endCycle_mem (s : State) : (s.endCycle).mem = s.mem := rfl

/-- R161 steps (8) and (9), when a branch is applied and when none is. -/
theorem endCycle_pc (s : State) :
    s.endCycle.pc = match s.consumed with
      | some t => wordAligned t
      | none => s.pc := rfl

@[simp] theorem endCycle_pc_some (s : State) (t : Word) (h : s.consumed = some t) : s.endCycle.pc = wordAligned t := by
  simp [endCycle_pc, h]

@[simp] theorem endCycle_pc_none (s : State) (h : s.consumed = none) : s.endCycle.pc = s.pc := by
  simp [endCycle_pc, h]

/-! ### branchIf -/

@[simp] theorem branchIf_true (s : State) (t : Word) : s.branchIf true t = s.armBranch t := rfl
@[simp] theorem branchIf_false (s : State) (t : Word) : s.branchIf false t = s := rfl

@[simp] theorem branchIf_cfg (s : State) (c : Bool) (t : Word) : (s.branchIf c t).cfg = s.cfg := by cases c <;> rfl
@[simp] theorem branchIf_x (s : State) (c : Bool) (t : Word) : (s.branchIf c t).x = s.x := by cases c <;> rfl
@[simp] theorem branchIf_pc (s : State) (c : Bool) (t : Word) : (s.branchIf c t).pc = s.pc := by cases c <;> rfl
@[simp] theorem branchIf_hi (s : State) (c : Bool) (t : Word) : (s.branchIf c t).hi = s.hi := by cases c <;> rfl
@[simp] theorem branchIf_lo (s : State) (c : Bool) (t : Word) : (s.branchIf c t).lo = s.lo := by cases c <;> rfl
@[simp] theorem branchIf_cp0 (s : State) (c : Bool) (t : Word) : (s.branchIf c t).cp0 = s.cp0 := by cases c <;> rfl
@[simp] theorem branchIf_consumed (s : State) (c : Bool) (t : Word) : (s.branchIf c t).consumed = s.consumed := by cases c <;> rfl
@[simp] theorem branchIf_irqLine (s : State) (c : Bool) (t : Word) : (s.branchIf c t).irqLine = s.irqLine := by cases c <;> rfl
@[simp] theorem branchIf_irqPending (s : State) (c : Bool) (t : Word) : (s.branchIf c t).irqPending = s.irqPending := by cases c <;> rfl
@[simp] theorem branchIf_cycles (s : State) (c : Bool) (t : Word) : (s.branchIf c t).cycles = s.cycles := by cases c <;> rfl
@[simp] theorem branchIf_run (s : State) (c : Bool) (t : Word) : (s.branchIf c t).run = s.run := by cases c <;> rfl
@[simp] theorem branchIf_diag (s : State) (c : Bool) (t : Word) : (s.branchIf c t).diag = s.diag := by cases c <;> rfl
@[simp] theorem branchIf_ioLog (s : State) (c : Bool) (t : Word) : (s.branchIf c t).ioLog = s.ioLog := by cases c <;> rfl
@[simp] theorem branchIf_devSeed (s : State) (c : Bool) (t : Word) : (s.branchIf c t).devSeed = s.devSeed := by cases c <;> rfl
@[simp] theorem branchIf_traceInstr (s : State) (c : Bool) (t : Word) : (s.branchIf c t).traceInstr = s.traceInstr := by cases c <;> rfl
@[simp] theorem branchIf_traceMem (s : State) (c : Bool) (t : Word) : (s.branchIf c t).traceMem = s.traceMem := by cases c <;> rfl
@[simp] theorem branchIf_mem (s : State) (c : Bool) (t : Word) : (s.branchIf c t).mem = s.mem := by cases c <;> rfl
@[simp] theorem branchIf_brArmed (s : State) (c : Bool) (t : Word) : (s.branchIf c t).brArmed = (c || s.brArmed) := by
  cases c <;> rfl
@[simp] theorem branchIf_brTarget (s : State) (c : Bool) (t : Word) :
    (s.branchIf c t).brTarget = if c then t else s.brTarget := by
  cases c <;> rfl

/-! ### stop -/

theorem stop_of_running (s : State) (h : s.run = .running) : s.stop = { s with run := .stopped } := by
  simp [stop, h]

theorem stop_of_not_running (s : State) (h : s.run ≠ .running) : s.stop = s := by
  unfold stop
  split
  · contradiction
  · rfl
  · rfl

end Sys2Proof.Machine.State
end

