-- ==== Sys2Proof/Laws/Memory.lean ====
section
/-! SUPPORT. The list of bytes: read after write, and the canonical form that every write keeps (20_memory.md R83). -/

namespace Sys2Proof.Machine.Memory

/-- An address below every listed one reads as an unlisted address does. -/
theorem read_of_wfFrom {m : Memory} {lo a : Nat} (h : wfFrom lo m = true) (ha : a < lo) : read m a = unlistedByte := by
  induction m generalizing lo with
  | nil => rfl
  | cons c m ih =>
    obtain ⟨k, v⟩ := c
    simp only [wfFrom, Bool.and_eq_true, decide_eq_true_eq] at h
    have : a ≠ k := by omega
    simp only [read, if_neg this]
    exact ih h.2 (by omega)

theorem wfFrom_mono {m : Memory} {lo lo' : Nat} (h : wfFrom lo m = true) (hl : lo' ≤ lo) : wfFrom lo' m = true := by
  cases m with
  | nil => rfl
  | cons c m =>
    obtain ⟨k, v⟩ := c
    simp only [wfFrom, Bool.and_eq_true, decide_eq_true_eq] at h ⊢
    exact ⟨⟨⟨by omega, h.1.1.2⟩, h.1.2⟩, h.2⟩

/-- A write at or above `lo`, to an address the core holds, keeps the canonical form from `lo` up. -/
theorem wfFrom_write {m : Memory} {lo a : Nat} (b : Byte) (h : wfFrom lo m = true) (ha : lo ≤ a)
    (hb : (regionOf a).backed = true) : wfFrom lo (write m a b) = true := by
  induction m generalizing lo with
  | nil =>
    by_cases h0 : b = unlistedByte
    · simp [write, h0, wfFrom]
    · simp [write, h0, wfFrom, ha, hb]
  | cons c m ih =>
    obtain ⟨k, v⟩ := c
    have h' := h
    simp only [wfFrom, Bool.and_eq_true, decide_eq_true_eq] at h'
    obtain ⟨⟨⟨hk, hv⟩, hr⟩, hm⟩ := h'
    simp only [write]
    split
    · split
      · exact h
      · rename_i h1 h2
        simp only [wfFrom, Bool.and_eq_true, decide_eq_true_eq, bne_iff_ne, ne_eq]
        exact ⟨⟨⟨ha, h2⟩, hb⟩, ⟨⟨by omega, by simpa using hv⟩, hr⟩, hm⟩
    · split
      · split
        · exact wfFrom_mono hm (by omega)
        · rename_i h1 h2 h3
          subst h2
          simp only [wfFrom, Bool.and_eq_true, decide_eq_true_eq, bne_iff_ne, ne_eq]
          exact ⟨⟨⟨ha, h3⟩, hb⟩, hm⟩
      · simp only [wfFrom, Bool.and_eq_true, decide_eq_true_eq]
        exact ⟨⟨⟨hk, hv⟩, hr⟩, ih hm (by omega)⟩

/-- Every write to an address the core holds keeps the canonical form. -/
theorem wf_write {m : Memory} {a : Nat} (b : Byte) (h : wf m = true) (hb : (regionOf a).backed = true) :
    wf (write m a b) = true := wfFrom_write b h (Nat.zero_le a) hb

/-- Read after write, in a list in canonical form. -/
theorem read_write_of_wfFrom {m : Memory} {lo : Nat} (a a' : Nat) (b : Byte) (h : wfFrom lo m = true) :
    read (write m a b) a' = if a' = a then b else read m a' := by
  induction m generalizing lo with
  | nil =>
    by_cases h0 : b = unlistedByte <;> by_cases e : a' = a <;> simp [write, read, h0, e]
  | cons c m ih =>
    obtain ⟨k, v⟩ := c
    have h' := h
    simp only [wfFrom, Bool.and_eq_true, decide_eq_true_eq] at h'
    have hm := h'.2
    simp only [write]
    split
    · rename_i h1
      split
      · rename_i h2
        by_cases e : a' = a
        · subst e
          rw [if_pos rfl, h2]
          have : a' ≠ k := by omega
          simp only [read, if_neg this]
          exact read_of_wfFrom hm (by omega)
        · rw [if_neg e]
      · simp [read]
    · split
      · rename_i h1 h2
        subst h2
        split
        · rename_i h3
          by_cases e : a' = a
          · subst e
            rw [if_pos rfl, h3]
            exact read_of_wfFrom hm (by omega)
          · simp [read, e]
        · by_cases e : a' = a <;> simp [read, e]
      · rename_i h1 h2
        simp only [read, ih hm]
        by_cases e : a' = k
        · subst e
          have : a' ≠ a := by omega
          simp [this]
        · simp [e]

/-- R83: a read returns the last byte written there, and a write leaves every other address alone. -/
theorem read_write {m : Memory} (a a' : Nat) (b : Byte) (h : wf m = true) :
    read (write m a b) a' = if a' = a then b else read m a' := read_write_of_wfFrom a a' b h

/-- A write leaves every other address alone, whatever the list. -/
theorem read_write_ne (m : Memory) {a a' : Nat} (b : Byte) (h : a' ≠ a) : read (write m a b) a' = read m a' := by
  induction m with
  | nil => by_cases h0 : b = unlistedByte <;> simp [write, read, h0, h]
  | cons c m ih =>
    obtain ⟨k, v⟩ := c
    simp only [write]
    split
    · split
      · rfl
      · simp [read, h]
    · split
      · rename_i h1 h2
        subst h2
        split <;> simp [read, h]
      · simp only [read, ih]

/-- A list in canonical form lists no address below `lo`. -/
theorem ext_of_wfFrom {m m' : Memory} {lo lo' : Nat} (h : wfFrom lo m = true) (h' : wfFrom lo' m' = true)
    (e : ∀ a, read m a = read m' a) : m = m' := by
  induction m generalizing lo lo' m' with
  | nil =>
    cases m' with
    | nil => rfl
    | cons c m' =>
      obtain ⟨k, v⟩ := c
      simp only [wfFrom, Bool.and_eq_true, bne_iff_ne] at h'
      have := e k
      simp only [read, if_true] at this
      exact absurd this.symm h'.1.1.2
  | cons c m ih =>
    obtain ⟨k, v⟩ := c
    simp only [wfFrom, Bool.and_eq_true, decide_eq_true_eq, bne_iff_ne] at h
    cases m' with
    | nil =>
      have := e k
      simp only [read, if_true] at this
      exact absurd this h.1.1.2
    | cons c' m' =>
      obtain ⟨k', v'⟩ := c'
      simp only [wfFrom, Bool.and_eq_true, decide_eq_true_eq, bne_iff_ne] at h'
      have hk : k = k' := by
        have e1 := e k
        have e2 := e k'
        simp only [read, if_true] at e1 e2
        by_contra hne
        rcases Nat.lt_or_gt_of_ne hne with hlt | hlt
        · rw [if_neg hne, read_of_wfFrom h'.2 (by omega)] at e1
          exact h.1.1.2 e1
        · rw [if_neg (Ne.symm hne), read_of_wfFrom h.2 (by omega)] at e2
          exact h'.1.1.2 e2.symm
      subst hk
      have hv : v = v' := by simpa [read] using e k
      subst hv
      congr 1
      refine ih h.2 h'.2 (fun a => ?_)
      by_cases ha : a = k
      · subst ha
        rw [read_of_wfFrom h.2 (by omega), read_of_wfFrom h'.2 (by omega)]
      · simpa [read, ha] using e a

/-- Equal memories are equal lists. -/
theorem ext_of_wf {m m' : Memory} (h : wf m = true) (h' : wf m' = true) (e : ∀ a, read m a = read m' a) : m = m' :=
  ext_of_wfFrom h h' e

/-! ### Loading an image -/

/-- A load leaves every address outside the image alone. -/
theorem read_load_outside (m : Memory) {a a' : Nat} (bs : List Byte) (h : a' < a ∨ a + bs.length ≤ a') :
    read (load m a bs) a' = read m a' := by
  induction bs generalizing m a with
  | nil => rfl
  | cons b bs ih =>
    simp only [List.length_cons] at h
    rw [load, ih _ (by omega), read_write_ne _ _ (by omega)]

/-- A load into addresses the core holds keeps the canonical form. -/
theorem wf_load {m : Memory} {a : Nat} (bs : List Byte) (h : wf m = true)
    (hb : ∀ k < bs.length, (regionOf (a + k)).backed = true) : wf (load m a bs) = true := by
  induction bs generalizing m a with
  | nil => exact h
  | cons b bs ih =>
    refine ih (wf_write b h (by simpa using hb 0 (by simp))) (fun k hk => ?_)
    have := hb (k + 1) (by simpa using hk)
    rwa [show a + 1 + k = a + (k + 1) by omega]

/-- A load places byte `k` of the image at the image's base plus `k`. -/
theorem read_load_inside {m : Memory} {a : Nat} (bs : List Byte) (h : wf m = true)
    (hb : ∀ k < bs.length, (regionOf (a + k)).backed = true) (k : Nat) (hk : k < bs.length) :
    read (load m a bs) (a + k) = bs[k] := by
  induction bs generalizing m a k with
  | nil => simp at hk
  | cons b bs ih =>
    have hw := wf_write b h (by simpa using hb 0 (by simp))
    cases k with
    | zero =>
      rw [load, read_load_outside _ _ (by omega)]
      simp [read_write _ _ _ h]
    | succ k =>
      have := ih hw (fun j hj => by
        have := hb (j + 1) (by simpa using hj)
        rwa [show a + 1 + j = a + (j + 1) by omega]) k (by simpa using hk)
      rw [show a + (k + 1) = a + 1 + k by omega, load, this]
      simp

/-- A load of bytes that unlisted addresses read as leaves an empty list empty. -/
theorem load_unlisted (a n : Nat) : load [] a (List.replicate n unlistedByte) = [] := by
  induction n generalizing a with
  | zero => rfl
  | succ n ih => simp only [List.replicate_succ, load, write, if_true]; exact ih (a + 1)

end Sys2Proof.Machine.Memory
end

