-- ==== Sys2Proof/Laws/Registers.lean ====
section
/-! SUPPORT. The register banks: read after write, register 0 (10_state.md R30, R31, R39). -/

namespace Sys2Proof.Machine

theorem RegFile.get_put (v : RegFile) (r r' : RegNum) (w : Word) : (v.put r w).get r' = if r' = r then w else v.get r' := by
  unfold RegFile.get RegFile.put
  rw [Vector.getElem_set]
  by_cases h : r' = r
  · subst h; simp
  · rw [if_neg h, if_neg (fun e => h (BitVec.eq_of_toNat_eq e.symm))]

@[simp] theorem RegFile.get_put_same (v : RegFile) (r : RegNum) (w : Word) : (v.put r w).get r = w := by
  simp [RegFile.get_put]

theorem RegFile.get_put_ne (v : RegFile) (r r' : RegNum) (w : Word) (h : r' ≠ r) : (v.put r w).get r' = v.get r' := by
  simp [RegFile.get_put, h]

/-- Two banks with the same entries are the same. -/
theorem RegFile.ext_get (v w : RegFile) (h : ∀ r, v.get r = w.get r) : v = w := by
  apply Vector.ext
  intro i hi
  have := h (BitVec.ofNat 5 i)
  simpa [RegFile.get, BitVec.toNat_ofNat, Nat.mod_eq_of_lt hi] using this

@[simp] theorem RegFile.get_zeros (r : RegNum) : RegFile.get (Vector.replicate 32 0#32) r = 0#32 := by
  simp [RegFile.get]

namespace State

/-- R30. -/
@[simp] theorem reg_zero (s : State) : s.reg 0#5 = 0#32 := rfl

/-- R31. -/
@[simp] theorem setReg_zero (s : State) (v : Word) : s.setReg 0#5 v = s := rfl

theorem reg_of_x_eq {s t : State} (h : t.x = s.x) (r : RegNum) : t.reg r = s.reg r := by simp [reg, h]

theorem reg_setReg (s : State) (r r' : RegNum) (v : Word) :
    (s.setReg r v).reg r' = if r' = r ∧ r' ≠ 0#5 then v else s.reg r' := by
  by_cases h0 : r' = 0#5
  · simp [reg, h0]
  · by_cases h : r = 0#5
    · subst h; simp [h0]
    · by_cases hr : r' = r <;> simp [reg, setReg, h0, h, hr, RegFile.get_put]

/-- The unused entry 0 of the register file is never written. -/
theorem setReg_entry_zero (s : State) (r : RegNum) (v : Word) : (s.setReg r v).x.get 0#5 = s.x.get 0#5 := by
  by_cases h : r = 0#5
  · simp [setReg, h]
  · simp [setReg, h, RegFile.get_put_ne _ _ _ _ (Ne.symm h)]

theorem cp0Reg_setCp0 (s : State) (r r' : RegNum) (v : Word) :
    (s.setCp0 r v).cp0Reg r' = if r' = r then v else s.cp0Reg r' := RegFile.get_put ..

theorem cp0Reg_of_cp0_eq {s t : State} (h : t.cp0 = s.cp0) (r : RegNum) : t.cp0Reg r = s.cp0Reg r := by simp [cp0Reg, h]

theorem isolated_of_cp0_eq {s t : State} (h : t.cp0 = s.cp0) : t.isolated = s.isolated := by
  simp [isolated, cp0Reg_of_cp0_eq h]

/-- R371: what trap entry leaves in the CP0 bank. -/
theorem cp0Reg_raiseSyscall (s : State) (r : RegNum) :
    s.raiseSyscall.cp0Reg r = if r = 13#5 then 0x00000020#32 else if r = 14#5 then s.pc - 4#32 else s.cp0Reg r := by
  simp [cp0Reg, RegFile.get_put]

end State

end Sys2Proof.Machine
end

