-- ==== Sys2Proof/Laws/Bus.lean ====
section
/-! SUPPORT. What an access to the bus can do (20_memory.md R84-R96): one lemma per operation says all of it. -/

namespace Sys2Proof.Machine

/-! ### The address map -/

/-- A region whose bytes the core holds lies below physical 0x20000000 (R80). -/
theorem lt_of_backed {q : Nat} (h : (regionOf q).backed = true) : q < 0x20000000 := by
  unfold regionOf at h
  repeat' split at h
  all_goals first
    | omega
    | simp [Region.backed] at h

theorem State.Writable.backed {s : State} {q : Word} (h : s.Writable q) : (regionOf q.toNat).backed = true := by
  rcases h with h | h | ⟨h, -⟩ <;> rw [h] <;> rfl

theorem State.Writable.not_rom {s : State} {q : Word} (h : s.Writable q) : regionOf q.toNat ≠ .rom := by
  rcases h with h | h | ⟨h, -⟩ <;> rw [h] <;> decide

theorem State.Writable.congr {s t : State} {q : Word} (hc : t.cp0 = s.cp0) (h : s.Writable q) : t.Writable q := by
  unfold State.Writable at *
  rwa [State.isolated_of_cp0_eq hc]

/-! ### Reads -/

/-- A read only adds to the diagnostic events and to the record of device calls. -/
def ReadEffect (s t : State) : Prop := ∃ d l, t = { s with diag := s.diag ++ d, ioLog := s.ioLog ++ l }

theorem ReadEffect.refl (s : State) : ReadEffect s s := ⟨[], [], by simp⟩

theorem ReadEffect.trans {s t u : State} (h : ReadEffect s t) (h' : ReadEffect t u) : ReadEffect s u := by
  obtain ⟨d, l, rfl⟩ := h
  obtain ⟨d', l', rfl⟩ := h'
  exact ⟨d ++ d', l ++ l', by simp⟩

theorem readByte_effect (n : Nat) (q : Word) (s : State) : ReadEffect s (readByte n q s).2 := by
  unfold readByte
  split
  · exact .refl s
  · exact .refl s
  · exact .refl s
  · exact .refl s
  · exact ⟨[], [_], by simp; rfl⟩
  · exact ⟨[_], [], by simp; rfl⟩

theorem readBytes_effect (n k : Nat) (q : Word) (s : State) : ReadEffect s (readBytes n k q s).2 := by
  induction k generalizing q s with
  | zero => exact .refl s
  | succ k ih => exact (readByte_effect n q s).trans (ih _ _)

theorem memRead_effect (a : Word) (n : Nat) (s : State) : ReadEffect s (memRead a n s).2 := by
  unfold memRead
  split
  · exact .refl s
  · exact readBytes_effect ..

theorem loadBytesInto_effect (c : Nat) (a : Word) (k : Nat) (v : Word) (s : State) :
    ReadEffect s (loadBytesInto c a k v s).2 := by
  induction c generalizing a k v s with
  | zero => exact .refl s
  | succ c ih => exact (memRead_effect a 1 s).trans (ih ..)

/-! ### Writes -/

/-- What writes whose bytes lie in `P` can do: they change memory only at bytes in `P`, never in ROM (R86), never in RAM while
cache-isolate is set (R95), keep its canonical form, and add to the two event sequences. -/
def WriteEffect (P : Nat → Prop) (s t : State) : Prop :=
  ∃ m d l, t = { s with mem := m, diag := s.diag ++ d, ioLog := s.ioLog ++ l }
    ∧ (∀ a, ¬ P a → m.read a = s.mem.read a)
    ∧ (∀ a, regionOf a = .rom → m.read a = s.mem.read a)
    ∧ (s.isolated = true → ∀ a, regionOf a = .ram → m.read a = s.mem.read a)
    ∧ (s.mem.wf = true → m.wf = true)

theorem WriteEffect.refl (P : Nat → Prop) (s : State) : WriteEffect P s s :=
  ⟨s.mem, [], [], by simp, by simp, by simp, by simp, id⟩

theorem WriteEffect.mono {P Q : Nat → Prop} {s t : State} (h : WriteEffect P s t) (hPQ : ∀ a, P a → Q a) : WriteEffect Q s t := by
  obtain ⟨m, d, l, ht, h1, h2⟩ := h
  exact ⟨m, d, l, ht, fun a ha => h1 a (fun hp => ha (hPQ a hp)), h2⟩

theorem WriteEffect.trans {P : Nat → Prop} {s t u : State} (h : WriteEffect P s t) (h' : WriteEffect P t u) :
    WriteEffect P s u := by
  obtain ⟨m, d, l, rfl, h1, h2, h3, h4⟩ := h
  obtain ⟨m', d', l', rfl, g1, g2, g3, g4⟩ := h'
  refine ⟨m', d ++ d', l ++ l', by simp, fun a ha => (g1 a ha).trans (h1 a ha), fun a ha => (g2 a ha).trans (h2 a ha),
    fun hi a ha => (g3 ?_ a ha).trans (h3 hi a ha), fun hw => g4 (h4 hw)⟩
  rw [← hi]; rfl

theorem writeByte_effect (n : Nat) (q : Word) (b : Byte) (s : State) :
    WriteEffect (· = q.toNat) s (writeByte n q b s) := by
  unfold writeByte
  split
  · rename_i hr
    split
    · exact .refl _ s
    · rename_i hi
      refine ⟨s.mem.write q.toNat b, [], [], by simp, fun a ha => Memory.read_write_ne _ _ ha, fun a ha => ?_, ?_, ?_⟩
      · exact Memory.read_write_ne _ _ (by rintro rfl; rw [hr] at ha; exact absurd ha (by decide))
      · intro h; exact absurd h hi
      · exact fun hw => Memory.wf_write b hw (by rw [hr]; rfl)
  · rename_i hr
    refine ⟨s.mem.write q.toNat b, [], [], by simp, fun a ha => Memory.read_write_ne _ _ ha, fun a ha => ?_, fun _ a ha => ?_,
      fun hw => Memory.wf_write b hw (by rw [hr]; rfl)⟩ <;>
    exact Memory.read_write_ne _ _ (by rintro rfl; rw [hr] at ha; exact absurd ha (by decide))
  · rename_i hr
    refine ⟨s.mem.write q.toNat b, [], [], by simp, fun a ha => Memory.read_write_ne _ _ ha, fun a ha => ?_, fun _ a ha => ?_,
      fun hw => Memory.wf_write b hw (by rw [hr]; rfl)⟩ <;>
    exact Memory.read_write_ne _ _ (by rintro rfl; rw [hr] at ha; exact absurd ha (by decide))
  · exact ⟨s.mem, [], [_], by simp; rfl, by simp, by simp, by simp, id⟩
  · exact ⟨s.mem, [_], [], by simp; rfl, by simp, by simp, by simp, id⟩
  · exact ⟨s.mem, [_], [], by simp; rfl, by simp, by simp, by simp, id⟩

/-- The bytes of a write of `k` bytes at `q`, as addresses. -/
def Span (q : Word) (k : Nat) (a : Nat) : Prop := ∃ j < k, a = (q + BitVec.ofNat 32 j).toNat

theorem span_zero {q : Word} {k : Nat} (hk : 0 < k) : Span q k q.toNat := ⟨0, hk, by simp⟩

theorem span_succ {q : Word} {k a : Nat} (h : Span (q + 1#32) k a) : Span q (k + 1) a := by
  obtain ⟨j, hj, rfl⟩ := h
  refine ⟨j + 1, by omega, ?_⟩
  congr 1
  rw [BitVec.add_assoc, show (1#32 + BitVec.ofNat 32 j) = BitVec.ofNat 32 (j + 1) by rw [Nat.add_comm]; exact (BitVec.ofNat_add ..).symm]

/-- Addresses outside the `n` bytes at `q` are in no span of them. -/
theorem not_span_of_not_inSpan {q a : Word} {n : Nat} (h : ¬ InSpan q n a) : ¬ Span q n a.toNat := by
  rintro ⟨j, hj, e⟩
  have e' : a = q + BitVec.ofNat 32 j := BitVec.eq_of_toNat_eq e
  apply h
  subst e'
  unfold InSpan
  have : q + BitVec.ofNat 32 j - q = BitVec.ofNat 32 j := by
    rw [BitVec.add_comm, BitVec.add_sub_cancel]
  rw [this, BitVec.toNat_ofNat]
  exact lt_of_le_of_lt (Nat.mod_le _ _) hj

theorem writeBytes_effect (n k : Nat) (q v : Word) (s : State) : WriteEffect (Span q k) s (writeBytes n k q v s) := by
  induction k generalizing q v s with
  | zero => exact .refl _ s
  | succ k ih =>
    refine ((writeByte_effect n q _ s).mono ?_).trans ((ih ..).mono fun a ha => span_succ ha)
    rintro a rfl
    exact span_zero (by omega)

/-- A bus write at raw address `a` touches only the bytes of its translation. -/
theorem memWrite_effect (a : Word) (n : Nat) (v : Word) (s : State) :
    WriteEffect (Span (translateAddr a) n) s (memWrite a n v s) := by
  unfold memWrite
  split
  · exact .refl _ s
  · exact writeBytes_effect ..

/-- The loop of SWL and SWR touches only the translations of its single-byte addresses. -/
theorem storeBytesFrom_effect (c : Nat) (a : Word) (k : Nat) (v : Word) (s : State) :
    WriteEffect (fun b => ∃ j < c, b = (translateAddr (a + BitVec.ofNat 32 j)).toNat) s (storeBytesFrom c a k v s) := by
  induction c generalizing a k v s with
  | zero => exact .refl _ s
  | succ c ih =>
    refine ((memWrite_effect a 1 _ s).mono ?_).trans ((ih ..).mono ?_)
    · rintro b ⟨j, hj, rfl⟩
      obtain rfl : j = 0 := by omega
      exact ⟨0, by omega, by simp⟩
    · rintro b ⟨j, hj, rfl⟩
      refine ⟨j + 1, by omega, ?_⟩
      rw [BitVec.add_assoc, show (1#32 + BitVec.ofNat 32 j) = BitVec.ofNat 32 (j + 1) by
        rw [Nat.add_comm]; exact (BitVec.ofNat_add ..).symm]

/-! ### Fields that no access changes -/

@[simp] theorem readBytes_cfg (n k : Nat) (q : Word) (s : State) : (readBytes n k q s).2.cfg = s.cfg := by
  obtain ⟨_, _, h⟩ := readBytes_effect n k q s; rw [h]
@[simp] theorem readBytes_x (n k : Nat) (q : Word) (s : State) : (readBytes n k q s).2.x = s.x := by
  obtain ⟨_, _, h⟩ := readBytes_effect n k q s; rw [h]
@[simp] theorem readBytes_pc (n k : Nat) (q : Word) (s : State) : (readBytes n k q s).2.pc = s.pc := by
  obtain ⟨_, _, h⟩ := readBytes_effect n k q s; rw [h]
@[simp] theorem readBytes_hi (n k : Nat) (q : Word) (s : State) : (readBytes n k q s).2.hi = s.hi := by
  obtain ⟨_, _, h⟩ := readBytes_effect n k q s; rw [h]
@[simp] theorem readBytes_lo (n k : Nat) (q : Word) (s : State) : (readBytes n k q s).2.lo = s.lo := by
  obtain ⟨_, _, h⟩ := readBytes_effect n k q s; rw [h]
@[simp] theorem readBytes_cp0 (n k : Nat) (q : Word) (s : State) : (readBytes n k q s).2.cp0 = s.cp0 := by
  obtain ⟨_, _, h⟩ := readBytes_effect n k q s; rw [h]
@[simp] theorem readBytes_brArmed (n k : Nat) (q : Word) (s : State) : (readBytes n k q s).2.brArmed = s.brArmed := by
  obtain ⟨_, _, h⟩ := readBytes_effect n k q s; rw [h]
@[simp] theorem readBytes_brTarget (n k : Nat) (q : Word) (s : State) : (readBytes n k q s).2.brTarget = s.brTarget := by
  obtain ⟨_, _, h⟩ := readBytes_effect n k q s; rw [h]
@[simp] theorem readBytes_consumed (n k : Nat) (q : Word) (s : State) : (readBytes n k q s).2.consumed = s.consumed := by
  obtain ⟨_, _, h⟩ := readBytes_effect n k q s; rw [h]
@[simp] theorem readBytes_irqLine (n k : Nat) (q : Word) (s : State) : (readBytes n k q s).2.irqLine = s.irqLine := by
  obtain ⟨_, _, h⟩ := readBytes_effect n k q s; rw [h]
@[simp] theorem readBytes_irqPending (n k : Nat) (q : Word) (s : State) : (readBytes n k q s).2.irqPending = s.irqPending := by
  obtain ⟨_, _, h⟩ := readBytes_effect n k q s; rw [h]
@[simp] theorem readBytes_cycles (n k : Nat) (q : Word) (s : State) : (readBytes n k q s).2.cycles = s.cycles := by
  obtain ⟨_, _, h⟩ := readBytes_effect n k q s; rw [h]
@[simp] theorem readBytes_run (n k : Nat) (q : Word) (s : State) : (readBytes n k q s).2.run = s.run := by
  obtain ⟨_, _, h⟩ := readBytes_effect n k q s; rw [h]
@[simp] theorem readBytes_devSeed (n k : Nat) (q : Word) (s : State) : (readBytes n k q s).2.devSeed = s.devSeed := by
  obtain ⟨_, _, h⟩ := readBytes_effect n k q s; rw [h]
@[simp] theorem readBytes_traceInstr (n k : Nat) (q : Word) (s : State) : (readBytes n k q s).2.traceInstr = s.traceInstr := by
  obtain ⟨_, _, h⟩ := readBytes_effect n k q s; rw [h]
@[simp] theorem readBytes_traceMem (n k : Nat) (q : Word) (s : State) : (readBytes n k q s).2.traceMem = s.traceMem := by
  obtain ⟨_, _, h⟩ := readBytes_effect n k q s; rw [h]
@[simp] theorem readBytes_mem (n k : Nat) (q : Word) (s : State) : (readBytes n k q s).2.mem = s.mem := by
  obtain ⟨_, _, h⟩ := readBytes_effect n k q s; rw [h]

@[simp] theorem memRead_cfg (a : Word) (n : Nat) (s : State) : (memRead a n s).2.cfg = s.cfg := by
  obtain ⟨_, _, h⟩ := memRead_effect a n s; rw [h]
@[simp] theorem memRead_x (a : Word) (n : Nat) (s : State) : (memRead a n s).2.x = s.x := by
  obtain ⟨_, _, h⟩ := memRead_effect a n s; rw [h]
@[simp] theorem memRead_pc (a : Word) (n : Nat) (s : State) : (memRead a n s).2.pc = s.pc := by
  obtain ⟨_, _, h⟩ := memRead_effect a n s; rw [h]
@[simp] theorem memRead_hi (a : Word) (n : Nat) (s : State) : (memRead a n s).2.hi = s.hi := by
  obtain ⟨_, _, h⟩ := memRead_effect a n s; rw [h]
@[simp] theorem memRead_lo (a : Word) (n : Nat) (s : State) : (memRead a n s).2.lo = s.lo := by
  obtain ⟨_, _, h⟩ := memRead_effect a n s; rw [h]
@[simp] theorem memRead_cp0 (a : Word) (n : Nat) (s : State) : (memRead a n s).2.cp0 = s.cp0 := by
  obtain ⟨_, _, h⟩ := memRead_effect a n s; rw [h]
@[simp] theorem memRead_brArmed (a : Word) (n : Nat) (s : State) : (memRead a n s).2.brArmed = s.brArmed := by
  obtain ⟨_, _, h⟩ := memRead_effect a n s; rw [h]
@[simp] theorem memRead_brTarget (a : Word) (n : Nat) (s : State) : (memRead a n s).2.brTarget = s.brTarget := by
  obtain ⟨_, _, h⟩ := memRead_effect a n s; rw [h]
@[simp] theorem memRead_consumed (a : Word) (n : Nat) (s : State) : (memRead a n s).2.consumed = s.consumed := by
  obtain ⟨_, _, h⟩ := memRead_effect a n s; rw [h]
@[simp] theorem memRead_irqLine (a : Word) (n : Nat) (s : State) : (memRead a n s).2.irqLine = s.irqLine := by
  obtain ⟨_, _, h⟩ := memRead_effect a n s; rw [h]
@[simp] theorem memRead_irqPending (a : Word) (n : Nat) (s : State) : (memRead a n s).2.irqPending = s.irqPending := by
  obtain ⟨_, _, h⟩ := memRead_effect a n s; rw [h]
@[simp] theorem memRead_cycles (a : Word) (n : Nat) (s : State) : (memRead a n s).2.cycles = s.cycles := by
  obtain ⟨_, _, h⟩ := memRead_effect a n s; rw [h]
@[simp] theorem memRead_run (a : Word) (n : Nat) (s : State) : (memRead a n s).2.run = s.run := by
  obtain ⟨_, _, h⟩ := memRead_effect a n s; rw [h]
@[simp] theorem memRead_devSeed (a : Word) (n : Nat) (s : State) : (memRead a n s).2.devSeed = s.devSeed := by
  obtain ⟨_, _, h⟩ := memRead_effect a n s; rw [h]
@[simp] theorem memRead_traceInstr (a : Word) (n : Nat) (s : State) : (memRead a n s).2.traceInstr = s.traceInstr := by
  obtain ⟨_, _, h⟩ := memRead_effect a n s; rw [h]
@[simp] theorem memRead_traceMem (a : Word) (n : Nat) (s : State) : (memRead a n s).2.traceMem = s.traceMem := by
  obtain ⟨_, _, h⟩ := memRead_effect a n s; rw [h]
@[simp] theorem memRead_mem (a : Word) (n : Nat) (s : State) : (memRead a n s).2.mem = s.mem := by
  obtain ⟨_, _, h⟩ := memRead_effect a n s; rw [h]

@[simp] theorem loadBytesInto_cfg (c : Nat) (a : Word) (k : Nat) (v : Word) (s : State) : (loadBytesInto c a k v s).2.cfg = s.cfg := by
  obtain ⟨_, _, h⟩ := loadBytesInto_effect c a k v s; rw [h]
@[simp] theorem loadBytesInto_x (c : Nat) (a : Word) (k : Nat) (v : Word) (s : State) : (loadBytesInto c a k v s).2.x = s.x := by
  obtain ⟨_, _, h⟩ := loadBytesInto_effect c a k v s; rw [h]
@[simp] theorem loadBytesInto_pc (c : Nat) (a : Word) (k : Nat) (v : Word) (s : State) : (loadBytesInto c a k v s).2.pc = s.pc := by
  obtain ⟨_, _, h⟩ := loadBytesInto_effect c a k v s; rw [h]
@[simp] theorem loadBytesInto_hi (c : Nat) (a : Word) (k : Nat) (v : Word) (s : State) : (loadBytesInto c a k v s).2.hi = s.hi := by
  obtain ⟨_, _, h⟩ := loadBytesInto_effect c a k v s; rw [h]
@[simp] theorem loadBytesInto_lo (c : Nat) (a : Word) (k : Nat) (v : Word) (s : State) : (loadBytesInto c a k v s).2.lo = s.lo := by
  obtain ⟨_, _, h⟩ := loadBytesInto_effect c a k v s; rw [h]
@[simp] theorem loadBytesInto_cp0 (c : Nat) (a : Word) (k : Nat) (v : Word) (s : State) : (loadBytesInto c a k v s).2.cp0 = s.cp0 := by
  obtain ⟨_, _, h⟩ := loadBytesInto_effect c a k v s; rw [h]
@[simp] theorem loadBytesInto_brArmed (c : Nat) (a : Word) (k : Nat) (v : Word) (s : State) : (loadBytesInto c a k v s).2.brArmed = s.brArmed := by
  obtain ⟨_, _, h⟩ := loadBytesInto_effect c a k v s; rw [h]
@[simp] theorem loadBytesInto_brTarget (c : Nat) (a : Word) (k : Nat) (v : Word) (s : State) : (loadBytesInto c a k v s).2.brTarget = s.brTarget := by
  obtain ⟨_, _, h⟩ := loadBytesInto_effect c a k v s; rw [h]
@[simp] theorem loadBytesInto_consumed (c : Nat) (a : Word) (k : Nat) (v : Word) (s : State) : (loadBytesInto c a k v s).2.consumed = s.consumed := by
  obtain ⟨_, _, h⟩ := loadBytesInto_effect c a k v s; rw [h]
@[simp] theorem loadBytesInto_irqLine (c : Nat) (a : Word) (k : Nat) (v : Word) (s : State) : (loadBytesInto c a k v s).2.irqLine = s.irqLine := by
  obtain ⟨_, _, h⟩ := loadBytesInto_effect c a k v s; rw [h]
@[simp] theorem loadBytesInto_irqPending (c : Nat) (a : Word) (k : Nat) (v : Word) (s : State) : (loadBytesInto c a k v s).2.irqPending = s.irqPending := by
  obtain ⟨_, _, h⟩ := loadBytesInto_effect c a k v s; rw [h]
@[simp] theorem loadBytesInto_cycles (c : Nat) (a : Word) (k : Nat) (v : Word) (s : State) : (loadBytesInto c a k v s).2.cycles = s.cycles := by
  obtain ⟨_, _, h⟩ := loadBytesInto_effect c a k v s; rw [h]
@[simp] theorem loadBytesInto_run (c : Nat) (a : Word) (k : Nat) (v : Word) (s : State) : (loadBytesInto c a k v s).2.run = s.run := by
  obtain ⟨_, _, h⟩ := loadBytesInto_effect c a k v s; rw [h]
@[simp] theorem loadBytesInto_devSeed (c : Nat) (a : Word) (k : Nat) (v : Word) (s : State) : (loadBytesInto c a k v s).2.devSeed = s.devSeed := by
  obtain ⟨_, _, h⟩ := loadBytesInto_effect c a k v s; rw [h]
@[simp] theorem loadBytesInto_traceInstr (c : Nat) (a : Word) (k : Nat) (v : Word) (s : State) : (loadBytesInto c a k v s).2.traceInstr = s.traceInstr := by
  obtain ⟨_, _, h⟩ := loadBytesInto_effect c a k v s; rw [h]
@[simp] theorem loadBytesInto_traceMem (c : Nat) (a : Word) (k : Nat) (v : Word) (s : State) : (loadBytesInto c a k v s).2.traceMem = s.traceMem := by
  obtain ⟨_, _, h⟩ := loadBytesInto_effect c a k v s; rw [h]
@[simp] theorem loadBytesInto_mem (c : Nat) (a : Word) (k : Nat) (v : Word) (s : State) : (loadBytesInto c a k v s).2.mem = s.mem := by
  obtain ⟨_, _, h⟩ := loadBytesInto_effect c a k v s; rw [h]

@[simp] theorem writeBytes_cfg (n k : Nat) (q v : Word) (s : State) : (writeBytes n k q v s).cfg = s.cfg := by
  obtain ⟨_, _, _, h, -⟩ := writeBytes_effect n k q v s; rw [h]
@[simp] theorem writeBytes_x (n k : Nat) (q v : Word) (s : State) : (writeBytes n k q v s).x = s.x := by
  obtain ⟨_, _, _, h, -⟩ := writeBytes_effect n k q v s; rw [h]
@[simp] theorem writeBytes_pc (n k : Nat) (q v : Word) (s : State) : (writeBytes n k q v s).pc = s.pc := by
  obtain ⟨_, _, _, h, -⟩ := writeBytes_effect n k q v s; rw [h]
@[simp] theorem writeBytes_hi (n k : Nat) (q v : Word) (s : State) : (writeBytes n k q v s).hi = s.hi := by
  obtain ⟨_, _, _, h, -⟩ := writeBytes_effect n k q v s; rw [h]
@[simp] theorem writeBytes_lo (n k : Nat) (q v : Word) (s : State) : (writeBytes n k q v s).lo = s.lo := by
  obtain ⟨_, _, _, h, -⟩ := writeBytes_effect n k q v s; rw [h]
@[simp] theorem writeBytes_cp0 (n k : Nat) (q v : Word) (s : State) : (writeBytes n k q v s).cp0 = s.cp0 := by
  obtain ⟨_, _, _, h, -⟩ := writeBytes_effect n k q v s; rw [h]
@[simp] theorem writeBytes_brArmed (n k : Nat) (q v : Word) (s : State) : (writeBytes n k q v s).brArmed = s.brArmed := by
  obtain ⟨_, _, _, h, -⟩ := writeBytes_effect n k q v s; rw [h]
@[simp] theorem writeBytes_brTarget (n k : Nat) (q v : Word) (s : State) : (writeBytes n k q v s).brTarget = s.brTarget := by
  obtain ⟨_, _, _, h, -⟩ := writeBytes_effect n k q v s; rw [h]
@[simp] theorem writeBytes_consumed (n k : Nat) (q v : Word) (s : State) : (writeBytes n k q v s).consumed = s.consumed := by
  obtain ⟨_, _, _, h, -⟩ := writeBytes_effect n k q v s; rw [h]
@[simp] theorem writeBytes_irqLine (n k : Nat) (q v : Word) (s : State) : (writeBytes n k q v s).irqLine = s.irqLine := by
  obtain ⟨_, _, _, h, -⟩ := writeBytes_effect n k q v s; rw [h]
@[simp] theorem writeBytes_irqPending (n k : Nat) (q v : Word) (s : State) : (writeBytes n k q v s).irqPending = s.irqPending := by
  obtain ⟨_, _, _, h, -⟩ := writeBytes_effect n k q v s; rw [h]
@[simp] theorem writeBytes_cycles (n k : Nat) (q v : Word) (s : State) : (writeBytes n k q v s).cycles = s.cycles := by
  obtain ⟨_, _, _, h, -⟩ := writeBytes_effect n k q v s; rw [h]
@[simp] theorem writeBytes_run (n k : Nat) (q v : Word) (s : State) : (writeBytes n k q v s).run = s.run := by
  obtain ⟨_, _, _, h, -⟩ := writeBytes_effect n k q v s; rw [h]
@[simp] theorem writeBytes_devSeed (n k : Nat) (q v : Word) (s : State) : (writeBytes n k q v s).devSeed = s.devSeed := by
  obtain ⟨_, _, _, h, -⟩ := writeBytes_effect n k q v s; rw [h]
@[simp] theorem writeBytes_traceInstr (n k : Nat) (q v : Word) (s : State) : (writeBytes n k q v s).traceInstr = s.traceInstr := by
  obtain ⟨_, _, _, h, -⟩ := writeBytes_effect n k q v s; rw [h]
@[simp] theorem writeBytes_traceMem (n k : Nat) (q v : Word) (s : State) : (writeBytes n k q v s).traceMem = s.traceMem := by
  obtain ⟨_, _, _, h, -⟩ := writeBytes_effect n k q v s; rw [h]

@[simp] theorem memWrite_cfg (a : Word) (n : Nat) (v : Word) (s : State) : (memWrite a n v s).cfg = s.cfg := by
  obtain ⟨_, _, _, h, -⟩ := memWrite_effect a n v s; rw [h]
@[simp] theorem memWrite_x (a : Word) (n : Nat) (v : Word) (s : State) : (memWrite a n v s).x = s.x := by
  obtain ⟨_, _, _, h, -⟩ := memWrite_effect a n v s; rw [h]
@[simp] theorem memWrite_pc (a : Word) (n : Nat) (v : Word) (s : State) : (memWrite a n v s).pc = s.pc := by
  obtain ⟨_, _, _, h, -⟩ := memWrite_effect a n v s; rw [h]
@[simp] theorem memWrite_hi (a : Word) (n : Nat) (v : Word) (s : State) : (memWrite a n v s).hi = s.hi := by
  obtain ⟨_, _, _, h, -⟩ := memWrite_effect a n v s; rw [h]
@[simp] theorem memWrite_lo (a : Word) (n : Nat) (v : Word) (s : State) : (memWrite a n v s).lo = s.lo := by
  obtain ⟨_, _, _, h, -⟩ := memWrite_effect a n v s; rw [h]
@[simp] theorem memWrite_cp0 (a : Word) (n : Nat) (v : Word) (s : State) : (memWrite a n v s).cp0 = s.cp0 := by
  obtain ⟨_, _, _, h, -⟩ := memWrite_effect a n v s; rw [h]
@[simp] theorem memWrite_brArmed (a : Word) (n : Nat) (v : Word) (s : State) : (memWrite a n v s).brArmed = s.brArmed := by
  obtain ⟨_, _, _, h, -⟩ := memWrite_effect a n v s; rw [h]
@[simp] theorem memWrite_brTarget (a : Word) (n : Nat) (v : Word) (s : State) : (memWrite a n v s).brTarget = s.brTarget := by
  obtain ⟨_, _, _, h, -⟩ := memWrite_effect a n v s; rw [h]
@[simp] theorem memWrite_consumed (a : Word) (n : Nat) (v : Word) (s : State) : (memWrite a n v s).consumed = s.consumed := by
  obtain ⟨_, _, _, h, -⟩ := memWrite_effect a n v s; rw [h]
@[simp] theorem memWrite_irqLine (a : Word) (n : Nat) (v : Word) (s : State) : (memWrite a n v s).irqLine = s.irqLine := by
  obtain ⟨_, _, _, h, -⟩ := memWrite_effect a n v s; rw [h]
@[simp] theorem memWrite_irqPending (a : Word) (n : Nat) (v : Word) (s : State) : (memWrite a n v s).irqPending = s.irqPending := by
  obtain ⟨_, _, _, h, -⟩ := memWrite_effect a n v s; rw [h]
@[simp] theorem memWrite_cycles (a : Word) (n : Nat) (v : Word) (s : State) : (memWrite a n v s).cycles = s.cycles := by
  obtain ⟨_, _, _, h, -⟩ := memWrite_effect a n v s; rw [h]
@[simp] theorem memWrite_run (a : Word) (n : Nat) (v : Word) (s : State) : (memWrite a n v s).run = s.run := by
  obtain ⟨_, _, _, h, -⟩ := memWrite_effect a n v s; rw [h]
@[simp] theorem memWrite_devSeed (a : Word) (n : Nat) (v : Word) (s : State) : (memWrite a n v s).devSeed = s.devSeed := by
  obtain ⟨_, _, _, h, -⟩ := memWrite_effect a n v s; rw [h]
@[simp] theorem memWrite_traceInstr (a : Word) (n : Nat) (v : Word) (s : State) : (memWrite a n v s).traceInstr = s.traceInstr := by
  obtain ⟨_, _, _, h, -⟩ := memWrite_effect a n v s; rw [h]
@[simp] theorem memWrite_traceMem (a : Word) (n : Nat) (v : Word) (s : State) : (memWrite a n v s).traceMem = s.traceMem := by
  obtain ⟨_, _, _, h, -⟩ := memWrite_effect a n v s; rw [h]

@[simp] theorem storeBytesFrom_cfg (c : Nat) (a : Word) (k : Nat) (v : Word) (s : State) : (storeBytesFrom c a k v s).cfg = s.cfg := by
  obtain ⟨_, _, _, h, -⟩ := storeBytesFrom_effect c a k v s; rw [h]
@[simp] theorem storeBytesFrom_x (c : Nat) (a : Word) (k : Nat) (v : Word) (s : State) : (storeBytesFrom c a k v s).x = s.x := by
  obtain ⟨_, _, _, h, -⟩ := storeBytesFrom_effect c a k v s; rw [h]
@[simp] theorem storeBytesFrom_pc (c : Nat) (a : Word) (k : Nat) (v : Word) (s : State) : (storeBytesFrom c a k v s).pc = s.pc := by
  obtain ⟨_, _, _, h, -⟩ := storeBytesFrom_effect c a k v s; rw [h]
@[simp] theorem storeBytesFrom_hi (c : Nat) (a : Word) (k : Nat) (v : Word) (s : State) : (storeBytesFrom c a k v s).hi = s.hi := by
  obtain ⟨_, _, _, h, -⟩ := storeBytesFrom_effect c a k v s; rw [h]
@[simp] theorem storeBytesFrom_lo (c : Nat) (a : Word) (k : Nat) (v : Word) (s : State) : (storeBytesFrom c a k v s).lo = s.lo := by
  obtain ⟨_, _, _, h, -⟩ := storeBytesFrom_effect c a k v s; rw [h]
@[simp] theorem storeBytesFrom_cp0 (c : Nat) (a : Word) (k : Nat) (v : Word) (s : State) : (storeBytesFrom c a k v s).cp0 = s.cp0 := by
  obtain ⟨_, _, _, h, -⟩ := storeBytesFrom_effect c a k v s; rw [h]
@[simp] theorem storeBytesFrom_brArmed (c : Nat) (a : Word) (k : Nat) (v : Word) (s : State) : (storeBytesFrom c a k v s).brArmed = s.brArmed := by
  obtain ⟨_, _, _, h, -⟩ := storeBytesFrom_effect c a k v s; rw [h]
@[simp] theorem storeBytesFrom_brTarget (c : Nat) (a : Word) (k : Nat) (v : Word) (s : State) : (storeBytesFrom c a k v s).brTarget = s.brTarget := by
  obtain ⟨_, _, _, h, -⟩ := storeBytesFrom_effect c a k v s; rw [h]
@[simp] theorem storeBytesFrom_consumed (c : Nat) (a : Word) (k : Nat) (v : Word) (s : State) : (storeBytesFrom c a k v s).consumed = s.consumed := by
  obtain ⟨_, _, _, h, -⟩ := storeBytesFrom_effect c a k v s; rw [h]
@[simp] theorem storeBytesFrom_irqLine (c : Nat) (a : Word) (k : Nat) (v : Word) (s : State) : (storeBytesFrom c a k v s).irqLine = s.irqLine := by
  obtain ⟨_, _, _, h, -⟩ := storeBytesFrom_effect c a k v s; rw [h]
@[simp] theorem storeBytesFrom_irqPending (c : Nat) (a : Word) (k : Nat) (v : Word) (s : State) : (storeBytesFrom c a k v s).irqPending = s.irqPending := by
  obtain ⟨_, _, _, h, -⟩ := storeBytesFrom_effect c a k v s; rw [h]
@[simp] theorem storeBytesFrom_cycles (c : Nat) (a : Word) (k : Nat) (v : Word) (s : State) : (storeBytesFrom c a k v s).cycles = s.cycles := by
  obtain ⟨_, _, _, h, -⟩ := storeBytesFrom_effect c a k v s; rw [h]
@[simp] theorem storeBytesFrom_run (c : Nat) (a : Word) (k : Nat) (v : Word) (s : State) : (storeBytesFrom c a k v s).run = s.run := by
  obtain ⟨_, _, _, h, -⟩ := storeBytesFrom_effect c a k v s; rw [h]
@[simp] theorem storeBytesFrom_devSeed (c : Nat) (a : Word) (k : Nat) (v : Word) (s : State) : (storeBytesFrom c a k v s).devSeed = s.devSeed := by
  obtain ⟨_, _, _, h, -⟩ := storeBytesFrom_effect c a k v s; rw [h]
@[simp] theorem storeBytesFrom_traceInstr (c : Nat) (a : Word) (k : Nat) (v : Word) (s : State) : (storeBytesFrom c a k v s).traceInstr = s.traceInstr := by
  obtain ⟨_, _, _, h, -⟩ := storeBytesFrom_effect c a k v s; rw [h]
@[simp] theorem storeBytesFrom_traceMem (c : Nat) (a : Word) (k : Nat) (v : Word) (s : State) : (storeBytesFrom c a k v s).traceMem = s.traceMem := by
  obtain ⟨_, _, _, h, -⟩ := storeBytesFrom_effect c a k v s; rw [h]

end Sys2Proof.Machine
end

