-- ==== Sys2Proof/Laws/Access.lean ====
section
/-! SUPPORT. What an access to the bus answers and leaves, region by region (20_memory.md R83-R96). -/

namespace Sys2Proof.Machine

/-! ### Bytes and words (R92) -/

@[simp] theorem wordOfBytes_one (b : Byte) : wordOfBytes [b] = b.setWidth 32 := by
  simp [wordOfBytes]

theorem wordOfBytes_two (b0 b1 : Byte) : wordOfBytes [b0, b1] = (b1 ++ b0).setWidth 32 := by
  simp only [wordOfBytes]
  apply BitVec.eq_of_getLsbD_eq
  intro i hi
  have e : (b1 ++ b0).getLsbD i = if i < 8 then b0.getLsbD i else b1.getLsbD (i - 8) := BitVec.getLsbD_append
  rw [BitVec.getLsbD_setWidth, e]
  by_cases h8 : i < 8
  · simp [hi, h8]
  · simp [hi, h8, BitVec.getLsbD_of_ge b0 i (by omega)]

theorem wordOfBytes_four (b0 b1 b2 b3 : Byte) : wordOfBytes [b0, b1, b2, b3] = b3 ++ b2 ++ b1 ++ b0 := by
  simp only [wordOfBytes]
  apply BitVec.eq_of_getLsbD_eq
  intro i hi
  rw [show (b3 ++ b2 ++ b1 ++ b0 : Word).getLsbD i = BitVec.getLsbD (b3 ++ b2 ++ b1 ++ b0) i from rfl]
  have h0 : ∀ b : Byte, ∀ j, 8 ≤ j → b.getLsbD j = false := fun b j hj => BitVec.getLsbD_of_ge _ _ hj
  have h1 : i - 8 < 32 ∧ i - 8 - 8 < 32 ∧ i - 8 - 8 - 8 < 32 := by omega
  simp only [BitVec.getLsbD_append, BitVec.getLsbD_or, BitVec.getLsbD_shiftLeft, BitVec.getLsbD_setWidth, hi, h1,
    decide_true, Bool.true_and, BitVec.getLsbD_zero, Bool.and_false, Bool.or_false]
  by_cases h8 : i < 8
  · simp [h8]
  · by_cases h16 : i - 8 < 8
    · simp [h8, h16, h0 b0 i (by omega)]
    · by_cases h24 : i - 8 - 8 < 8
      · simp [h8, h16, h24, h0 b0 i (by omega), h0 b1 (i - 8) (by omega)]
      · simp [h8, h16, h24, h0 b0 i (by omega), h0 b1 (i - 8) (by omega), h0 b2 (i - 8 - 8) (by omega)]

/-- R92: the four bytes of a word, put together again, are the word. -/
theorem wordOfBytes_bytesOfWord (w : Word) : wordOfBytes (bytesOfWord w) = w := by
  rw [bytesOfWord, wordOfBytes_four]
  rw [BitVec.extractLsb'_append_extractLsb'_eq_extractLsb' (by rfl), BitVec.extractLsb'_append_extractLsb'_eq_extractLsb' (by rfl),
    BitVec.extractLsb'_append_extractLsb'_eq_extractLsb' (by rfl)]
  simp

theorem getByte_zero (v : Word) : getByte v 0 = v.setWidth 8 := by
  apply BitVec.eq_of_getLsbD_eq
  intro i hi
  simp [getByte, hi]

theorem getByte_shift (v : Word) (j : Nat) : getByte (v >>> 8) j = getByte v (j + 1) := by
  apply BitVec.eq_of_getLsbD_eq
  intro i hi
  simp [getByte, show 8 + (8 * j + i) = 8 * (j + 1) + i by ring]

theorem getLsbD_setByte (v : Word) (k : Nat) (b : Byte) (i : Nat) (hi : i < 32) :
    (setByte v k b).getLsbD i = if 8 * k ≤ i ∧ i < 8 * k + 8 then b.getLsbD (i - 8 * k) else v.getLsbD i := by
  have hff : ∀ j, (255#32).getLsbD j = decide (j < 8) := by
    intro j
    by_cases hj : j < 32
    · interval_cases j <;> rfl
    · rw [BitVec.getLsbD_of_ge _ _ (by omega)]; simp; omega
  simp only [setByte, BitVec.getLsbD_or, BitVec.getLsbD_and, BitVec.getLsbD_not, BitVec.getLsbD_shiftLeft, hff, hi,
    BitVec.getLsbD_setWidth, decide_true, Bool.true_and]
  by_cases h1 : i < 8 * k
  · have : ¬ 8 * k ≤ i := by omega
    simp [h1, this]
  · have h2 : 8 * k ≤ i := by omega
    by_cases h3 : i < 8 * k + 8
    · simp [h1, h2, h3, show i - 8 * k < 8 by omega, show i - 8 * k < 32 by omega]
    · have : b.getLsbD (i - 8 * k) = false := BitVec.getLsbD_of_ge _ _ (by omega)
      simp [h1, h3, this, show ¬ i - 8 * k < 8 by omega]

/-- Byte `j` of a word with byte `k` replaced. -/
theorem getByte_setByte (v : Word) (k j : Nat) (hj : j < 4) (b : Byte) :
    getByte (setByte v k b) j = if j = k then b else getByte v j := by
  apply BitVec.eq_of_getLsbD_eq
  intro i hi
  simp only [getByte, BitVec.getLsbD_extractLsb', hi, decide_true, Bool.true_and]
  rw [getLsbD_setByte _ _ _ _ (by omega)]
  by_cases h : j = k
  · subst h; simp [hi]
  · have : ¬ (8 * k ≤ 8 * j + i ∧ 8 * j + i < 8 * k + 8) := by omega
    simp [h, this, hi]

/-- Two words with the same four bytes are the same. -/
theorem ext_getByte {v w : Word} (h : ∀ k < 4, getByte v k = getByte w k) : v = w := by
  apply BitVec.eq_of_getLsbD_eq
  intro i hi
  have := congrArg (fun b => BitVec.getLsbD b (i % 8)) (h (i / 8) (by omega))
  simpa [getByte, Nat.div_add_mod, show i % 8 < 8 by omega] using this

/-! ### High physical addresses -/

/-- R80, R88: every physical address at 0x20000000 or above is unmapped. -/
theorem regionOf_high {q : Nat} (h : 0x20000000 ≤ q) : regionOf q = .unmapped := by
  unfold regionOf
  repeat' split
  all_goals first
    | rfl
    | omega

/-- R72, R88: from KSEG0 up nothing at 0x60000000 or above is produced, and 0x20000000 and above is reached from 0xC0000000 up only. Below
KSEG0 an address is its own physical address, which R72 states (log entry 22). -/
theorem translateAddr_high (a : Word) :
    (0x80000000 ≤ a.toNat → (translateAddr a).toNat < 0x60000000
      ∧ (0x20000000 ≤ (translateAddr a).toNat ↔ 0xC0000000 ≤ a.toNat))
      ∧ (a.toNat < 0x80000000 → translateAddr a = a) := by
  have ha := a.isLt
  unfold translateAddr
  refine ⟨fun h => ?_, fun h => by rw [if_neg (by omega), if_neg (by omega)]⟩
  split_ifs <;> simp only [BitVec.toNat_sub, BitVec.toNat_ofNat] <;> omega

/-! ### Reads -/

theorem readByte_backed {n : Nat} {q : Word} {s : State} (h : (regionOf q.toNat).backed = true) :
    readByte n q s = (s.byteAt q, s) := by
  unfold readByte
  split <;> first | rfl | (rename_i hr; rw [hr] at h; exact absurd h (by decide))

theorem readByte_unmapped {n : Nat} {q : Word} {s : State} (h : regionOf q.toNat = .unmapped) :
    readByte n q s = (0#8, { s with diag := s.diag ++ [.unmappedRead q n] }) := by
  simp [readByte, h]

theorem readByte_io {n : Nat} {q : Word} {s : State} (h : regionOf q.toNat = .io) :
    readByte n q s = (Config.ioAnswer s.devSeed s.ioLog (q.toNat - ioBase),
      { s with ioLog := s.ioLog ++ [.read8 (q.toNat - ioBase) (Config.ioAnswer s.devSeed s.ioLog (q.toNat - ioBase))] }) := by
  simp [readByte, h]

theorem ofNat_succ (k : Nat) (q : Word) : q + 1#32 + BitVec.ofNat 32 k = q + BitVec.ofNat 32 (k + 1) := by
  rw [BitVec.add_assoc, show (1#32 + BitVec.ofNat 32 k) = BitVec.ofNat 32 (k + 1) by
    rw [Nat.add_comm]; exact (BitVec.ofNat_add ..).symm]

/-- R83, R86: reading bytes the core holds has no effect. -/
theorem readBytes_backed (n k : Nat) (q : Word) (s : State)
    (h : ∀ j < k, (regionOf (q + BitVec.ofNat 32 j).toNat).backed = true) :
    readBytes n k q s = ((List.range k).map fun j => s.byteAt (q + BitVec.ofNat 32 j), s) := by
  induction k generalizing q with
  | zero => rfl
  | succ k ih =>
    have h0 := h 0 (by omega)
    rw [BitVec.add_zero] at h0
    have := ih (q + 1#32) fun j hj => by rw [ofNat_succ]; exact h (j + 1) (by omega)
    simp only [readBytes, readByte_backed h0, this, List.range_succ_eq_map, List.map_cons, List.map_map]
    simp [Function.comp_def, ofNat_succ]

/-- R87, R96: reading unmapped bytes gives zeros and one event a byte. -/
theorem readBytes_unmapped (n k : Nat) (q : Word) (s : State)
    (h : ∀ j < k, regionOf (q + BitVec.ofNat 32 j).toNat = .unmapped) :
    readBytes n k q s = (List.replicate k 0#8,
      { s with diag := s.diag ++ (List.range k).map fun j => .unmappedRead (q + BitVec.ofNat 32 j) n }) := by
  induction k generalizing q s with
  | zero => simp [readBytes]
  | succ k ih =>
    have h0 := h 0 (by omega)
    rw [BitVec.add_zero] at h0
    have := ih (q + 1#32) { s with diag := s.diag ++ [.unmappedRead q n] }
      fun j hj => by rw [ofNat_succ]; exact h (j + 1) (by omega)
    simp only [readBytes, readByte_unmapped h0, this, List.range_succ_eq_map, List.map_cons, List.map_map]
    simp [Function.comp_def, ofNat_succ, List.replicate_succ]

/-- R84-R90: a read of one byte answers as its region says, and records no more than its region asks. -/
theorem readByte_each (n : Nat) (q : Word) (s : State) :
    s.Answers q (readByte n q s).1 ∧ (readByte n q s).2 = s.recordReads n [(q, (readByte n q s).1)] := by
  unfold readByte
  split <;> rename_i hr <;> simp [State.recordReads, State.Answers, hr, Region.backed, ioBase]

theorem State.recordReads_cons (s : State) (n : Nat) (c : Word × Byte) (cs : List (Word × Byte)) :
    (s.recordReads n [c]).recordReads n cs = s.recordReads n (c :: cs) := by
  simp only [State.recordReads, List.filterMap_cons, List.filterMap_nil, List.append_assoc]
  congr 2 <;> split <;> simp

/-- R90, R94: a read of `k` bytes resolves each on its own, in ascending order, in whatever regions they lie. -/
theorem readBytes_each (n k : Nat) (q : Word) (s : State) :
    ∃ b : Nat → Byte, (∀ j < k, s.Answers (q + BitVec.ofNat 32 j) (b j)) ∧ readBytes n k q s =
      ((List.range k).map b, s.recordReads n ((List.range k).map fun j => (q + BitVec.ofNat 32 j, b j))) := by
  induction k generalizing q s with
  | zero => exact ⟨fun _ => 0#8, fun j hj => absurd hj (by omega), by simp [readBytes, State.recordReads]⟩
  | succ k ih =>
    obtain ⟨h1, h2⟩ := readByte_each n q s
    obtain ⟨b, g1, g2⟩ := ih (q + 1#32) (readByte n q s).2
    refine ⟨fun j => j.casesOn (readByte n q s).1 b, fun j hj => ?_, ?_⟩
    · cases j with
      | zero => simpa using h1
      | succ j =>
        have := g1 j (by omega)
        rw [h2, ofNat_succ] at this
        exact this
    · simp only [readBytes, g2, List.range_succ_eq_map, List.map_cons, List.map_map]
      refine Prod.ext (by simp [Function.comp_def]) ?_
      show State.recordReads _ n _ = _
      rw [h2, State.recordReads_cons]
      simp [Function.comp_def, ofNat_succ]

theorem memRead_window {a : Word} {n : Nat} {s : State} (h : inCacheControl a = true) : memRead a n s = (0#32, s) := by
  simp [memRead, h]

theorem memRead_of_not_window {a : Word} {n : Nat} {s : State} (h : inCacheControl a = false) :
    memRead a n s = (wordOfBytes (readBytes n n (translateAddr a) s).1, (readBytes n n (translateAddr a) s).2) := by
  simp [memRead, h]

/-- A read of bytes the core holds gives them little-endian and has no effect (R83, R86, R90). -/
theorem memRead_backed {a : Word} {n : Nat} {s : State} (hw : inCacheControl a = false)
    (h : ∀ j < n, (regionOf (translateAddr a + BitVec.ofNat 32 j).toNat).backed = true) :
    memRead a n s = (wordOfBytes ((List.range n).map fun j => s.byteAt (translateAddr a + BitVec.ofNat 32 j)), s) := by
  rw [memRead_of_not_window hw, readBytes_backed n n _ s h]

/-! ### Writes -/

theorem writeByte_writable {n : Nat} {q : Word} {b : Byte} {s : State} (h : s.Writable q) :
    writeByte n q b s = { s with mem := s.mem.write q.toNat b } := by
  unfold writeByte
  rcases h with h | h | ⟨h, hi⟩
  · simp [h]
  · simp [h]
  · simp [h, hi]

theorem toNat_sub_succ {a q : Word} (h : a ≠ q) : (a - q).toNat = (a - (q + 1#32)).toNat + 1 := by
  have h' : a.toNat ≠ q.toNat := fun e => h (BitVec.eq_of_toNat_eq e)
  have ha := a.isLt
  have hq := q.isLt
  simp only [BitVec.toNat_sub, BitVec.toNat_add, BitVec.toNat_ofNat]
  omega

theorem toNat_self_sub_succ (q : Word) : (q - (q + 1#32)).toNat = 2 ^ 32 - 1 := by
  have hq := q.isLt
  simp only [BitVec.toNat_sub, BitVec.toNat_add, BitVec.toNat_ofNat]
  omega

/-- R83, R91: a write to bytes that take it replaces exactly those bytes, little-endian. -/
theorem writeBytes_writable (n k : Nat) (hk : k < 2 ^ 32) (q v : Word) (s : State) (hm : s.mem.wf = true)
    (h : ∀ j < k, s.Writable (q + BitVec.ofNat 32 j)) :
    (∀ a, (writeBytes n k q v s).byteAt a = if InSpan q k a then getByte v (a - q).toNat else s.byteAt a)
      ∧ ∃ m, writeBytes n k q v s = { s with mem := m } := by
  induction k generalizing q v s with
  | zero => exact ⟨fun a => by simp [writeBytes], s.mem, rfl⟩
  | succ k ih =>
    have h0 := h 0 (by omega)
    rw [BitVec.add_zero] at h0
    have hs := writeByte_writable (n := n) (b := v.setWidth 8) h0
    obtain ⟨h1, m, h2⟩ := ih (by omega) (q + 1#32) (v >>> 8) (writeByte n q (v.setWidth 8) s)
      (by rw [hs]; exact Memory.wf_write _ hm h0.backed)
      (fun j hj => by rw [ofNat_succ]; exact (h (j + 1) (by omega)).congr (by rw [hs]))
    refine ⟨fun a => ?_, m, by rw [writeBytes, h2, hs]⟩
    rw [writeBytes, h1]
    by_cases ha : a = q
    · subst ha
      have n1 : ¬ InSpan (a + 1#32) k a := by rw [InSpan, toNat_self_sub_succ]; omega
      have n2 : InSpan a (k + 1) a := by simp
      rw [if_neg n1, if_pos n2, hs]
      simp [State.byteAt, Memory.read_write _ _ _ hm, getByte_zero]
    · have e := toNat_sub_succ ha
      have he : InSpan q (k + 1) a ↔ InSpan (q + 1#32) k a := by rw [InSpan, InSpan]; omega
      by_cases hin : InSpan (q + 1#32) k a
      · rw [if_pos hin, if_pos (he.2 hin), getByte_shift, e]
      · rw [if_neg hin, if_neg (fun h => hin (he.1 h)), hs]
        have : a.toNat ≠ q.toNat := fun e => ha (BitVec.eq_of_toNat_eq e)
        simp [State.byteAt, Memory.read_write_ne _ _ this]

/-- R95: bytes written to RAM while cache-isolate is set are discarded, and there is no event. -/
theorem writeBytes_isolated (n k : Nat) (q v : Word) (s : State) (hi : s.isolated = true)
    (h : ∀ j < k, regionOf (q + BitVec.ofNat 32 j).toNat = .ram) : writeBytes n k q v s = s := by
  induction k generalizing q v with
  | zero => rfl
  | succ k ih =>
    have h0 := h 0 (by omega)
    rw [BitVec.add_zero] at h0
    have hs : writeByte n q (v.setWidth 8) s = s := by simp [writeByte, h0, hi]
    rw [writeBytes, hs]
    exact ih _ _ fun j hj => by rw [ofNat_succ]; exact h (j + 1) (by omega)

/-- R86, R96: bytes written to ROM are discarded, with one event a byte. -/
theorem writeBytes_rom (n k : Nat) (q v : Word) (s : State)
    (h : ∀ j < k, regionOf (q + BitVec.ofNat 32 j).toNat = .rom) :
    writeBytes n k q v s =
      { s with diag := s.diag ++ (List.range k).map fun j => .romWrite (q + BitVec.ofNat 32 j) n (getByte v j) } := by
  induction k generalizing q v s with
  | zero => simp [writeBytes]
  | succ k ih =>
    have h0 := h 0 (by omega)
    rw [BitVec.add_zero] at h0
    rw [writeBytes, ih _ _ _ fun j hj => by rw [ofNat_succ]; exact h (j + 1) (by omega)]
    simp [writeByte, h0, List.range_succ_eq_map, Function.comp_def, ofNat_succ, getByte_zero, getByte_shift]

/-- R87, R96: bytes written to unmapped space change nothing, with one event a byte. -/
theorem writeBytes_unmapped (n k : Nat) (q v : Word) (s : State)
    (h : ∀ j < k, regionOf (q + BitVec.ofNat 32 j).toNat = .unmapped) :
    writeBytes n k q v s =
      { s with diag := s.diag ++ (List.range k).map fun j => .unmappedWrite (q + BitVec.ofNat 32 j) n (getByte v j) } := by
  induction k generalizing q v s with
  | zero => simp [writeBytes]
  | succ k ih =>
    have h0 := h 0 (by omega)
    rw [BitVec.add_zero] at h0
    rw [writeBytes, ih _ _ _ fun j hj => by rw [ofNat_succ]; exact h (j + 1) (by omega)]
    simp [writeByte, h0, List.range_succ_eq_map, Function.comp_def, ofNat_succ, getByte_zero, getByte_shift]

/-- R84: bytes written to the I/O window are device calls, one a byte, in ascending order. -/
theorem writeBytes_io (n k : Nat) (q v : Word) (s : State)
    (h : ∀ j < k, regionOf (q + BitVec.ofNat 32 j).toNat = .io) :
    writeBytes n k q v s =
      { s with ioLog := s.ioLog ++
          (List.range k).map fun j => .write8 ((q + BitVec.ofNat 32 j).toNat - ioBase) (getByte v j) } := by
  induction k generalizing q v s with
  | zero => simp [writeBytes]
  | succ k ih =>
    have h0 := h 0 (by omega)
    rw [BitVec.add_zero] at h0
    rw [writeBytes, ih _ _ _ fun j hj => by rw [ofNat_succ]; exact h (j + 1) (by omega)]
    simp [writeByte, h0, List.range_succ_eq_map, Function.comp_def, ofNat_succ, getByte_zero, getByte_shift,
      Nat.mod_eq_of_lt q.isLt]

/-- R84-R91, R95: a write of one byte replaces it where it takes the write, and records what its region asks. -/
theorem writeByte_each (n : Nat) (q : Word) (b : Byte) (s : State) :
    writeByte n q b s = { s.recordWrites n [(q, b)] with mem := if s.Writable q then s.mem.write q.toNat b else s.mem } := by
  unfold writeByte
  split <;> rename_i hr <;> simp [State.recordWrites, State.Writable, hr, ioBase]
  split <;> rename_i hi <;> simp [hi]

theorem State.recordWrites_cons (s : State) (n : Nat) (m : Memory) (c : Word × Byte) (cs : List (Word × Byte)) :
    ({ s.recordWrites n [c] with mem := m } : State).recordWrites n cs = { s.recordWrites n (c :: cs) with mem := m } := by
  simp only [State.recordWrites, List.filterMap_cons, List.filterMap_nil, List.append_assoc]
  congr 2 <;> split <;> simp

theorem byteAt_writeByte (n : Nat) (q : Word) (b : Byte) (s : State) (hm : s.mem.wf = true) (a : Word) :
    (writeByte n q b s).byteAt a = if a = q ∧ s.Writable q then b else s.byteAt a := by
  rw [writeByte_each]
  by_cases h : s.Writable q
  · rw [if_pos h]
    show Memory.read (s.mem.write q.toNat b) a.toNat = _
    simp only [Memory.read_write _ _ _ hm, BitVec.toNat_inj, h, and_true]
    rfl
  · simp [State.byteAt, h]

/-- R91, R94, R95: a write of `k` bytes resolves each on its own, in ascending order, in whatever regions they lie. -/
theorem writeBytes_each (n k : Nat) (hk : k < 2 ^ 32) (q v : Word) (s : State) (hm : s.mem.wf = true) :
    (∀ a, (writeBytes n k q v s).byteAt a = if InSpan q k a ∧ s.Writable a then getByte v (a - q).toNat else s.byteAt a)
      ∧ ∃ m, writeBytes n k q v s =
        { s.recordWrites n ((List.range k).map fun j => (q + BitVec.ofNat 32 j, getByte v j)) with mem := m } := by
  induction k generalizing q v s with
  | zero => exact ⟨fun a => by simp [writeBytes], s.mem, by simp [writeBytes, State.recordWrites]⟩
  | succ k ih =>
    obtain ⟨h1, m, h2⟩ := ih (by omega) (q + 1#32) (v >>> 8) (writeByte n q (v.setWidth 8) s) (by
      rw [writeByte_each]
      split
      · exact Memory.wf_write _ hm (State.Writable.backed ‹_›)
      · exact hm)
    have hw : ∀ a, (writeByte n q (v.setWidth 8) s).Writable a ↔ s.Writable a := fun a => by rw [writeByte_each]; exact Iff.rfl
    refine ⟨fun a => ?_, m, ?_⟩
    · rw [writeBytes, h1, byteAt_writeByte _ _ _ _ hm]
      simp only [hw]
      by_cases ha : a = q
      · subst ha
        have n1 : ¬ InSpan (a + 1#32) k a := by rw [InSpan, toNat_self_sub_succ]; omega
        have n2 : InSpan a (k + 1) a := by simp
        rw [if_neg fun h => n1 h.1]
        by_cases h : s.Writable a
        · rw [if_pos ⟨rfl, h⟩, if_pos ⟨n2, h⟩, BitVec.sub_self, BitVec.toNat_ofNat, Nat.zero_mod, getByte_zero]
        · rw [if_neg fun e => h e.2, if_neg fun e => h e.2]
      · have e := toNat_sub_succ ha
        have he : InSpan q (k + 1) a ↔ InSpan (q + 1#32) k a := by rw [InSpan, InSpan]; omega
        simp only [he, ha, false_and, if_false, getByte_shift, e]
    · rw [writeBytes, h2, writeByte_each, State.recordWrites_cons]
      simp [List.range_succ_eq_map, Function.comp_def, ofNat_succ, getByte_zero, getByte_shift]

theorem memWrite_window {a : Word} {n : Nat} {v : Word} {s : State} (h : inCacheControl a = true) : memWrite a n v s = s := by
  simp [memWrite, h]

theorem memWrite_of_not_window {a : Word} {n : Nat} {v : Word} {s : State} (h : inCacheControl a = false) :
    memWrite a n v s = writeBytes n n (translateAddr a) v s := by
  simp [memWrite, h]

/-- A byte of a backed region lies below 0x20000000, so four bytes from it up do not wrap. -/
theorem inSpan_iff {q a : Word} {n : Nat} : InSpan q n a ↔ ∃ j < n, j < 2 ^ 32 ∧ a = q + BitVec.ofNat 32 j := by
  constructor
  · intro h
    refine ⟨(a - q).toNat, h, (a - q).isLt, ?_⟩
    rw [BitVec.ofNat_toNat, BitVec.setWidth_eq, BitVec.add_comm, BitVec.sub_add_cancel]
  · rintro ⟨j, hj, -, rfl⟩
    unfold InSpan
    rw [BitVec.add_comm, BitVec.add_sub_cancel, BitVec.toNat_ofNat]
    exact lt_of_le_of_lt (Nat.mod_le _ _) hj

end Sys2Proof.Machine
end

