-- ==== Sys2Proof/Laws/Encoding.lean ====
section
/-! SUPPORT. The layouts of an instruction word (30_encoding.md R121): what each field of an encoded word is, and what a mask keeps. -/

namespace Sys2Proof

/-! ### Fields of an encoded word -/

@[simp] theorem fields_encodeR_op (op : BitVec 6) (rs rt rd : RegNum) (sh : Shamt) (fn : BitVec 6) : (fields (encodeR op rs rt rd sh fn)).op = op := by
  show BitVec.extractLsb' 26 6 (_ : Word) = _
  unfold encodeR
  rw [BitVec.extractLsb'_append_eq_of_le (by omega), BitVec.extractLsb'_append_eq_of_le (by omega), BitVec.extractLsb'_append_eq_of_le (by omega), BitVec.extractLsb'_append_eq_of_le (by omega), BitVec.extractLsb'_append_eq_of_le (by omega)]
  exact BitVec.extractLsb'_eq_self
@[simp] theorem fields_encodeR_rs (op : BitVec 6) (rs rt rd : RegNum) (sh : Shamt) (fn : BitVec 6) : (fields (encodeR op rs rt rd sh fn)).rs = rs := by
  show BitVec.extractLsb' 21 5 (_ : Word) = _
  unfold encodeR
  rw [BitVec.extractLsb'_append_eq_of_le (by omega), BitVec.extractLsb'_append_eq_of_le (by omega), BitVec.extractLsb'_append_eq_of_le (by omega), BitVec.extractLsb'_append_eq_of_le (by omega), BitVec.extractLsb'_append_eq_of_add_le (by omega)]
  exact BitVec.extractLsb'_eq_self
@[simp] theorem fields_encodeR_rt (op : BitVec 6) (rs rt rd : RegNum) (sh : Shamt) (fn : BitVec 6) : (fields (encodeR op rs rt rd sh fn)).rt = rt := by
  show BitVec.extractLsb' 16 5 (_ : Word) = _
  unfold encodeR
  rw [BitVec.extractLsb'_append_eq_of_le (by omega), BitVec.extractLsb'_append_eq_of_le (by omega), BitVec.extractLsb'_append_eq_of_le (by omega), BitVec.extractLsb'_append_eq_of_add_le (by omega)]
  exact BitVec.extractLsb'_eq_self
@[simp] theorem fields_encodeR_rd (op : BitVec 6) (rs rt rd : RegNum) (sh : Shamt) (fn : BitVec 6) : (fields (encodeR op rs rt rd sh fn)).rd = rd := by
  show BitVec.extractLsb' 11 5 (_ : Word) = _
  unfold encodeR
  rw [BitVec.extractLsb'_append_eq_of_le (by omega), BitVec.extractLsb'_append_eq_of_le (by omega), BitVec.extractLsb'_append_eq_of_add_le (by omega)]
  exact BitVec.extractLsb'_eq_self
@[simp] theorem fields_encodeR_shamt (op : BitVec 6) (rs rt rd : RegNum) (sh : Shamt) (fn : BitVec 6) : (fields (encodeR op rs rt rd sh fn)).shamt = sh := by
  show BitVec.extractLsb' 6 5 (_ : Word) = _
  unfold encodeR
  rw [BitVec.extractLsb'_append_eq_of_le (by omega), BitVec.extractLsb'_append_eq_of_add_le (by omega)]
  exact BitVec.extractLsb'_eq_self
@[simp] theorem fields_encodeR_funct (op : BitVec 6) (rs rt rd : RegNum) (sh : Shamt) (fn : BitVec 6) : (fields (encodeR op rs rt rd sh fn)).funct = fn := by
  show BitVec.extractLsb' 0 6 (_ : Word) = _
  unfold encodeR
  rw [BitVec.extractLsb'_append_eq_of_add_le (by omega)]
  exact BitVec.extractLsb'_eq_self
@[simp] theorem fields_encodeI_op (op : BitVec 6) (rs rt : RegNum) (imm : Imm16) : (fields (encodeI op rs rt imm)).op = op := by
  show BitVec.extractLsb' 26 6 (_ : Word) = _
  unfold encodeI
  rw [BitVec.extractLsb'_append_eq_of_le (by omega), BitVec.extractLsb'_append_eq_of_le (by omega), BitVec.extractLsb'_append_eq_of_le (by omega)]
  exact BitVec.extractLsb'_eq_self
@[simp] theorem fields_encodeI_rs (op : BitVec 6) (rs rt : RegNum) (imm : Imm16) : (fields (encodeI op rs rt imm)).rs = rs := by
  show BitVec.extractLsb' 21 5 (_ : Word) = _
  unfold encodeI
  rw [BitVec.extractLsb'_append_eq_of_le (by omega), BitVec.extractLsb'_append_eq_of_le (by omega), BitVec.extractLsb'_append_eq_of_add_le (by omega)]
  exact BitVec.extractLsb'_eq_self
@[simp] theorem fields_encodeI_rt (op : BitVec 6) (rs rt : RegNum) (imm : Imm16) : (fields (encodeI op rs rt imm)).rt = rt := by
  show BitVec.extractLsb' 16 5 (_ : Word) = _
  unfold encodeI
  rw [BitVec.extractLsb'_append_eq_of_le (by omega), BitVec.extractLsb'_append_eq_of_add_le (by omega)]
  exact BitVec.extractLsb'_eq_self
@[simp] theorem fields_encodeI_imm (op : BitVec 6) (rs rt : RegNum) (imm : Imm16) : (fields (encodeI op rs rt imm)).imm = imm := by
  show BitVec.extractLsb' 0 16 (_ : Word) = _
  unfold encodeI
  rw [BitVec.extractLsb'_append_eq_of_add_le (by omega)]
  exact BitVec.extractLsb'_eq_self
@[simp] theorem fields_encodeJ_op (op : BitVec 6) (t : Target26) : (fields (encodeJ op t)).op = op := by
  show BitVec.extractLsb' 26 6 (_ : Word) = _
  unfold encodeJ
  rw [BitVec.extractLsb'_append_eq_of_le (by omega)]
  exact BitVec.extractLsb'_eq_self
@[simp] theorem fields_encodeJ_target (op : BitVec 6) (t : Target26) : (fields (encodeJ op t)).target = t := by
  show BitVec.extractLsb' 0 26 (_ : Word) = _
  unfold encodeJ
  rw [BitVec.extractLsb'_append_eq_of_add_le (by omega)]
  exact BitVec.extractLsb'_eq_self

/-! ### A word is its fields -/

theorem eq_encodeR (w : Word) :
    w = encodeR (fields w).op (fields w).rs (fields w).rt (fields w).rd (fields w).shamt (fields w).funct := by
  simp only [fields, encodeR]
  rw [BitVec.extractLsb'_append_extractLsb'_eq_extractLsb' (by rfl), BitVec.extractLsb'_append_extractLsb'_eq_extractLsb' (by rfl),
    BitVec.extractLsb'_append_extractLsb'_eq_extractLsb' (by rfl), BitVec.extractLsb'_append_extractLsb'_eq_extractLsb' (by rfl),
    BitVec.extractLsb'_append_extractLsb'_eq_extractLsb' (by rfl)]
  exact BitVec.extractLsb'_eq_self.symm

theorem eq_encodeI (w : Word) : w = encodeI (fields w).op (fields w).rs (fields w).rt (fields w).imm := by
  simp only [fields, encodeI]
  rw [BitVec.extractLsb'_append_extractLsb'_eq_extractLsb' (by rfl), BitVec.extractLsb'_append_extractLsb'_eq_extractLsb' (by rfl),
    BitVec.extractLsb'_append_extractLsb'_eq_extractLsb' (by rfl)]
  exact BitVec.extractLsb'_eq_self.symm

theorem eq_encodeJ (w : Word) : w = encodeJ (fields w).op (fields w).target := by
  simp only [fields, encodeJ]
  rw [BitVec.extractLsb'_append_extractLsb'_eq_extractLsb' (by rfl)]
  exact BitVec.extractLsb'_eq_self.symm

/-! ### Masks -/

theorem encodeR_and (op op' : BitVec 6) (rs rt rd rs' rt' rd' : RegNum) (sh sh' : Shamt) (fn fn' : BitVec 6) :
    encodeR op rs rt rd sh fn &&& encodeR op' rs' rt' rd' sh' fn' =
      encodeR (op &&& op') (rs &&& rs') (rt &&& rt') (rd &&& rd') (sh &&& sh') (fn &&& fn') := by
  simp only [encodeR]
  exact (BitVec.and_append.trans (congrArg (· ++ _) (BitVec.and_append.trans (congrArg (· ++ _)
    (BitVec.and_append.trans (congrArg (· ++ _) (BitVec.and_append.trans (congrArg (· ++ _) BitVec.and_append))))))))

theorem encodeI_and (op op' : BitVec 6) (rs rt rs' rt' : RegNum) (imm imm' : Imm16) :
    encodeI op rs rt imm &&& encodeI op' rs' rt' imm' =
      encodeI (op &&& op') (rs &&& rs') (rt &&& rt') (imm &&& imm') := by
  simp only [encodeI]
  exact (BitVec.and_append.trans (congrArg (· ++ _) (BitVec.and_append.trans (congrArg (· ++ _) BitVec.and_append))))

theorem encodeJ_and (op op' : BitVec 6) (t t' : Target26) :
    encodeJ op t &&& encodeJ op' t' = encodeJ (op &&& op') (t &&& t') := by
  simp only [encodeJ]
  exact BitVec.and_append

end Sys2Proof
end

