-- ==== Sys2Proof/Laws/Exec.lean ====
section
/-! SUPPORT. What every instruction and every step can do, said once: `exec` always answers a next state, and `ExecFrame` bounds how it
differs; `step` is the fetch, `exec` and the end of the cycle. Provers cite these and unfold neither. -/

namespace Sys2Proof.Machine

/-! ### The shape of a register result -/

theorem setReg_writesReg (s : State) (r : RegNum) (v : Word) : WritesReg s (s.setReg r v) r v :=
  ⟨fun k => State.reg_setReg s r k v, rfl⟩

@[simp] theorem setReg_x_entry_zero (v : RegFile) (r : RegNum) (w : Word) :
    RegFile.get (if r = 0#5 then v else v.put r w) 0#5 = v.get 0#5 := by
  split
  · rfl
  · rename_i h
    exact RegFile.get_put_ne _ _ _ _ (Ne.symm h)

/-! ### Every instruction -/

/-- What `exec i s = .next t` leaves alone, for every instruction: the bound on its effect. -/
structure ExecFrame (i : Instr) (s t : State) : Prop where
  cfg : t.cfg = s.cfg
  entryZero : t.x.get 0#5 = s.x.get 0#5
  irqLine : t.irqLine = s.irqLine
  irqPending : t.irqPending = s.irqPending
  cycles : t.cycles = s.cycles
  run : t.run = s.run
  devSeed : t.devSeed = s.devSeed
  traceInstr : t.traceInstr = s.traceInstr
  traceMem : t.traceMem = s.traceMem
  pc : t.pc = if i = .syscall then s.cfg.excVector else s.pc
  consumed : t.consumed = if i = .syscall then none else s.consumed
  brArmed : mayBranch i = false → t.brArmed = s.brArmed
  hiLo : writesHiLo i = false → t.hi = s.hi ∧ t.lo = s.lo
  cp0 : ∀ k, t.cp0Reg k ≠ s.cp0Reg k → (∃ rt, i = .mtc0 rt k) ∨ (i = .syscall ∧ (k = 13#5 ∨ k = 14#5))
  mem : storesMemory i = false → t.mem = s.mem
  memWf : s.mem.wf = true → t.mem.wf = true
  rom : ∀ a, regionOf a = .rom → t.mem.read a = s.mem.read a
  isolatedRam : s.isolated = true → ∀ a, regionOf a = .ram → t.mem.read a = s.mem.read a
  diag : s.diag <+: t.diag
  ioLog : s.ioLog <+: t.ioLog

/-- An instruction that writes one general register. -/
theorem execFrame_setReg (i : Instr) (s : State) (r : RegNum) (v : Word) (hs : i ≠ .syscall) : ExecFrame i s (s.setReg r v) := by
  constructor <;> simp [hs, State.cp0Reg]

/-- A load: the effects of a read, and then the write of one general register. -/
theorem execFrame_read (i : Instr) (s u : State) (r : RegNum) (v : Word) (hs : i ≠ .syscall) (h : ReadEffect s u) :
    ExecFrame i s (u.setReg r v) := by
  obtain ⟨d, l, rfl⟩ := h
  constructor <;> simp [hs, State.cp0Reg]

/-- A store: the effects of a write. -/
theorem execFrame_write (i : Instr) (s t : State) (P : Nat → Prop) (hs : i ≠ .syscall) (hm : storesMemory i = true)
    (h : WriteEffect P s t) : ExecFrame i s t := by
  obtain ⟨m, d, l, rfl, h1, h2, h3, h4⟩ := h
  constructor <;> first | exact h2 | exact h3 | exact h4 | simp [hs, hm, State.cp0Reg]

/-- An instruction that writes HI, LO or both. -/
theorem execFrame_hiLo (i : Instr) (s : State) (hi lo : Word) (hs : i ≠ .syscall) (hw : writesHiLo i = true) :
    ExecFrame i s (s.setHiLo hi lo) := by
  constructor <;> simp [hs, hw, State.cp0Reg]

/-- A jump or a branch, with or without a link. -/
theorem execFrame_branchIf (i : Instr) (s : State) (c : Bool) (b : Word) (hs : i ≠ .syscall) (hb : mayBranch i = true) :
    ExecFrame i s (s.branchIf c b) := by
  constructor <;> simp [hs, hb, State.cp0Reg]

theorem execFrame_linkBranchIf (i : Instr) (s : State) (r : RegNum) (v : Word) (c : Bool) (b : Word) (hs : i ≠ .syscall)
    (hb : mayBranch i = true) : ExecFrame i s ((s.setReg r v).branchIf c b) := by
  constructor <;> simp [hs, hb, State.cp0Reg]

theorem execFrame_mtc0 (s : State) (rt rd : RegNum) : ExecFrame (.mtc0 rt rd) s (s.setCp0 rd (s.reg rt)) := by
  constructor <;> try simp
  intro k hk
  rw [State.cp0Reg_setCp0] at hk
  by_cases e : k = rd
  · exact e.symm
  · exact absurd (if_neg e) hk

theorem execFrame_syscall (s : State) : ExecFrame .syscall s s.raiseSyscall := by
  constructor <;> try simp
  intro k hk
  rw [State.cp0Reg_raiseSyscall] at hk
  by_cases h13 : k = 13#5
  · exact .inl h13
  · by_cases h14 : k = 14#5
    · exact .inr h14
    · exact absurd (by rw [if_neg h13, if_neg h14]) hk

/-- `exec` answers a next state for every instruction in every state, within the bound of `ExecFrame`. -/
theorem exec_next (i : Instr) (s : State) : ∃ t, exec i s = .next t ∧ ExecFrame i s t := by
  cases i with
  | j target => exact ⟨_, rfl, execFrame_branchIf _ s true _ (by simp) rfl⟩
  | jr rs => exact ⟨_, rfl, execFrame_branchIf _ s true _ (by simp) rfl⟩
  | jal target => exact ⟨_, rfl, execFrame_linkBranchIf _ s _ _ true _ (by simp) rfl⟩
  | jalr rd rs => exact ⟨_, rfl, execFrame_linkBranchIf _ s _ _ true _ (by simp) rfl⟩
  | beq rs rt imm => exact ⟨_, rfl, execFrame_branchIf _ s _ _ (by simp) rfl⟩
  | bne rs rt imm => exact ⟨_, rfl, execFrame_branchIf _ s _ _ (by simp) rfl⟩
  | blez rs imm => exact ⟨_, rfl, execFrame_branchIf _ s _ _ (by simp) rfl⟩
  | bgtz rs imm => exact ⟨_, rfl, execFrame_branchIf _ s _ _ (by simp) rfl⟩
  | bltz rs imm => exact ⟨_, rfl, execFrame_branchIf _ s _ _ (by simp) rfl⟩
  | bgez rs imm => exact ⟨_, rfl, execFrame_branchIf _ s _ _ (by simp) rfl⟩
  | bgezal rs imm => exact ⟨_, rfl, execFrame_linkBranchIf _ s _ _ _ _ (by simp) rfl⟩
  | bltzal rs imm => exact ⟨_, rfl, execFrame_linkBranchIf _ s _ _ _ _ (by simp) rfl⟩
  | add rd rs rt => exact ⟨_, rfl, execFrame_setReg _ s _ _ (by simp)⟩
  | addu rd rs rt => exact ⟨_, rfl, execFrame_setReg _ s _ _ (by simp)⟩
  | addi rt rs imm => exact ⟨_, rfl, execFrame_setReg _ s _ _ (by simp)⟩
  | addiu rt rs imm => exact ⟨_, rfl, execFrame_setReg _ s _ _ (by simp)⟩
  | sub rd rs rt => exact ⟨_, rfl, execFrame_setReg _ s _ _ (by simp)⟩
  | subu rd rs rt => exact ⟨_, rfl, execFrame_setReg _ s _ _ (by simp)⟩
  | and rd rs rt => exact ⟨_, rfl, execFrame_setReg _ s _ _ (by simp)⟩
  | andi rt rs imm => exact ⟨_, rfl, execFrame_setReg _ s _ _ (by simp)⟩
  | or rd rs rt => exact ⟨_, rfl, execFrame_setReg _ s _ _ (by simp)⟩
  | ori rt rs imm => exact ⟨_, rfl, execFrame_setReg _ s _ _ (by simp)⟩
  | xor rd rs rt => exact ⟨_, rfl, execFrame_setReg _ s _ _ (by simp)⟩
  | xori rt rs imm => exact ⟨_, rfl, execFrame_setReg _ s _ _ (by simp)⟩
  | nor rd rs rt => exact ⟨_, rfl, execFrame_setReg _ s _ _ (by simp)⟩
  | sll rd rt shamt => exact ⟨_, rfl, execFrame_setReg _ s _ _ (by simp)⟩
  | srl rd rt shamt => exact ⟨_, rfl, execFrame_setReg _ s _ _ (by simp)⟩
  | sra rd rt shamt => exact ⟨_, rfl, execFrame_setReg _ s _ _ (by simp)⟩
  | sllv rd rt rs => exact ⟨_, rfl, execFrame_setReg _ s _ _ (by simp)⟩
  | srlv rd rt rs => exact ⟨_, rfl, execFrame_setReg _ s _ _ (by simp)⟩
  | srav rd rt rs => exact ⟨_, rfl, execFrame_setReg _ s _ _ (by simp)⟩
  | slt rd rs rt => exact ⟨_, rfl, execFrame_setReg _ s _ _ (by simp)⟩
  | sltu rd rs rt => exact ⟨_, rfl, execFrame_setReg _ s _ _ (by simp)⟩
  | slti rt rs imm => exact ⟨_, rfl, execFrame_setReg _ s _ _ (by simp)⟩
  | sltiu rt rs imm => exact ⟨_, rfl, execFrame_setReg _ s _ _ (by simp)⟩
  | lui rt imm => exact ⟨_, rfl, execFrame_setReg _ s _ _ (by simp)⟩
  | mult rs rt => exact ⟨_, rfl, execFrame_hiLo _ s _ _ (by simp) rfl⟩
  | div rs rt => exact ⟨_, rfl, execFrame_hiLo _ s _ _ (by simp) rfl⟩
  | divu rs rt => exact ⟨_, rfl, execFrame_hiLo _ s _ _ (by simp) rfl⟩
  | multu rs rt => exact ⟨_, rfl, execFrame_hiLo _ s _ _ (by simp) rfl⟩
  | mthi rs => exact ⟨_, rfl, execFrame_hiLo _ s _ s.lo (by simp) rfl⟩
  | mtlo rs => exact ⟨_, rfl, execFrame_hiLo _ s s.hi _ (by simp) rfl⟩
  | mfhi rd => exact ⟨_, rfl, execFrame_setReg _ s _ _ (by simp)⟩
  | mflo rd => exact ⟨_, rfl, execFrame_setReg _ s _ _ (by simp)⟩
  | lb rt rs imm => exact ⟨_, rfl, execFrame_read _ s _ _ _ (by simp) (memRead_effect ..)⟩
  | lbu rt rs imm => exact ⟨_, rfl, execFrame_read _ s _ _ _ (by simp) (memRead_effect ..)⟩
  | lh rt rs imm => exact ⟨_, rfl, execFrame_read _ s _ _ _ (by simp) (memRead_effect ..)⟩
  | lhu rt rs imm => exact ⟨_, rfl, execFrame_read _ s _ _ _ (by simp) (memRead_effect ..)⟩
  | lw rt rs imm => exact ⟨_, rfl, execFrame_read _ s _ _ _ (by simp) (memRead_effect ..)⟩
  | lwl rt rs imm => exact ⟨_, rfl, execFrame_read _ s _ _ _ (by simp) (loadBytesInto_effect ..)⟩
  | lwr rt rs imm => exact ⟨_, rfl, execFrame_read _ s _ _ _ (by simp) (loadBytesInto_effect ..)⟩
  | sb rt rs imm => exact ⟨_, rfl, execFrame_write _ s _ _ (by simp) rfl (memWrite_effect ..)⟩
  | sh rt rs imm => exact ⟨_, rfl, execFrame_write _ s _ _ (by simp) rfl (memWrite_effect ..)⟩
  | sw rt rs imm => exact ⟨_, rfl, execFrame_write _ s _ _ (by simp) rfl (memWrite_effect ..)⟩
  | swl rt rs imm => exact ⟨_, rfl, execFrame_write _ s _ _ (by simp) rfl (storeBytesFrom_effect ..)⟩
  | swr rt rs imm => exact ⟨_, rfl, execFrame_write _ s _ _ (by simp) rfl (storeBytesFrom_effect ..)⟩
  | mfc0 rt rd => exact ⟨_, rfl, execFrame_setReg _ s _ _ (by simp)⟩
  | mtc0 rt rd => exact ⟨_, rfl, execFrame_mtc0 s rt rd⟩
  | syscall => exact ⟨_, rfl, execFrame_syscall s⟩

/-! ### The step -/

theorem step_known {s : State} {i : Instr} (hr : s.run = .running) (hd : s.decoded = .known i) :
    ∃ t, exec i s.executing = .next t ∧ ExecFrame i s.executing t ∧ step s = .next t.endCycle := by
  obtain ⟨t, ht, hf⟩ := exec_next i s.executing
  refine ⟨t, ht, hf, ?_⟩
  unfold State.decoded at hd
  unfold State.executing at ht
  simp [step, hr, hd, executeCycle, ht]

theorem step_unknown {s : State} {why : UnknownWord} (hr : s.run = .running) (hd : s.decoded = .unknown why) :
    step s = .next (s.checkpoint.fetch.2.fatalStop s.checkpoint.fetch.1) := by
  unfold State.decoded at hd
  simp [step, hr, hd]

theorem step_fatal {s : State} {fpc fword : Word} (h : s.run = .fatal fpc fword) : step s = .fault (.unimplemented fpc fword) := by
  simp [step, h]

theorem step_stopped {s : State} (h : s.run = .stopped) : step s = .fault .externalStop := by
  simp [step, h]

/-- A step that answers a next state is a completed cycle, or the cycle that stops at an unknown word. -/
theorem step_cases {s t : State} (h : step s = .next t) : s.run = .running ∧
    ((∃ i u, s.decoded = .known i ∧ exec i s.executing = .next u ∧ ExecFrame i s.executing u ∧ t = u.endCycle)
      ∨ ∃ why, s.decoded = .unknown why ∧ t = s.checkpoint.fetch.2.fatalStop s.checkpoint.fetch.1) := by
  cases hr : s.run with
  | fatal fpc fword => rw [step_fatal hr] at h; cases h
  | stopped => rw [step_stopped hr] at h; cases h
  | running =>
    refine ⟨rfl, ?_⟩
    cases hd : s.decoded with
    | known i =>
      obtain ⟨u, hu, hf, hs⟩ := step_known hr hd
      rw [hs] at h
      cases h
      exact .inl ⟨i, u, rfl, hu, hf, rfl⟩
    | unknown why =>
      rw [step_unknown hr hd] at h
      cases h
      exact .inr ⟨why, rfl, rfl⟩

/-- The fetch adds to the diagnostic events and the record of device calls, and does nothing else (R106). -/
theorem fetch_effect (s : State) : ReadEffect s s.fetch.2 := memRead_effect ..

/-! ### Every schedule -/

/-- A property that every event keeps is kept by every schedule. -/
theorem systemRun_keeps {P : State → Prop} (h : ∀ e s t, P s → systemStep e s = .next t → P t) (es : List Event) (s t : State)
    (hs : P s) (hr : systemRun es s = .next t) : P t := by
  induction es generalizing s with
  | nil =>
    cases hr
    exact hs
  | cons e es ih =>
    unfold systemRun at hr
    cases he : systemStep e s with
    | next u =>
      rw [he] at hr
      exact ih u (h e s u hs he) hr
    | fault r =>
      rw [he] at hr
      cases hr
    | refused r =>
      rw [he] at hr
      cases hr

/-- A reflexive and transitive relation that every event respects relates the ends of every schedule. -/
theorem systemRun_relates {R : State → State → Prop} (h0 : ∀ s, R s s) (h1 : ∀ s t u, R s t → R t u → R s u)
    (h : ∀ e s t, systemStep e s = .next t → R s t) (es : List Event) (s t : State) (hr : systemRun es s = .next t) : R s t :=
  systemRun_keeps (P := R s) (fun e u v hu he => h1 s u v hu (h e u v he)) es s t (h0 s) hr

end Sys2Proof.Machine
end

