-- ==== Sys2Proof/Laws/PerInstr.lean ====
section
/-! SUPPORT. Facts about every instruction as syntax, one lemma per constructor. -/

namespace Sys2Proof.Laws

/-- The word the encoder writes carries the fixed bits of the instruction's row in spec/opcode_table.json. -/
def TableRow.Statement (i : Instr) : Prop := encode i &&& i.tableMask = i.tableMatch

theorem TableRow.j (target : Target26) : TableRow.Statement (.j target) := by
  show encode _ &&& 0xFC000000#32 = 0x08000000#32
  rw [show 0xFC000000#32 = encodeJ 0x3F#6 0x0#26 from rfl, encode, encodeJ_and]
  simp only [BitVec.and_zero]
  rfl

theorem TableRow.jal (target : Target26) : TableRow.Statement (.jal target) := by
  show encode _ &&& 0xFC000000#32 = 0x0C000000#32
  rw [show 0xFC000000#32 = encodeJ 0x3F#6 0x0#26 from rfl, encode, encodeJ_and]
  simp only [BitVec.and_zero]
  rfl

theorem TableRow.jr (rs : RegNum) : TableRow.Statement (.jr rs) := by
  show encode _ &&& 0xFC00003F#32 = 0x00000008#32
  rw [show 0xFC00003F#32 = encodeR 0x3F#6 0x0#5 0x0#5 0x0#5 0x0#5 0x3F#6 from rfl, encode, encodeR_and]
  simp only [BitVec.and_zero]
  rfl

theorem TableRow.jalr (rd rs : RegNum) : TableRow.Statement (.jalr rd rs) := by
  show encode _ &&& 0xFC00003F#32 = 0x00000009#32
  rw [show 0xFC00003F#32 = encodeR 0x3F#6 0x0#5 0x0#5 0x0#5 0x0#5 0x3F#6 from rfl, encode, encodeR_and]
  simp only [BitVec.and_zero]
  rfl

theorem TableRow.beq (rs rt : RegNum) (imm : Imm16) : TableRow.Statement (.beq rs rt imm) := by
  show encode _ &&& 0xFC000000#32 = 0x10000000#32
  rw [show 0xFC000000#32 = encodeI 0x3F#6 0x0#5 0x0#5 0x0#16 from rfl, encode, encodeI_and]
  simp only [BitVec.and_zero]
  rfl

theorem TableRow.bne (rs rt : RegNum) (imm : Imm16) : TableRow.Statement (.bne rs rt imm) := by
  show encode _ &&& 0xFC000000#32 = 0x14000000#32
  rw [show 0xFC000000#32 = encodeI 0x3F#6 0x0#5 0x0#5 0x0#16 from rfl, encode, encodeI_and]
  simp only [BitVec.and_zero]
  rfl

theorem TableRow.blez (rs : RegNum) (imm : Imm16) : TableRow.Statement (.blez rs imm) := by
  show encode _ &&& 0xFC000000#32 = 0x18000000#32
  rw [show 0xFC000000#32 = encodeI 0x3F#6 0x0#5 0x0#5 0x0#16 from rfl, encode, encodeI_and]
  simp only [BitVec.and_zero]
  rfl

theorem TableRow.bgtz (rs : RegNum) (imm : Imm16) : TableRow.Statement (.bgtz rs imm) := by
  show encode _ &&& 0xFC000000#32 = 0x1C000000#32
  rw [show 0xFC000000#32 = encodeI 0x3F#6 0x0#5 0x0#5 0x0#16 from rfl, encode, encodeI_and]
  simp only [BitVec.and_zero]
  rfl

theorem TableRow.bltz (rs : RegNum) (imm : Imm16) : TableRow.Statement (.bltz rs imm) := by
  show encode _ &&& 0xFC1F0000#32 = 0x04000000#32
  rw [show 0xFC1F0000#32 = encodeI 0x3F#6 0x0#5 0x1F#5 0x0#16 from rfl, encode, encodeI_and]
  simp only [BitVec.and_zero]
  rfl

theorem TableRow.bgez (rs : RegNum) (imm : Imm16) : TableRow.Statement (.bgez rs imm) := by
  show encode _ &&& 0xFC1F0000#32 = 0x04010000#32
  rw [show 0xFC1F0000#32 = encodeI 0x3F#6 0x0#5 0x1F#5 0x0#16 from rfl, encode, encodeI_and]
  simp only [BitVec.and_zero]
  rfl

theorem TableRow.bgezal (rs : RegNum) (imm : Imm16) : TableRow.Statement (.bgezal rs imm) := by
  show encode _ &&& 0xFC1F0000#32 = 0x04110000#32
  rw [show 0xFC1F0000#32 = encodeI 0x3F#6 0x0#5 0x1F#5 0x0#16 from rfl, encode, encodeI_and]
  simp only [BitVec.and_zero]
  rfl

theorem TableRow.add (rd rs rt : RegNum) : TableRow.Statement (.add rd rs rt) := by
  show encode _ &&& 0xFC00003F#32 = 0x00000020#32
  rw [show 0xFC00003F#32 = encodeR 0x3F#6 0x0#5 0x0#5 0x0#5 0x0#5 0x3F#6 from rfl, encode, encodeR_and]
  simp only [BitVec.and_zero]
  rfl

theorem TableRow.addu (rd rs rt : RegNum) : TableRow.Statement (.addu rd rs rt) := by
  show encode _ &&& 0xFC00003F#32 = 0x00000021#32
  rw [show 0xFC00003F#32 = encodeR 0x3F#6 0x0#5 0x0#5 0x0#5 0x0#5 0x3F#6 from rfl, encode, encodeR_and]
  simp only [BitVec.and_zero]
  rfl

theorem TableRow.addi (rt rs : RegNum) (imm : Imm16) : TableRow.Statement (.addi rt rs imm) := by
  show encode _ &&& 0xFC000000#32 = 0x20000000#32
  rw [show 0xFC000000#32 = encodeI 0x3F#6 0x0#5 0x0#5 0x0#16 from rfl, encode, encodeI_and]
  simp only [BitVec.and_zero]
  rfl

theorem TableRow.addiu (rt rs : RegNum) (imm : Imm16) : TableRow.Statement (.addiu rt rs imm) := by
  show encode _ &&& 0xFC000000#32 = 0x24000000#32
  rw [show 0xFC000000#32 = encodeI 0x3F#6 0x0#5 0x0#5 0x0#16 from rfl, encode, encodeI_and]
  simp only [BitVec.and_zero]
  rfl

theorem TableRow.sub (rd rs rt : RegNum) : TableRow.Statement (.sub rd rs rt) := by
  show encode _ &&& 0xFC00003F#32 = 0x00000022#32
  rw [show 0xFC00003F#32 = encodeR 0x3F#6 0x0#5 0x0#5 0x0#5 0x0#5 0x3F#6 from rfl, encode, encodeR_and]
  simp only [BitVec.and_zero]
  rfl

theorem TableRow.subu (rd rs rt : RegNum) : TableRow.Statement (.subu rd rs rt) := by
  show encode _ &&& 0xFC00003F#32 = 0x00000023#32
  rw [show 0xFC00003F#32 = encodeR 0x3F#6 0x0#5 0x0#5 0x0#5 0x0#5 0x3F#6 from rfl, encode, encodeR_and]
  simp only [BitVec.and_zero]
  rfl

theorem TableRow.and (rd rs rt : RegNum) : TableRow.Statement (.and rd rs rt) := by
  show encode _ &&& 0xFC00003F#32 = 0x00000024#32
  rw [show 0xFC00003F#32 = encodeR 0x3F#6 0x0#5 0x0#5 0x0#5 0x0#5 0x3F#6 from rfl, encode, encodeR_and]
  simp only [BitVec.and_zero]
  rfl

theorem TableRow.andi (rt rs : RegNum) (imm : Imm16) : TableRow.Statement (.andi rt rs imm) := by
  show encode _ &&& 0xFC000000#32 = 0x30000000#32
  rw [show 0xFC000000#32 = encodeI 0x3F#6 0x0#5 0x0#5 0x0#16 from rfl, encode, encodeI_and]
  simp only [BitVec.and_zero]
  rfl

theorem TableRow.or (rd rs rt : RegNum) : TableRow.Statement (.or rd rs rt) := by
  show encode _ &&& 0xFC00003F#32 = 0x00000025#32
  rw [show 0xFC00003F#32 = encodeR 0x3F#6 0x0#5 0x0#5 0x0#5 0x0#5 0x3F#6 from rfl, encode, encodeR_and]
  simp only [BitVec.and_zero]
  rfl

theorem TableRow.ori (rt rs : RegNum) (imm : Imm16) : TableRow.Statement (.ori rt rs imm) := by
  show encode _ &&& 0xFC000000#32 = 0x34000000#32
  rw [show 0xFC000000#32 = encodeI 0x3F#6 0x0#5 0x0#5 0x0#16 from rfl, encode, encodeI_and]
  simp only [BitVec.and_zero]
  rfl

theorem TableRow.xor (rd rs rt : RegNum) : TableRow.Statement (.xor rd rs rt) := by
  show encode _ &&& 0xFC00003F#32 = 0x00000026#32
  rw [show 0xFC00003F#32 = encodeR 0x3F#6 0x0#5 0x0#5 0x0#5 0x0#5 0x3F#6 from rfl, encode, encodeR_and]
  simp only [BitVec.and_zero]
  rfl

theorem TableRow.xori (rt rs : RegNum) (imm : Imm16) : TableRow.Statement (.xori rt rs imm) := by
  show encode _ &&& 0xFC000000#32 = 0x38000000#32
  rw [show 0xFC000000#32 = encodeI 0x3F#6 0x0#5 0x0#5 0x0#16 from rfl, encode, encodeI_and]
  simp only [BitVec.and_zero]
  rfl

theorem TableRow.nor (rd rs rt : RegNum) : TableRow.Statement (.nor rd rs rt) := by
  show encode _ &&& 0xFC00003F#32 = 0x00000027#32
  rw [show 0xFC00003F#32 = encodeR 0x3F#6 0x0#5 0x0#5 0x0#5 0x0#5 0x3F#6 from rfl, encode, encodeR_and]
  simp only [BitVec.and_zero]
  rfl

theorem TableRow.sll (rd rt : RegNum) (shamt : Shamt) : TableRow.Statement (.sll rd rt shamt) := by
  show encode _ &&& 0xFC00003F#32 = 0x00000000#32
  rw [show 0xFC00003F#32 = encodeR 0x3F#6 0x0#5 0x0#5 0x0#5 0x0#5 0x3F#6 from rfl, encode, encodeR_and]
  simp only [BitVec.and_zero]
  rfl

theorem TableRow.srl (rd rt : RegNum) (shamt : Shamt) : TableRow.Statement (.srl rd rt shamt) := by
  show encode _ &&& 0xFC00003F#32 = 0x00000002#32
  rw [show 0xFC00003F#32 = encodeR 0x3F#6 0x0#5 0x0#5 0x0#5 0x0#5 0x3F#6 from rfl, encode, encodeR_and]
  simp only [BitVec.and_zero]
  rfl

theorem TableRow.sra (rd rt : RegNum) (shamt : Shamt) : TableRow.Statement (.sra rd rt shamt) := by
  show encode _ &&& 0xFC00003F#32 = 0x00000003#32
  rw [show 0xFC00003F#32 = encodeR 0x3F#6 0x0#5 0x0#5 0x0#5 0x0#5 0x3F#6 from rfl, encode, encodeR_and]
  simp only [BitVec.and_zero]
  rfl

theorem TableRow.sllv (rd rt rs : RegNum) : TableRow.Statement (.sllv rd rt rs) := by
  show encode _ &&& 0xFC00003F#32 = 0x00000004#32
  rw [show 0xFC00003F#32 = encodeR 0x3F#6 0x0#5 0x0#5 0x0#5 0x0#5 0x3F#6 from rfl, encode, encodeR_and]
  simp only [BitVec.and_zero]
  rfl

theorem TableRow.srlv (rd rt rs : RegNum) : TableRow.Statement (.srlv rd rt rs) := by
  show encode _ &&& 0xFC00003F#32 = 0x00000006#32
  rw [show 0xFC00003F#32 = encodeR 0x3F#6 0x0#5 0x0#5 0x0#5 0x0#5 0x3F#6 from rfl, encode, encodeR_and]
  simp only [BitVec.and_zero]
  rfl

theorem TableRow.srav (rd rt rs : RegNum) : TableRow.Statement (.srav rd rt rs) := by
  show encode _ &&& 0xFC00003F#32 = 0x00000007#32
  rw [show 0xFC00003F#32 = encodeR 0x3F#6 0x0#5 0x0#5 0x0#5 0x0#5 0x3F#6 from rfl, encode, encodeR_and]
  simp only [BitVec.and_zero]
  rfl

theorem TableRow.slt (rd rs rt : RegNum) : TableRow.Statement (.slt rd rs rt) := by
  show encode _ &&& 0xFC00003F#32 = 0x0000002A#32
  rw [show 0xFC00003F#32 = encodeR 0x3F#6 0x0#5 0x0#5 0x0#5 0x0#5 0x3F#6 from rfl, encode, encodeR_and]
  simp only [BitVec.and_zero]
  rfl

theorem TableRow.sltu (rd rs rt : RegNum) : TableRow.Statement (.sltu rd rs rt) := by
  show encode _ &&& 0xFC00003F#32 = 0x0000002B#32
  rw [show 0xFC00003F#32 = encodeR 0x3F#6 0x0#5 0x0#5 0x0#5 0x0#5 0x3F#6 from rfl, encode, encodeR_and]
  simp only [BitVec.and_zero]
  rfl

theorem TableRow.slti (rt rs : RegNum) (imm : Imm16) : TableRow.Statement (.slti rt rs imm) := by
  show encode _ &&& 0xFC000000#32 = 0x28000000#32
  rw [show 0xFC000000#32 = encodeI 0x3F#6 0x0#5 0x0#5 0x0#16 from rfl, encode, encodeI_and]
  simp only [BitVec.and_zero]
  rfl

theorem TableRow.sltiu (rt rs : RegNum) (imm : Imm16) : TableRow.Statement (.sltiu rt rs imm) := by
  show encode _ &&& 0xFC000000#32 = 0x2C000000#32
  rw [show 0xFC000000#32 = encodeI 0x3F#6 0x0#5 0x0#5 0x0#16 from rfl, encode, encodeI_and]
  simp only [BitVec.and_zero]
  rfl

theorem TableRow.lui (rt : RegNum) (imm : Imm16) : TableRow.Statement (.lui rt imm) := by
  show encode _ &&& 0xFC000000#32 = 0x3C000000#32
  rw [show 0xFC000000#32 = encodeI 0x3F#6 0x0#5 0x0#5 0x0#16 from rfl, encode, encodeI_and]
  simp only [BitVec.and_zero]
  rfl

theorem TableRow.mult (rs rt : RegNum) : TableRow.Statement (.mult rs rt) := by
  show encode _ &&& 0xFC00003F#32 = 0x00000018#32
  rw [show 0xFC00003F#32 = encodeR 0x3F#6 0x0#5 0x0#5 0x0#5 0x0#5 0x3F#6 from rfl, encode, encodeR_and]
  simp only [BitVec.and_zero]
  rfl

theorem TableRow.div (rs rt : RegNum) : TableRow.Statement (.div rs rt) := by
  show encode _ &&& 0xFC00003F#32 = 0x0000001A#32
  rw [show 0xFC00003F#32 = encodeR 0x3F#6 0x0#5 0x0#5 0x0#5 0x0#5 0x3F#6 from rfl, encode, encodeR_and]
  simp only [BitVec.and_zero]
  rfl

theorem TableRow.divu (rs rt : RegNum) : TableRow.Statement (.divu rs rt) := by
  show encode _ &&& 0xFC00003F#32 = 0x0000001B#32
  rw [show 0xFC00003F#32 = encodeR 0x3F#6 0x0#5 0x0#5 0x0#5 0x0#5 0x3F#6 from rfl, encode, encodeR_and]
  simp only [BitVec.and_zero]
  rfl

theorem TableRow.lb (rt rs : RegNum) (imm : Imm16) : TableRow.Statement (.lb rt rs imm) := by
  show encode _ &&& 0xFC000000#32 = 0x80000000#32
  rw [show 0xFC000000#32 = encodeI 0x3F#6 0x0#5 0x0#5 0x0#16 from rfl, encode, encodeI_and]
  simp only [BitVec.and_zero]
  rfl

theorem TableRow.lbu (rt rs : RegNum) (imm : Imm16) : TableRow.Statement (.lbu rt rs imm) := by
  show encode _ &&& 0xFC000000#32 = 0x90000000#32
  rw [show 0xFC000000#32 = encodeI 0x3F#6 0x0#5 0x0#5 0x0#16 from rfl, encode, encodeI_and]
  simp only [BitVec.and_zero]
  rfl

theorem TableRow.lh (rt rs : RegNum) (imm : Imm16) : TableRow.Statement (.lh rt rs imm) := by
  show encode _ &&& 0xFC000000#32 = 0x84000000#32
  rw [show 0xFC000000#32 = encodeI 0x3F#6 0x0#5 0x0#5 0x0#16 from rfl, encode, encodeI_and]
  simp only [BitVec.and_zero]
  rfl

theorem TableRow.lhu (rt rs : RegNum) (imm : Imm16) : TableRow.Statement (.lhu rt rs imm) := by
  show encode _ &&& 0xFC000000#32 = 0x94000000#32
  rw [show 0xFC000000#32 = encodeI 0x3F#6 0x0#5 0x0#5 0x0#16 from rfl, encode, encodeI_and]
  simp only [BitVec.and_zero]
  rfl

theorem TableRow.lw (rt rs : RegNum) (imm : Imm16) : TableRow.Statement (.lw rt rs imm) := by
  show encode _ &&& 0xFC000000#32 = 0x8C000000#32
  rw [show 0xFC000000#32 = encodeI 0x3F#6 0x0#5 0x0#5 0x0#16 from rfl, encode, encodeI_and]
  simp only [BitVec.and_zero]
  rfl

theorem TableRow.sb (rt rs : RegNum) (imm : Imm16) : TableRow.Statement (.sb rt rs imm) := by
  show encode _ &&& 0xFC000000#32 = 0xA0000000#32
  rw [show 0xFC000000#32 = encodeI 0x3F#6 0x0#5 0x0#5 0x0#16 from rfl, encode, encodeI_and]
  simp only [BitVec.and_zero]
  rfl

theorem TableRow.sh (rt rs : RegNum) (imm : Imm16) : TableRow.Statement (.sh rt rs imm) := by
  show encode _ &&& 0xFC000000#32 = 0xA4000000#32
  rw [show 0xFC000000#32 = encodeI 0x3F#6 0x0#5 0x0#5 0x0#16 from rfl, encode, encodeI_and]
  simp only [BitVec.and_zero]
  rfl

theorem TableRow.sw (rt rs : RegNum) (imm : Imm16) : TableRow.Statement (.sw rt rs imm) := by
  show encode _ &&& 0xFC000000#32 = 0xAC000000#32
  rw [show 0xFC000000#32 = encodeI 0x3F#6 0x0#5 0x0#5 0x0#16 from rfl, encode, encodeI_and]
  simp only [BitVec.and_zero]
  rfl

theorem TableRow.mfc0 (rt rd : RegNum) : TableRow.Statement (.mfc0 rt rd) := by
  show encode _ &&& 0xFFE00000#32 = 0x40000000#32
  rw [show 0xFFE00000#32 = encodeR 0x3F#6 0x1F#5 0x0#5 0x0#5 0x0#5 0x0#6 from rfl, encode, encodeR_and]
  simp only [BitVec.and_zero]
  rfl

theorem TableRow.mtc0 (rt rd : RegNum) : TableRow.Statement (.mtc0 rt rd) := by
  show encode _ &&& 0xFFE00000#32 = 0x40800000#32
  rw [show 0xFFE00000#32 = encodeR 0x3F#6 0x1F#5 0x0#5 0x0#5 0x0#5 0x0#6 from rfl, encode, encodeR_and]
  simp only [BitVec.and_zero]
  rfl

theorem TableRow.syscall : TableRow.Statement (.syscall) := by
  show encode _ &&& 0xFC00003F#32 = 0x0000000C#32
  rw [show 0xFC00003F#32 = encodeR 0x3F#6 0x0#5 0x0#5 0x0#5 0x0#5 0x3F#6 from rfl, encode, encodeR_and]
  rfl

theorem TableRow.multu (rs rt : RegNum) : TableRow.Statement (.multu rs rt) := by
  show encode _ &&& 0xFC00003F#32 = 0x00000019#32
  rw [show 0xFC00003F#32 = encodeR 0x3F#6 0x0#5 0x0#5 0x0#5 0x0#5 0x3F#6 from rfl, encode, encodeR_and]
  simp only [BitVec.and_zero]
  rfl

theorem TableRow.mfhi (rd : RegNum) : TableRow.Statement (.mfhi rd) := by
  show encode _ &&& 0xFC00003F#32 = 0x00000010#32
  rw [show 0xFC00003F#32 = encodeR 0x3F#6 0x0#5 0x0#5 0x0#5 0x0#5 0x3F#6 from rfl, encode, encodeR_and]
  simp only [BitVec.and_zero]
  rfl

theorem TableRow.mthi (rs : RegNum) : TableRow.Statement (.mthi rs) := by
  show encode _ &&& 0xFC00003F#32 = 0x00000011#32
  rw [show 0xFC00003F#32 = encodeR 0x3F#6 0x0#5 0x0#5 0x0#5 0x0#5 0x3F#6 from rfl, encode, encodeR_and]
  simp only [BitVec.and_zero]
  rfl

theorem TableRow.mflo (rd : RegNum) : TableRow.Statement (.mflo rd) := by
  show encode _ &&& 0xFC00003F#32 = 0x00000012#32
  rw [show 0xFC00003F#32 = encodeR 0x3F#6 0x0#5 0x0#5 0x0#5 0x0#5 0x3F#6 from rfl, encode, encodeR_and]
  simp only [BitVec.and_zero]
  rfl

theorem TableRow.mtlo (rs : RegNum) : TableRow.Statement (.mtlo rs) := by
  show encode _ &&& 0xFC00003F#32 = 0x00000013#32
  rw [show 0xFC00003F#32 = encodeR 0x3F#6 0x0#5 0x0#5 0x0#5 0x0#5 0x3F#6 from rfl, encode, encodeR_and]
  simp only [BitVec.and_zero]
  rfl

theorem TableRow.bltzal (rs : RegNum) (imm : Imm16) : TableRow.Statement (.bltzal rs imm) := by
  show encode _ &&& 0xFC1F0000#32 = 0x04100000#32
  rw [show 0xFC1F0000#32 = encodeI 0x3F#6 0x0#5 0x1F#5 0x0#16 from rfl, encode, encodeI_and]
  simp only [BitVec.and_zero]
  rfl

theorem TableRow.lwl (rt rs : RegNum) (imm : Imm16) : TableRow.Statement (.lwl rt rs imm) := by
  show encode _ &&& 0xFC000000#32 = 0x88000000#32
  rw [show 0xFC000000#32 = encodeI 0x3F#6 0x0#5 0x0#5 0x0#16 from rfl, encode, encodeI_and]
  simp only [BitVec.and_zero]
  rfl

theorem TableRow.lwr (rt rs : RegNum) (imm : Imm16) : TableRow.Statement (.lwr rt rs imm) := by
  show encode _ &&& 0xFC000000#32 = 0x98000000#32
  rw [show 0xFC000000#32 = encodeI 0x3F#6 0x0#5 0x0#5 0x0#16 from rfl, encode, encodeI_and]
  simp only [BitVec.and_zero]
  rfl

theorem TableRow.swl (rt rs : RegNum) (imm : Imm16) : TableRow.Statement (.swl rt rs imm) := by
  show encode _ &&& 0xFC000000#32 = 0xA8000000#32
  rw [show 0xFC000000#32 = encodeI 0x3F#6 0x0#5 0x0#5 0x0#16 from rfl, encode, encodeI_and]
  simp only [BitVec.and_zero]
  rfl

theorem TableRow.swr (rt rs : RegNum) (imm : Imm16) : TableRow.Statement (.swr rt rs imm) := by
  show encode _ &&& 0xFC000000#32 = 0xB8000000#32
  rw [show 0xFC000000#32 = encodeI 0x3F#6 0x0#5 0x0#5 0x0#16 from rfl, encode, encodeI_and]
  simp only [BitVec.and_zero]
  rfl

end Sys2Proof.Laws
end

