-- ==== Sys2Proof/Laws/Unaligned.lean ====
section
/-! SUPPORT. The byte loops of the unaligned pairs (46_extended.md R346-R349): what each gives where its bytes are bytes the core holds. -/

namespace Sys2Proof.Machine

/-! ### The bytes of an aligned word -/

theorem wordAligned_toNat (a : Word) : (wordAligned a).toNat = a.toNat - a.toNat % 4 := by
  have h : wordAligned a = (a >>> 2) <<< 2 := by
    apply BitVec.eq_of_getLsbD_eq
    intro i hi
    simp only [wordAligned, BitVec.getLsbD_and, BitVec.getLsbD_shiftLeft, BitVec.getLsbD_ushiftRight]
    have hc : (0xFFFFFFFC#32).getLsbD i = decide (2 ≤ i) := by
      interval_cases i <;> rfl
    rw [hc]
    by_cases h2 : i < 2
    · simp [h2]
    · simp [h2, hi, show 2 ≤ i by omega, show 2 + (i - 2) = i by omega]
  have := a.isLt
  rw [h, BitVec.toNat_shiftLeft, BitVec.toNat_ushiftRight, Nat.shiftRight_eq_div_pow, Nat.shiftLeft_eq]
  omega

theorem byteInWord_eq (a : Word) : byteInWord a = a.toNat % 4 := by
  rw [byteInWord, BitVec.toNat_and]
  exact Nat.and_two_pow_sub_one_eq_mod _ 2

theorem toNat_add_small {a : Word} (ha : a.toNat % 4 = 0) {j : Nat} (hj : j < 4) : (a + BitVec.ofNat 32 j).toNat = a.toNat + j := by
  have := a.isLt
  rw [BitVec.toNat_add, BitVec.toNat_ofNat]
  omega

/-- No aligned word crosses an edge of the window of R71. -/
theorem inCacheControl_add {a : Word} (ha : a.toNat % 4 = 0) {j : Nat} (hj : j < 4) :
    inCacheControl (a + BitVec.ofNat 32 j) = inCacheControl a := by
  unfold inCacheControl
  rw [toNat_add_small ha hj]
  congr 1 <;> simp only [decide_eq_decide] <;> omega

/-- No aligned word crosses an edge of a segment (R72). -/
theorem translateAddr_add {a : Word} (ha : a.toNat % 4 = 0) {j : Nat} (hj : j < 4) :
    translateAddr (a + BitVec.ofNat 32 j) = translateAddr a + BitVec.ofNat 32 j := by
  unfold translateAddr
  have e1 : (0xA0000000 ≤ (a + BitVec.ofNat 32 j).toNat) = (0xA0000000 ≤ a.toNat) := by
    rw [toNat_add_small ha hj]; exact propext ⟨fun h => by omega, fun h => by omega⟩
  have e2 : (0x80000000 ≤ (a + BitVec.ofNat 32 j).toNat) = (0x80000000 ≤ a.toNat) := by
    rw [toNat_add_small ha hj]; exact propext ⟨fun h => by omega, fun h => by omega⟩
  simp only [e1, e2]
  split
  · rw [BitVec.sub_eq_add_neg, BitVec.sub_eq_add_neg, BitVec.add_assoc, BitVec.add_assoc, BitVec.add_comm (BitVec.ofNat 32 j)]
  · split
    · rw [BitVec.sub_eq_add_neg, BitVec.sub_eq_add_neg, BitVec.add_assoc, BitVec.add_assoc, BitVec.add_comm (BitVec.ofNat 32 j)]
    · rfl

/-- The four bytes of an aligned word have four physical addresses. -/
theorem translateAddr_inj {a : Word} (ha : a.toNat % 4 = 0) {i j : Nat} (hi : i < 4) (hj : j < 4)
    (h : translateAddr (a + BitVec.ofNat 32 i) = translateAddr (a + BitVec.ofNat 32 j)) : i = j := by
  rw [translateAddr_add ha hi, translateAddr_add ha hj] at h
  have h := congrArg BitVec.toNat h
  have := (translateAddr a).isLt
  simp only [BitVec.toNat_add, BitVec.toNat_ofNat] at h
  omega

theorem lt_of_ram {q : Nat} (h : regionOf q = .ram) : q < 0x200000 := by
  unfold regionOf at h
  repeat' split at h
  all_goals first
    | omega
    | cases h

/-- Four bytes that all lie in RAM cross no edge of a segment or of the window, aligned or not. -/
theorem translateAddr_add_of_ram {a : Word} (h : ∀ j < 4, regionOf (translateAddr a + BitVec.ofNat 32 j).toNat = .ram) {j : Nat}
    (hj : j < 4) : inCacheControl (a + BitVec.ofNat 32 j) = false
      ∧ translateAddr (a + BitVec.ofNat 32 j) = translateAddr a + BitVec.ofNat 32 j := by
  have r0 := lt_of_ram (h 0 (by omega))
  have r1 := lt_of_ram (h 1 (by omega))
  have r2 := lt_of_ram (h 2 (by omega))
  have r3 := lt_of_ram (h 3 (by omega))
  have ha := a.isLt
  simp only [BitVec.toNat_add, BitVec.toNat_ofNat] at r0 r1 r2 r3
  have hn : (translateAddr a).toNat = if 0xA0000000 ≤ a.toNat then a.toNat - 0xA0000000
      else if 0x80000000 ≤ a.toNat then a.toNat - 0x80000000 else a.toNat := by
    unfold translateAddr
    split
    · rw [BitVec.toNat_sub]; simp; omega
    · split
      · rw [BitVec.toNat_sub]; simp; omega
      · rfl
  rw [hn] at r0 r1 r2 r3
  have hj' : (a + BitVec.ofNat 32 j).toNat = a.toNat + j := by
    rw [BitVec.toNat_add, BitVec.toNat_ofNat]
    split_ifs at * <;> omega
  constructor
  · simp only [inCacheControl, hj']
    simp
    split_ifs at * <;> omega
  · apply BitVec.eq_of_toNat_eq
    rw [BitVec.toNat_add, hn]
    unfold translateAddr
    rw [hj']
    split_ifs at * <;> simp [BitVec.toNat_sub, BitVec.toNat_add] <;> omega

/-! ### Reads -/

/-- A single-byte read of a byte the core holds. -/
theorem memRead_one_backed {a : Word} {s : State} (hw : inCacheControl a = false)
    (h : (regionOf (translateAddr a).toNat).backed = true) : memRead a 1 s = ((s.byteAt (translateAddr a)).setWidth 32, s) := by
  rw [memRead_backed hw (fun j hj => by rw [show j = 0 by omega]; simpa using h)]
  simp

theorem loadBytesInto_backed (c : Nat) (a : Word) (k : Nat) (v : Word) (s : State) (hk : k + c ≤ 4)
    (h : ∀ j < c, inCacheControl (a + BitVec.ofNat 32 j) = false
      ∧ (regionOf (translateAddr (a + BitVec.ofNat 32 j)).toNat).backed = true) :
    (loadBytesInto c a k v s).2 = s ∧ ∀ j < 4, getByte (loadBytesInto c a k v s).1 j =
      if k ≤ j ∧ j < k + c then s.byteAt (translateAddr (a + BitVec.ofNat 32 (j - k))) else getByte v j := by
  induction c generalizing a k v with
  | zero =>
    refine ⟨rfl, fun j _ => ?_⟩
    rw [if_neg (by omega)]
    rfl
  | succ c ih =>
    obtain ⟨h0, h0'⟩ := h 0 (by omega)
    simp only [BitVec.add_zero] at h0 h0'
    have hr := memRead_one_backed (s := s) h0 h0'
    have hs := ih (a + 1#32) (k + 1) (setByte v k (s.byteAt (translateAddr a))) (by omega)
      (fun j hj => by rw [ofNat_succ]; exact h (j + 1) (by omega))
    have e : loadBytesInto (c + 1) a k v s = loadBytesInto c (a + 1#32) (k + 1) (setByte v k (s.byteAt (translateAddr a))) s := by
      rw [loadBytesInto, hr]
      simp
    rw [e]
    refine ⟨hs.1, fun j hj => ?_⟩
    rw [hs.2 j hj]
    by_cases h1 : k + 1 ≤ j ∧ j < k + 1 + c
    · rw [if_pos h1, if_pos (by omega), ofNat_succ, show j - (k + 1) + 1 = j - k by omega]
    · rw [if_neg h1, getByte_setByte _ _ _ hj]
      by_cases h2 : j = k
      · subst h2
        rw [if_pos rfl, if_pos (by omega)]
        simp
      · rw [if_neg h2, if_neg (by omega)]

/-- A single-byte read outside the window is the read of the one byte. -/
theorem memRead_one {a : Word} {s : State} (hw : inCacheControl a = false) :
    memRead a 1 s = ((readByte 1 (translateAddr a) s).1.setWidth 32, (readByte 1 (translateAddr a) s).2) := by
  rw [memRead_of_not_window hw]
  simp [readBytes]

/-- R346, R347 with R90: the byte reads of LWL and LWR, whatever the regions of their bytes. -/
theorem loadBytesInto_each (c : Nat) (a : Word) (k : Nat) (v : Word) (s : State) (hk : k + c ≤ 4)
    (h : ∀ j < c, inCacheControl (a + BitVec.ofNat 32 j) = false) :
    ∃ b : Nat → Byte, (∀ j < c, s.Answers (translateAddr (a + BitVec.ofNat 32 j)) (b j))
      ∧ (loadBytesInto c a k v s).2 = s.recordReads 1 ((List.range c).map fun j => (translateAddr (a + BitVec.ofNat 32 j), b j))
      ∧ ∀ j < 4, getByte (loadBytesInto c a k v s).1 j = if k ≤ j ∧ j < k + c then b (j - k) else getByte v j := by
  induction c generalizing a k v s with
  | zero =>
    refine ⟨fun _ => 0#8, fun j hj => absurd hj (by omega), by simp [loadBytesInto, State.recordReads], fun j _ => ?_⟩
    rw [if_neg (by omega)]
    rfl
  | succ c ih =>
    have h0 := h 0 (by omega)
    rw [BitVec.add_zero] at h0
    obtain ⟨h1, h2⟩ := readByte_each 1 (translateAddr a) s
    obtain ⟨b, g1, g2, g3⟩ := ih (a + 1#32) (k + 1) (setByte v k (readByte 1 (translateAddr a) s).1) (readByte 1 (translateAddr a) s).2
      (by omega) (fun j hj => by rw [ofNat_succ]; exact h (j + 1) (by omega))
    have e : loadBytesInto (c + 1) a k v s = loadBytesInto c (a + 1#32) (k + 1) (setByte v k (readByte 1 (translateAddr a) s).1)
        (readByte 1 (translateAddr a) s).2 := by
      rw [loadBytesInto, memRead_one h0]
      simp
    rw [e]
    refine ⟨fun j => j.casesOn (readByte 1 (translateAddr a) s).1 b, fun j hj => ?_, ?_, fun j hj => ?_⟩
    · cases j with
      | zero => simpa using h1
      | succ j =>
        have := g1 j (by omega)
        rw [h2, ofNat_succ] at this
        exact this
    · rw [g2, h2, State.recordReads_cons]
      simp [List.range_succ_eq_map, Function.comp_def, ofNat_succ]
    · rw [g3 j hj]
      by_cases hlt : k + 1 ≤ j ∧ j < k + 1 + c
      · rw [if_pos hlt, if_pos (by omega)]
        obtain ⟨i, rfl⟩ : ∃ i, j = k + 1 + i := ⟨j - (k + 1), by omega⟩
        simp [show k + 1 + i - k = i + 1 by omega]
      · rw [if_neg hlt, getByte_setByte _ _ _ hj]
        by_cases hk' : j = k
        · subst hk'
          simp
        · rw [if_neg hk', if_neg (by omega)]

/-- The byte reads of LWL and LWR inside the window give zeros and have no effect (R71). -/
theorem loadBytesInto_window (c : Nat) (a : Word) (k : Nat) (v : Word) (s : State) (hk : k + c ≤ 4)
    (h : ∀ j < c, inCacheControl (a + BitVec.ofNat 32 j) = true) :
    (loadBytesInto c a k v s).2 = s
      ∧ ∀ j < 4, getByte (loadBytesInto c a k v s).1 j = if k ≤ j ∧ j < k + c then 0#8 else getByte v j := by
  induction c generalizing a k v with
  | zero =>
    refine ⟨rfl, fun j _ => ?_⟩
    rw [if_neg (by omega)]
    rfl
  | succ c ih =>
    have h0 := h 0 (by omega)
    rw [BitVec.add_zero] at h0
    obtain ⟨g1, g2⟩ := ih (a + 1#32) (k + 1) (setByte v k 0#8) (by omega) (fun j hj => by rw [ofNat_succ]; exact h (j + 1) (by omega))
    have e : loadBytesInto (c + 1) a k v s = loadBytesInto c (a + 1#32) (k + 1) (setByte v k 0#8) s := by
      rw [loadBytesInto, memRead_window h0]
      rfl
    rw [e]
    refine ⟨g1, fun j hj => ?_⟩
    rw [g2 j hj, getByte_setByte _ _ _ hj]
    split_ifs <;> first | rfl | omega

/-! ### Writes -/

/-- A single-byte write to a byte that takes it. -/
theorem memWrite_one_writable {a : Word} {b : Byte} {s : State} (hw : inCacheControl a = false) (h : s.Writable (translateAddr a)) :
    memWrite a 1 (b.setWidth 32) s = { s with mem := s.mem.write (translateAddr a).toNat b } := by
  rw [memWrite_of_not_window hw, writeBytes, writeByte_writable h, writeBytes]
  simp

/-- A single-byte write outside the window is the write of the one byte. -/
theorem memWrite_one {a : Word} {b : Byte} {s : State} (hw : inCacheControl a = false) :
    memWrite a 1 (b.setWidth 32) s = writeByte 1 (translateAddr a) b s := by
  rw [memWrite_of_not_window hw]
  simp [writeBytes]

/-- R348, R349 with R91: the byte writes of SWL and SWR, whatever the regions of their bytes. -/
theorem storeBytesFrom_each (c : Nat) (a : Word) (k : Nat) (v : Word) (s : State) (hm : s.mem.wf = true)
    (h : ∀ j < c, inCacheControl (a + BitVec.ofNat 32 j) = false)
    (hd : ∀ i < c, ∀ j < c, translateAddr (a + BitVec.ofNat 32 i) = translateAddr (a + BitVec.ofNat 32 j) → i = j) :
    (∃ m, storeBytesFrom c a k v s = { s.recordWrites 1
        ((List.range c).map fun j => (translateAddr (a + BitVec.ofNat 32 j), getByte v (k + j))) with mem := m })
      ∧ (∀ j < c, (storeBytesFrom c a k v s).byteAt (translateAddr (a + BitVec.ofNat 32 j)) =
          if s.Writable (translateAddr (a + BitVec.ofNat 32 j)) then getByte v (k + j)
          else s.byteAt (translateAddr (a + BitVec.ofNat 32 j)))
      ∧ ∀ q, (∀ j < c, q ≠ translateAddr (a + BitVec.ofNat 32 j)) → (storeBytesFrom c a k v s).byteAt q = s.byteAt q := by
  induction c generalizing a k s with
  | zero => exact ⟨⟨s.mem, by simp [storeBytesFrom, State.recordWrites]⟩, fun j hj => absurd hj (by omega), fun q _ => rfl⟩
  | succ c ih =>
    have h0 := h 0 (by omega)
    rw [BitVec.add_zero] at h0
    obtain ⟨⟨m, e1⟩, e2, e3⟩ := ih (a + 1#32) (k + 1) (writeByte 1 (translateAddr a) (getByte v k) s)
      (by
        rw [writeByte_each]
        split
        · exact Memory.wf_write _ hm (State.Writable.backed ‹_›)
        · exact hm)
      (fun j hj => by rw [ofNat_succ]; exact h (j + 1) (by omega))
      (fun i hi j hj e => by
        rw [ofNat_succ, ofNat_succ] at e
        have := hd (i + 1) (by omega) (j + 1) (by omega) e
        omega)
    have hw : ∀ q, (writeByte 1 (translateAddr a) (getByte v k) s).Writable q ↔ s.Writable q := fun q => by
      rw [writeByte_each]
      exact Iff.rfl
    have e : storeBytesFrom (c + 1) a k v s
        = storeBytesFrom c (a + 1#32) (k + 1) v (writeByte 1 (translateAddr a) (getByte v k) s) := by
      rw [storeBytesFrom, memWrite_one h0]
    have hne : ∀ j < c, translateAddr (a + BitVec.ofNat 32 (j + 1)) ≠ translateAddr a := fun j hj e' => by
      have := hd (j + 1) (by omega) 0 (by omega) (by simpa using e')
      omega
    rw [e]
    refine ⟨⟨m, ?_⟩, fun j hj => ?_, fun q hq => ?_⟩
    · rw [e1, writeByte_each, State.recordWrites_cons]
      simp [List.range_succ_eq_map, Function.comp_def, ofNat_succ, Nat.add_assoc, Nat.add_comm 1]
    · cases j with
      | zero =>
        rw [e3, byteAt_writeByte _ _ _ _ hm]
        · simp
        · intro i hi e'
          rw [ofNat_succ] at e'
          exact hne i hi (by simpa using e'.symm)
      | succ j =>
        have := e2 j (by omega)
        simp only [ofNat_succ, hw, byteAt_writeByte _ _ _ _ hm, hne j (by omega), false_and, if_false] at this
        rw [this, show k + 1 + j = k + (j + 1) by omega]
    · rw [e3, byteAt_writeByte _ _ _ _ hm, if_neg]
      · exact fun hq' => hq 0 (by omega) (by simpa using hq'.1)
      · intro j hj
        rw [ofNat_succ]
        exact hq (j + 1) (by omega)

/-- The byte writes of SWL and SWR inside the window have no effect (R71). -/
theorem storeBytesFrom_window (c : Nat) (a : Word) (k : Nat) (v : Word) (s : State)
    (h : ∀ j < c, inCacheControl (a + BitVec.ofNat 32 j) = true) : storeBytesFrom c a k v s = s := by
  induction c generalizing a k with
  | zero => rfl
  | succ c ih =>
    have h0 := h 0 (by omega)
    rw [BitVec.add_zero] at h0
    rw [storeBytesFrom, memWrite_window h0]
    exact ih _ _ fun j hj => by rw [ofNat_succ]; exact h (j + 1) (by omega)

theorem storeBytesFrom_writable (c : Nat) (a : Word) (k : Nat) (v : Word) (s : State) (hm : s.mem.wf = true)
    (h : ∀ j < c, inCacheControl (a + BitVec.ofNat 32 j) = false ∧ s.Writable (translateAddr (a + BitVec.ofNat 32 j)))
    (hd : ∀ i < c, ∀ j < c, translateAddr (a + BitVec.ofNat 32 i) = translateAddr (a + BitVec.ofNat 32 j) → i = j) :
    (∃ m, storeBytesFrom c a k v s = { s with mem := m })
      ∧ (∀ j < c, (storeBytesFrom c a k v s).byteAt (translateAddr (a + BitVec.ofNat 32 j)) = getByte v (k + j))
      ∧ ∀ q, (∀ j < c, q ≠ translateAddr (a + BitVec.ofNat 32 j)) → (storeBytesFrom c a k v s).byteAt q = s.byteAt q := by
  induction c generalizing a k s with
  | zero => exact ⟨⟨s.mem, rfl⟩, fun j hj => absurd hj (by omega), fun q _ => rfl⟩
  | succ c ih =>
    obtain ⟨h0, h0'⟩ := h 0 (by omega)
    simp only [BitVec.add_zero] at h0 h0'
    have hw := memWrite_one_writable (b := getByte v k) h0 h0'
    obtain ⟨⟨m, e1⟩, e2, e3⟩ := ih (a + 1#32) (k + 1) { s with mem := s.mem.write (translateAddr a).toNat (getByte v k) }
      (Memory.wf_write _ hm h0'.backed)
      (fun j hj => by rw [ofNat_succ]; exact ⟨(h (j + 1) (by omega)).1, (h (j + 1) (by omega)).2.congr rfl⟩)
      (fun i hi j hj e => by
        rw [ofNat_succ, ofNat_succ] at e
        have := hd (i + 1) (by omega) (j + 1) (by omega) e
        omega)
    have e : storeBytesFrom (c + 1) a k v s
        = storeBytesFrom c (a + 1#32) (k + 1) v { s with mem := s.mem.write (translateAddr a).toNat (getByte v k) } := by
      rw [storeBytesFrom, hw]
    have hread : ∀ q, ({ s with mem := s.mem.write (translateAddr a).toNat (getByte v k) } : State).byteAt q =
        if q = translateAddr a then getByte v k else s.byteAt q := by
      intro q
      simp only [State.byteAt, Memory.read_write _ _ _ hm]
      by_cases hq : q = translateAddr a
      · simp [hq]
      · rw [if_neg hq, if_neg (fun e => hq (BitVec.eq_of_toNat_eq e))]
    rw [e]
    refine ⟨⟨m, by rw [e1]⟩, fun j hj => ?_, fun q hq => ?_⟩
    · cases j with
      | zero =>
        rw [e3, hread]
        · simp
        · intro i hi e'
          rw [ofNat_succ] at e'
          have := hd 0 (by omega) (i + 1) (by omega) e'
          omega
      | succ j =>
        rw [show a + BitVec.ofNat 32 (j + 1) = a + 1#32 + BitVec.ofNat 32 j from (ofNat_succ j a).symm, e2 j (by omega)]
        congr 1
        omega
    · rw [e3, hread, if_neg]
      · simpa using hq 0 (by omega)
      · intro j hj
        rw [ofNat_succ]
        exact hq (j + 1) (by omega)

end Sys2Proof.Machine
end

