-- ==== Sys2Proof/Laws/Unread.lean ====
section
/-! SUPPORT. The fields that nothing reads: the interrupt line and its latch but for the checkpoint (R46, R380), and the cycle counter (R47).
Other values of them go through every operation untouched. -/

namespace Sys2Proof.Machine

/-- `s` with other values in the fields that nothing reads. -/
def State.withUnread (s : State) (line pending : Bool) (c : BitVec 64) : State :=
  { s with irqLine := line, irqPending := pending, cycles := c }

variable (l p : Bool) (c : BitVec 64)

theorem readByte_unread (n : Nat) (q : Word) (s : State) :
    readByte n q (s.withUnread l p c) = ((readByte n q s).1, (readByte n q s).2.withUnread l p c) := by
  unfold readByte
  split <;> rfl

theorem readBytes_unread (n k : Nat) (q : Word) (s : State) :
    readBytes n k q (s.withUnread l p c) = ((readBytes n k q s).1, (readBytes n k q s).2.withUnread l p c) := by
  induction k generalizing q s with
  | zero => rfl
  | succ k ih =>
    simp only [readBytes, readByte_unread]
    rw [ih]

theorem memRead_unread (a : Word) (n : Nat) (s : State) :
    memRead a n (s.withUnread l p c) = ((memRead a n s).1, (memRead a n s).2.withUnread l p c) := by
  unfold memRead
  split
  · rfl
  · simp only [readBytes_unread]

theorem loadBytesInto_unread (k : Nat) (a : Word) (b : Nat) (v : Word) (s : State) :
    loadBytesInto k a b v (s.withUnread l p c) = ((loadBytesInto k a b v s).1, (loadBytesInto k a b v s).2.withUnread l p c) := by
  induction k generalizing a b v s with
  | zero => rfl
  | succ k ih =>
    simp only [loadBytesInto, memRead_unread]
    rw [ih]

theorem writeByte_unread (n : Nat) (q : Word) (b : Byte) (s : State) :
    writeByte n q b (s.withUnread l p c) = (writeByte n q b s).withUnread l p c := by
  have h : (s.withUnread l p c).isolated = s.isolated := rfl
  unfold writeByte
  split
  · rw [h]
    split <;> rfl
  all_goals rfl

theorem writeBytes_unread (n k : Nat) (q v : Word) (s : State) :
    writeBytes n k q v (s.withUnread l p c) = (writeBytes n k q v s).withUnread l p c := by
  induction k generalizing q v s with
  | zero => rfl
  | succ k ih =>
    simp only [writeBytes, writeByte_unread]
    rw [ih]

theorem memWrite_unread (a : Word) (n : Nat) (v : Word) (s : State) :
    memWrite a n v (s.withUnread l p c) = (memWrite a n v s).withUnread l p c := by
  unfold memWrite
  split
  · rfl
  · exact writeBytes_unread ..

theorem storeBytesFrom_unread (k : Nat) (a : Word) (b : Nat) (v : Word) (s : State) :
    storeBytesFrom k a b v (s.withUnread l p c) = (storeBytesFrom k a b v s).withUnread l p c := by
  induction k generalizing a b v s with
  | zero => rfl
  | succ k ih =>
    simp only [storeBytesFrom, memWrite_unread]
    rw [ih]

theorem branchIf_unread (s : State) (b : Bool) (t : Word) :
    (s.withUnread l p c).branchIf b t = (s.branchIf b t).withUnread l p c := by
  cases b <;> rfl

theorem branchOn_unread (b : Bool) (imm : Imm16) (s t : State) (h : branchOn b imm s = .next t) :
    branchOn b imm (s.withUnread l p c) = .next (t.withUnread l p c) := by
  cases h
  exact congrArg Host.Outcome.next (branchIf_unread ..)

theorem branchLinkOn_unread (b : Bool) (imm : Imm16) (s t : State) (h : branchLinkOn b imm s = .next t) :
    branchLinkOn b imm (s.withUnread l p c) = .next (t.withUnread l p c) := by
  cases h
  exact congrArg Host.Outcome.next (branchIf_unread l p c (s.setReg 31#5 s.linkAddr) b (branchTarget imm s))

theorem loadWith_unread (n : Nat) (f : Word → Word) (rt rs : RegNum) (imm : Imm16) (s t : State) (h : loadWith n f rt rs imm s = .next t) :
    loadWith n f rt rs imm (s.withUnread l p c) = .next (t.withUnread l p c) := by
  cases h
  have e : (s.withUnread l p c).reg rs = s.reg rs := rfl
  unfold loadWith
  simp only [e, memRead_unread]
  rfl

theorem storeWith_unread (n : Nat) (rt rs : RegNum) (imm : Imm16) (s t : State) (h : storeWith n rt rs imm s = .next t) :
    storeWith n rt rs imm (s.withUnread l p c) = .next (t.withUnread l p c) := by
  cases h
  exact congrArg Host.Outcome.next (memWrite_unread ..)

/-- No instruction reads these fields, and none writes them. -/
theorem exec_unread (i : Instr) (s t : State) (h : exec i s = .next t) :
    exec i (s.withUnread l p c) = .next (t.withUnread l p c) := by
  cases i with
  | beq rs rt imm => exact branchOn_unread l p c _ imm s t h
  | bne rs rt imm => exact branchOn_unread l p c _ imm s t h
  | blez rs imm => exact branchOn_unread l p c _ imm s t h
  | bgtz rs imm => exact branchOn_unread l p c _ imm s t h
  | bltz rs imm => exact branchOn_unread l p c _ imm s t h
  | bgez rs imm => exact branchOn_unread l p c _ imm s t h
  | bgezal rs imm => exact branchLinkOn_unread l p c _ imm s t h
  | bltzal rs imm => exact branchLinkOn_unread l p c _ imm s t h
  | lb rt rs imm => exact loadWith_unread l p c _ _ rt rs imm s t h
  | lbu rt rs imm => exact loadWith_unread l p c _ _ rt rs imm s t h
  | lh rt rs imm => exact loadWith_unread l p c _ _ rt rs imm s t h
  | lhu rt rs imm => exact loadWith_unread l p c _ _ rt rs imm s t h
  | lw rt rs imm => exact loadWith_unread l p c _ _ rt rs imm s t h
  | sb rt rs imm => exact storeWith_unread l p c _ rt rs imm s t h
  | sh rt rs imm => exact storeWith_unread l p c _ rt rs imm s t h
  | sw rt rs imm => exact storeWith_unread l p c _ rt rs imm s t h
  | lwl rt rs imm =>
    cases h
    have e : (s.withUnread l p c).reg = s.reg := rfl
    simp only [exec, execLwl, e, loadBytesInto_unread]
    rfl
  | lwr rt rs imm =>
    cases h
    have e : (s.withUnread l p c).reg = s.reg := rfl
    simp only [exec, execLwr, e, loadBytesInto_unread]
    rfl
  | swl rt rs imm =>
    cases h
    exact congrArg Host.Outcome.next (storeBytesFrom_unread ..)
  | swr rt rs imm =>
    cases h
    exact congrArg Host.Outcome.next (storeBytesFrom_unread ..)
  | _ =>
    cases h
    rfl

end Sys2Proof.Machine
end

