-- ==== Sys2Proof/Machine/Asm.lean ====
section
/-! DEFINITION. The assembler's side of 30_encoding.md: register names (R155) and pseudo-instructions (R157). Software convention only: the
machine never sees either (R157). -/

namespace Sys2Proof.Machine

/-- R155: the conventional name of a general register. -/
def regName (r : RegNum) : String :=
  (["zero", "at", "v0", "v1", "a0", "a1", "a2", "a3", "t0", "t1", "t2", "t3", "t4", "t5", "t6", "t7"]
    ++ ["s0", "s1", "s2", "s3", "s4", "s5", "s6", "s7", "t8", "t9", "k0", "k1", "gp", "sp", "fp", "ra"]).getD r.toNat ""

/-- The pseudo-instructions of R157; a branch label is its offset field. The two-instruction branches use r1. -/
inductive Pseudo where
  | nop
  | move (rd rs : RegNum)
  | li (rt : RegNum) (imm : Word)
  | la (rt : RegNum) (sym : Word)
  | b (label : Imm16)
  | bal (label : Imm16)
  | beqz (rs : RegNum) (label : Imm16)
  | bnez (rs : RegNum) (label : Imm16)
  | neg (rd rs : RegNum)
  | negu (rd rs : RegNum)
  | not (rd rs : RegNum)
  | blt (rs rt : RegNum) (label : Imm16)
  | bge (rs rt : RegNum) (label : Imm16)
  | bgt (rs rt : RegNum) (label : Imm16)
  | ble (rs rt : RegNum) (label : Imm16)
  | bltu (rs rt : RegNum) (label : Imm16)
  | bgeu (rs rt : RegNum) (label : Imm16)
  | bgtu (rs rt : RegNum) (label : Imm16)
  | bleu (rs rt : RegNum) (label : Imm16)
deriving DecidableEq, Repr

/-- The upper half of a symbol's address, one more when bit 15 is 1 (R157: %hi, adjusted). -/
def symHi (sym : Word) : Imm16 := sym.extractLsb' 16 16 + (if sym.getLsbD 15 then 1#16 else 0#16)

/-- The lower half of a symbol's address (R157: %lo). -/
def symLo (sym : Word) : Imm16 := sym.extractLsb' 0 16

/-- R157: the usual expansion of a pseudo-instruction. -/
def Pseudo.expand : Pseudo → List Instr
  | .nop => [.sll 0 0 0]
  | .move rd rs => [.addu rd rs 0]
  | .li rt imm =>
    if -32768 ≤ imm.toInt ∧ imm.toInt ≤ 32767 then [.addiu rt 0 (symLo imm)]
    else if imm.toNat ≤ 0xFFFF then [.ori rt 0 (symLo imm)]
    else [.lui rt (imm.extractLsb' 16 16), .ori rt rt (symLo imm)]
  | .la rt sym => [.lui rt (symHi sym), .addiu rt rt (symLo sym)]
  | .b label => [.beq 0 0 label]
  | .bal label => [.bgezal 0 label]
  | .beqz rs label => [.beq rs 0 label]
  | .bnez rs label => [.bne rs 0 label]
  | .neg rd rs => [.sub rd 0 rs]
  | .negu rd rs => [.subu rd 0 rs]
  | .not rd rs => [.nor rd rs 0]
  | .blt rs rt label => [.slt 1 rs rt, .bne 1 0 label]
  | .bge rs rt label => [.slt 1 rs rt, .beq 1 0 label]
  | .bgt rs rt label => [.slt 1 rt rs, .bne 1 0 label]
  | .ble rs rt label => [.slt 1 rt rs, .beq 1 0 label]
  | .bltu rs rt label => [.sltu 1 rs rt, .bne 1 0 label]
  | .bgeu rs rt label => [.sltu 1 rs rt, .beq 1 0 label]
  | .bgtu rs rt label => [.sltu 1 rt rs, .bne 1 0 label]
  | .bleu rs rt label => [.sltu 1 rt rs, .beq 1 0 label]

end Sys2Proof.Machine
end

