-- ==== Sys2Proof/Tests/Slice0.lean ====
section
/-! SUPPORT. The model's own tests. Every expected result is the spec's: a rule's example or a row of 95_test_vectors.md, named at each test.
After them, for each obligation that has hypotheses, a state and operands that meet them together. -/

namespace Sys2Proof.Tests

open Sys2Proof Sys2Proof.Machine

/-! ### Helpers -/

/-- A state at `pc` with the word `w` there and P_EXTENDED true, the listed registers set, and the given bytes in RAM from 0x100 up; all else is
as after reset, as the conventions of 95_test_vectors.md have it. -/
def place (pc w : Word) (regs : List (RegNum × Word)) (bytes : List Byte := []) : State :=
  regs.foldl (fun s p => s.setReg p.1 p.2)
    { State.reset with
      cfg := { Config.default with extended := true }
      pc := pc
      mem := Memory.load (Memory.load [] 0x100 bytes) (translateAddr pc).toNat (bytesOfWord w) }

/-- Bytes put in a buffer. -/
def putBytes (s : State) (a : Nat) (bytes : List Byte) : State := { s with mem := s.mem.load a bytes }

/-- The bytes at 0x100 up of V4 and V8. -/
def sample : List Byte := [0x80, 0xFF, 0x34, 0x12, 0x56, 0x78, 0x9A, 0xBC]

/-- One step, where it answers a next state. -/
def after (s : State) : Option State :=
  match step s with
  | .next t => some t
  | .fault _ => none
  | .refused _ => none

/-- One step from `place` at 0x80001000, and what `f` sees of the state it answers. -/
def see (w : Word) (regs : List (RegNum × Word)) (f : State → List Word) : Option (List Word) :=
  (after (place 0x80001000#32 w regs sample)).map f

/-- The bytes at 0x100 up after one step. -/
def seeBytes (n : Nat) (w : Word) (regs : List (RegNum × Word)) : Option (List Byte) :=
  (after (place 0x80001000#32 w regs sample)).map fun t => (List.range n).map fun k => t.byteAt (BitVec.ofNat 32 (0x100 + k))

/-- One step of a branch at `pc`: whether a branch is armed, its target where one is, and register 31. -/
def seeBranch (pc w : Word) (regs : List (RegNum × Word)) : Option (Bool × Word × Word) :=
  (after (place pc w regs)).map fun t => (t.brArmed, if t.brArmed then t.brTarget else 0#32, t.reg 31)

/-! ### WellFormed: an instruction of R141 is ill-formed while P_EXTENDED is false, and its word is refused by name -/

theorem test_wellFormed_refuses_extended :
    Instr.wf false (.multu 1 2) = false ∧ decode false 0x00220019#32 = .unknown (.needsExtended (.multu 1 2))
      ∧ Instr.wf false (.mfhi 4) = false ∧ decode false 0x00002010#32 = .unknown (.needsExtended (.mfhi 4))
      ∧ Instr.wf false (.mthi 1) = false ∧ decode false 0x00200011#32 = .unknown (.needsExtended (.mthi 1))
      ∧ Instr.wf false (.mflo 4) = false ∧ decode false 0x00002012#32 = .unknown (.needsExtended (.mflo 4))
      ∧ Instr.wf false (.mtlo 1) = false ∧ decode false 0x00200013#32 = .unknown (.needsExtended (.mtlo 1))
      ∧ Instr.wf false (.bltzal 1 2) = false ∧ decode false 0x04300002#32 = .unknown (.needsExtended (.bltzal 1 2))
      ∧ Instr.wf false (.lwl 2 0 0x104) = false ∧ decode false 0x88020104#32 = .unknown (.needsExtended (.lwl 2 0 0x104))
      ∧ Instr.wf false (.lwr 2 0 0x101) = false ∧ decode false 0x98020101#32 = .unknown (.needsExtended (.lwr 2 0 0x101))
      ∧ Instr.wf false (.swl 2 0 0x104) = false ∧ decode false 0xA8020104#32 = .unknown (.needsExtended (.swl 2 0 0x104))
      ∧ Instr.wf false (.swr 2 0 0x101) = false ∧ decode false 0xB8020101#32 = .unknown (.needsExtended (.swr 2 0 0x101)) := by decide

theorem test_wellFormed_admits_extended :
    Instr.wf true (.multu 1 2) = true
      ∧ Instr.wf true (.mfhi 4) = true
      ∧ Instr.wf true (.mthi 1) = true
      ∧ Instr.wf true (.mflo 4) = true
      ∧ Instr.wf true (.mtlo 1) = true
      ∧ Instr.wf true (.bltzal 1 2) = true
      ∧ Instr.wf true (.lwl 2 0 0x104) = true
      ∧ Instr.wf true (.lwr 2 0 0x101) = true
      ∧ Instr.wf true (.swl 2 0 0x104) = true
      ∧ Instr.wf true (.swr 2 0 0x101) = true := by decide

/-! ### Decoding: for every constructor a word of the spec's -/

/-- R190-R200, V3. -/
theorem test_decode_jumps_and_branches :
    decode false 0x08004100#32 = .known (.j 0x0004100)
      ∧ decode false 0x0C000800#32 = .known (.jal 0x800)
      ∧ decode false 0x03E00008#32 = .known (.jr 31)
      ∧ decode false 0x0080F809#32 = .known (.jalr 31 4)
      ∧ decode false 0x10220003#32 = .known (.beq 1 2 3)
      ∧ decode false 0x1440FFFF#32 = .known (.bne 2 0 0xFFFF)
      ∧ decode false 0x18600004#32 = .known (.blez 3 4)
      ∧ decode false 0x1C600004#32 = .known (.bgtz 3 4)
      ∧ decode false 0x04A00001#32 = .known (.bltz 5 1)
      ∧ decode false 0x04010003#32 = .known (.bgez 0 3)
      ∧ decode false 0x07F10004#32 = .known (.bgezal 31 4) := by decide

/-- R220-R232. -/
theorem test_decode_add_and_logical :
    decode false 0x00221820#32 = .known (.add 3 1 2)
      ∧ decode false 0x00221821#32 = .known (.addu 3 1 2)
      ∧ decode false 0x2022FFFF#32 = .known (.addi 2 1 0xFFFF)
      ∧ decode false 0x24238000#32 = .known (.addiu 3 1 0x8000)
      ∧ decode false 0x00221822#32 = .known (.sub 3 1 2)
      ∧ decode false 0x00221823#32 = .known (.subu 3 1 2)
      ∧ decode false 0x00221824#32 = .known (.and 3 1 2)
      ∧ decode false 0x30228000#32 = .known (.andi 2 1 0x8000)
      ∧ decode false 0x00221825#32 = .known (.or 3 1 2)
      ∧ decode false 0x34215678#32 = .known (.ori 1 1 0x5678)
      ∧ decode false 0x00221826#32 = .known (.xor 3 1 2)
      ∧ decode false 0x3823FFFF#32 = .known (.xori 3 1 0xFFFF)
      ∧ decode false 0x00221827#32 = .known (.nor 3 1 2) := by decide

/-- R236-R246. -/
theorem test_decode_shifts_and_compares :
    decode false 0x00011100#32 = .known (.sll 2 1 4)
      ∧ decode false 0x00011FC2#32 = .known (.srl 3 1 31)
      ∧ decode false 0x00011103#32 = .known (.sra 2 1 4)
      ∧ decode false 0x00411804#32 = .known (.sllv 3 1 2)
      ∧ decode false 0x00411806#32 = .known (.srlv 3 1 2)
      ∧ decode false 0x00411807#32 = .known (.srav 3 1 2)
      ∧ decode false 0x0022182A#32 = .known (.slt 3 1 2)
      ∧ decode false 0x0022182B#32 = .known (.sltu 3 1 2)
      ∧ decode false 0x2823FFFF#32 = .known (.slti 3 1 0xFFFF)
      ∧ decode false 0x2C23FFFF#32 = .known (.sltiu 3 1 0xFFFF)
      ∧ decode false 0x3C011234#32 = .known (.lui 1 0x1234) := by decide

/-- R260-R262, R310-R313. -/
theorem test_decode_muldiv_and_cp0 :
    decode false 0x00220018#32 = .known (.mult 1 2)
      ∧ decode false 0x0022001A#32 = .known (.div 1 2)
      ∧ decode false 0x0022001B#32 = .known (.divu 1 2)
      ∧ decode false 0x40026000#32 = .known (.mfc0 2 12)
      ∧ decode false 0x40817000#32 = .known (.mtc0 1 14)
      ∧ decode false 0x0000000C#32 = .known .syscall := by decide

/-- R280-R287. -/
theorem test_decode_loads_and_stores :
    decode false 0x80220003#32 = .known (.lb 2 1 3)
      ∧ decode false 0x90220000#32 = .known (.lbu 2 1 0)
      ∧ decode false 0x84220001#32 = .known (.lh 2 1 1)
      ∧ decode false 0x94220000#32 = .known (.lhu 2 1 0)
      ∧ decode false 0x8C22FFFC#32 = .known (.lw 2 1 0xFFFC)
      ∧ decode false 0xA0220000#32 = .known (.sb 2 1 0)
      ∧ decode false 0xA4220002#32 = .known (.sh 2 1 2)
      ∧ decode false 0xAC220001#32 = .known (.sw 2 1 1) := by decide

/-- R340-R349. -/
theorem test_decode_extended :
    decode true 0x00220019#32 = .known (.multu 1 2)
      ∧ decode true 0x00002010#32 = .known (.mfhi 4)
      ∧ decode true 0x00200011#32 = .known (.mthi 1)
      ∧ decode true 0x00002012#32 = .known (.mflo 4)
      ∧ decode true 0x00200013#32 = .known (.mtlo 1)
      ∧ decode true 0x04300002#32 = .known (.bltzal 1 2)
      ∧ decode true 0x88020104#32 = .known (.lwl 2 0 0x104)
      ∧ decode true 0x98020101#32 = .known (.lwr 2 0 0x101)
      ∧ decode true 0xA8020104#32 = .known (.swl 2 0 0x104)
      ∧ decode true 0xB8020101#32 = .known (.swr 2 0 0x101) := by decide

/-- Words written out bit by bit from the layouts of R121 and the maps of R130-R133. -/
theorem test_decode_bit_by_bit :
    decode false 0b000010_00_0000_0000_0100_0001_0000_0000#32 = .known (.j 0x0004100)
      ∧ decode false 0b000001_11111_10001_0000000000000100#32 = .known (.bgezal 31 4)
      ∧ decode false 0b000000_00001_00010_00011_00000_100000#32 = .known (.add 3 1 2)
      ∧ decode false 0b000000_00000_00001_00010_00100_000011#32 = .known (.sra 2 1 4)
      ∧ decode false 0b001111_00000_00001_0001001000110100#32 = .known (.lui 1 0x1234)
      ∧ decode false 0b000000_00001_00010_00000_00000_011010#32 = .known (.div 1 2)
      ∧ decode false 0b100001_00001_00010_0000000000000001#32 = .known (.lh 2 1 1)
      ∧ decode false 0b101011_00001_00010_1111111111111100#32 = .known (.sw 2 1 0xFFFC)
      ∧ decode false 0b010000_00100_00001_01110_00000_000000#32 = .known (.mtc0 1 14)
      ∧ decode false 0b000000_00000000000000000000_001100#32 = .known .syscall := by decide

/-- R145, V6: fields that are ignored. -/
theorem test_decode_ignored_fields :
    decode false 0x002218E0#32 = .known (.add 3 1 2)
      ∧ decode false 0x0022F818#32 = .known (.mult 1 2)
      ∧ decode false 0x03E0F808#32 = .known (.jr 31)
      ∧ decode false 0x40816FFF#32 = .known (.mtc0 1 13)
      ∧ decode false 0x1821FFFF#32 = .known (.blez 1 0xFFFF)
      ∧ decode false 0x3C3F0001#32 = .known (.lui 31 1)
      ∧ decode false 0x03FFFFCC#32 = .known .syscall := by decide

/-- V6: the words that are unknown under both values of P_EXTENDED. -/
theorem test_decode_unknown :
    decode true 0x0000000D#32 = .unknown (.special 0x0D) ∧ decode false 0x0000000D#32 = .unknown (.special 0x0D)
      ∧ decode true 0x0000000F#32 = .unknown (.special 0x0F) ∧ decode false 0x0000000F#32 = .unknown (.special 0x0F)
      ∧ decode true 0x42000010#32 = .unknown (.cop0 0x10) ∧ decode false 0x42000010#32 = .unknown (.cop0 0x10)
      ∧ decode true 0x40400000#32 = .unknown (.cop0 0x02) ∧ decode false 0x40400000#32 = .unknown (.cop0 0x02)
      ∧ decode true 0x44000000#32 = .unknown (.primary 0x11) ∧ decode false 0x44000000#32 = .unknown (.primary 0x11)
      ∧ decode true 0x48000000#32 = .unknown (.primary 0x12) ∧ decode false 0x48000000#32 = .unknown (.primary 0x12)
      ∧ decode true 0x4C000000#32 = .unknown (.primary 0x13) ∧ decode false 0x4C000000#32 = .unknown (.primary 0x13)
      ∧ decode true 0xC0000000#32 = .unknown (.primary 0x30) ∧ decode false 0xC0000000#32 = .unknown (.primary 0x30)
      ∧ decode true 0xE0000000#32 = .unknown (.primary 0x38) ∧ decode false 0xE0000000#32 = .unknown (.primary 0x38)
      ∧ decode true 0x04020000#32 = .unknown (.regimm 0x02) ∧ decode false 0x04020000#32 = .unknown (.regimm 0x02)
      ∧ decode true 0x04120000#32 = .unknown (.regimm 0x12) ∧ decode false 0x04120000#32 = .unknown (.regimm 0x12)
      ∧ decode true 0x50000000#32 = .unknown (.primary 0x14) ∧ decode false 0x50000000#32 = .unknown (.primary 0x14)
      ∧ decode true 0x9C000000#32 = .unknown (.primary 0x27) ∧ decode false 0x9C000000#32 = .unknown (.primary 0x27)
      ∧ decode true 0xFC000000#32 = .unknown (.primary 0x3F) ∧ decode false 0xFC000000#32 = .unknown (.primary 0x3F)
      ∧ decode true 0xFFFFFFFF#32 = .unknown (.primary 0x3F) ∧ decode false 0xFFFFFFFF#32 = .unknown (.primary 0x3F) := by decide

/-! ### ALU (V1) -/

/-- R220, V1. -/
theorem test_add : see 0x00221820#32 [(1, 0x7FFFFFFF), (2, 0x00000001)] (fun t => [t.reg 3, t.pc]) = some [0x80000000#32, 0x80001004#32] := by decide

/-- R221, V1. -/
theorem test_addu : see 0x00221821#32 [(1, 0xFFFFFFFF), (2, 0x00000002)] (fun t => [t.reg 3, t.pc]) = some [0x00000001#32, 0x80001004#32] := by decide

/-- R222, V1. -/
theorem test_addi : see 0x20237FFF#32 [(1, 0x7FFFFFFF)] (fun t => [t.reg 3, t.pc]) = some [0x80007FFE#32, 0x80001004#32] := by decide

/-- R223, V1. -/
theorem test_addiu : see 0x24238000#32 [(1, 0x00000000)] (fun t => [t.reg 3, t.pc]) = some [0xFFFF8000#32, 0x80001004#32] := by decide

/-- R31, V1. -/
theorem test_addiu_to_register_zero : see 0x24200005#32 [(1, 0x00000007)] (fun t => [t.reg 0, t.pc]) = some [0x00000000#32, 0x80001004#32] := by decide

/-- R224, V1. -/
theorem test_sub : see 0x00221822#32 [(1, 0x00000000), (2, 0x80000000)] (fun t => [t.reg 3, t.pc]) = some [0x80000000#32, 0x80001004#32] := by decide

/-- R225, V1. -/
theorem test_subu : see 0x00221823#32 [(1, 0x00000000), (2, 0x00000001)] (fun t => [t.reg 3, t.pc]) = some [0xFFFFFFFF#32, 0x80001004#32] := by decide

/-- R226, V1. -/
theorem test_and : see 0x00221824#32 [(1, 0xF0F0F0F0), (2, 0xFF00FF00)] (fun t => [t.reg 3, t.pc]) = some [0xF000F000#32, 0x80001004#32] := by decide

/-- R227. -/
theorem test_andi : see 0x30228000#32 [(1, 0xFFFFFFFF)] (fun t => [t.reg 2, t.pc]) = some [0x00008000#32, 0x80001004#32] := by decide

/-- R228, V1. -/
theorem test_or : see 0x00221825#32 [(1, 0xF0F0F0F0), (2, 0x0F0F0000)] (fun t => [t.reg 3, t.pc]) = some [0xFFFFF0F0#32, 0x80001004#32] := by decide

/-- R229, V1. -/
theorem test_ori : see 0x34238000#32 [(1, 0x00000000)] (fun t => [t.reg 3, t.pc]) = some [0x00008000#32, 0x80001004#32] := by decide

/-- R230, V1. -/
theorem test_xor : see 0x00221826#32 [(1, 0xFFFF0000), (2, 0xFF00FF00)] (fun t => [t.reg 3, t.pc]) = some [0x00FFFF00#32, 0x80001004#32] := by decide

/-- R231. -/
theorem test_xori : see 0x3822FFFF#32 [(1, 0x12345678)] (fun t => [t.reg 2, t.pc]) = some [0x1234A987#32, 0x80001004#32] := by decide

/-- R232, V1. -/
theorem test_nor : see 0x00201827#32 [(1, 0x0000FFFF)] (fun t => [t.reg 3, t.pc]) = some [0xFFFF0000#32, 0x80001004#32] := by decide

/-- R236, V1. -/
theorem test_sll : see 0x00011FC0#32 [(1, 0x00000003)] (fun t => [t.reg 3, t.pc]) = some [0x80000000#32, 0x80001004#32] := by decide

/-- R237. -/
theorem test_srl : see 0x00011102#32 [(1, 0x80000010)] (fun t => [t.reg 2, t.pc]) = some [0x08000001#32, 0x80001004#32] := by decide

/-- R238. -/
theorem test_sra : see 0x00011103#32 [(1, 0x80000010)] (fun t => [t.reg 2, t.pc]) = some [0xF8000001#32, 0x80001004#32] := by decide

/-- R239, V1. -/
theorem test_sllv : see 0x00411804#32 [(1, 0x00000001), (2, 0x00000021)] (fun t => [t.reg 3, t.pc]) = some [0x00000002#32, 0x80001004#32] := by decide

/-- R240, V1. -/
theorem test_srlv : see 0x00411806#32 [(1, 0x80000000), (2, 0xFFFFFFFF)] (fun t => [t.reg 3, t.pc]) = some [0x00000001#32, 0x80001004#32] := by decide

/-- R241, V1. -/
theorem test_srav : see 0x00411807#32 [(1, 0x80000000), (2, 0x00000020)] (fun t => [t.reg 3, t.pc]) = some [0x80000000#32, 0x80001004#32] := by decide

/-- R241, V1. -/
theorem test_srav_by_four : see 0x00411807#32 [(1, 0xF0000000), (2, 0x00000004)] (fun t => [t.reg 3, t.pc]) = some [0xFF000000#32, 0x80001004#32] := by decide

/-- R242, V1. -/
theorem test_slt : see 0x0022182A#32 [(1, 0xFFFFFFFF), (2, 0x00000000)] (fun t => [t.reg 3, t.pc]) = some [0x00000001#32, 0x80001004#32] := by decide

/-- R243, V1. -/
theorem test_sltu : see 0x0022182B#32 [(1, 0xFFFFFFFF), (2, 0x00000000)] (fun t => [t.reg 3, t.pc]) = some [0x00000000#32, 0x80001004#32] := by decide

/-- R244, V1. -/
theorem test_slti : see 0x2823FFFF#32 [(1, 0x80000000)] (fun t => [t.reg 3, t.pc]) = some [0x00000001#32, 0x80001004#32] := by decide

/-- R245, V1. -/
theorem test_sltiu : see 0x2C23FFFF#32 [(1, 0xFFFFFFFE)] (fun t => [t.reg 3, t.pc]) = some [0x00000001#32, 0x80001004#32] := by decide

/-- R246, V1. -/
theorem test_lui : see 0x3C03FFFF#32 [] (fun t => [t.reg 3, t.pc]) = some [0xFFFF0000#32, 0x80001004#32] := by decide

/-! ### Multiply and divide (V2, V8) -/

/-- R260, V2. -/
theorem test_mult : see 0x00220018#32 [(1, 0x80000000), (2, 0xFFFFFFFF)] (fun t => [t.hi, t.lo]) = some [0x00000000#32, 0x80000000#32] := by decide

/-- R260, V2. -/
theorem test_mult_negative : see 0x00220018#32 [(1, 0xFFFFFFFF), (2, 0x00000002)] (fun t => [t.hi, t.lo]) = some [0xFFFFFFFF#32, 0xFFFFFFFE#32] := by decide

/-- R263, V2. -/
theorem test_div : see 0x0022001A#32 [(1, 0xFFFFFFF9), (2, 0x00000002)] (fun t => [t.hi, t.lo]) = some [0xFFFFFFFF#32, 0xFFFFFFFD#32] := by decide

/-- R263, V2. -/
theorem test_div_by_zero : see 0x0022001A#32 [(1, 0xFFFFFFFB), (2, 0x00000000)] (fun t => [t.hi, t.lo]) = some [0xFFFFFFFB#32, 0x00000001#32] := by decide

/-- R263, V2. -/
theorem test_divu : see 0x0022001B#32 [(1, 0xFFFFFFF9), (2, 0x00000002)] (fun t => [t.hi, t.lo]) = some [0x00000001#32, 0x7FFFFFFC#32] := by decide

/-- R263, V2. -/
theorem test_divu_by_zero : see 0x0022001B#32 [(1, 0x00000005), (2, 0x00000000)] (fun t => [t.hi, t.lo]) = some [0x00000005#32, 0xFFFFFFFF#32] := by decide

/-- R340, V8. -/
theorem test_multu : see 0x00220019#32 [(1, 0xFFFFFFFF), (2, 0xFFFFFFFF)] (fun t => [t.hi, t.lo]) = some [0xFFFFFFFE#32, 0x00000001#32] := by decide

/-- R342, V8. -/
theorem test_mthi : see 0x00200011#32 [(1, 0x00000007)] (fun t => [t.hi, t.lo]) = some [0x00000007#32, 0x00000000#32] := by decide

/-- R344. -/
theorem test_mtlo : see 0x00200013#32 [(1, 0x00000009)] (fun t => [t.hi, t.lo]) = some [0x00000000#32, 0x00000009#32] := by decide

/-- R341, V8. -/
theorem test_mfhi : (after ((place 0x80001000#32 0x00002010#32 []).setHiLo 0xDEADBEEF#32 0x12345678#32)).map (fun t => t.reg 4)
    = some 0xDEADBEEF#32 := by decide

/-- R343, V8. -/
theorem test_mflo : (after ((place 0x80001000#32 0x00002012#32 []).setHiLo 0xDEADBEEF#32 0x12345678#32)).map (fun t => t.reg 4)
    = some 0x12345678#32 := by decide

/-! ### Jumps and branches (V3, V8) -/

/-- R190, V3. -/
theorem test_j : seeBranch 0x80001000#32 0x0BFFFFFF#32 []
    = some (true, 0x8FFFFFFC#32, 0x00000000#32) := by decide

/-- R191, W4, C1. -/
theorem test_jal : seeBranch 0x00001000#32 0x0C000800#32 []
    = some (true, 0x00002000#32, 0x00001008#32) := by decide

/-- R192, V3. -/
theorem test_jr : seeBranch 0x00000100#32 0x03E00008#32 [(31, 0x80001237)]
    = some (true, 0x80001237#32, 0x80001237#32) := by decide

/-- R193, V3. -/
theorem test_jalr : seeBranch 0x00000100#32 0x0080F809#32 [(4, 0x80002000)]
    = some (true, 0x80002000#32, 0x00000108#32) := by decide

/-- R193, V3: rd = rs. -/
theorem test_jalr_same_register : (after (place 0x00000100#32 0x00802009#32 [(4, 0x80002000)])).map (fun t => [t.brTarget, t.reg 4])
    = some [0x80002000#32, 0x00000108#32] := by decide

/-- R194, V3. -/
theorem test_beq : seeBranch 0x00000100#32 0x10220003#32 [(1, 0x00000005), (2, 0x00000005)]
    = some (true, 0x00000110#32, 0x00000000#32) := by decide

/-- R194, V3. -/
theorem test_beq_not_taken : seeBranch 0x00000100#32 0x10220003#32 [(1, 0x00000005), (2, 0x00000006)]
    = some (false, 0x00000000#32, 0x00000000#32) := by decide

/-- R195, V3. -/
theorem test_bne : seeBranch 0x00000100#32 0x1422FFFF#32 [(1, 0x00000005), (2, 0x00000006)]
    = some (true, 0x00000100#32, 0x00000000#32) := by decide

/-- R196, V3. -/
theorem test_blez : seeBranch 0x00000100#32 0x18200004#32 [(1, 0x80000000)]
    = some (true, 0x00000114#32, 0x00000000#32) := by decide

/-- R196, V3. -/
theorem test_blez_not_taken : seeBranch 0x00000100#32 0x18200004#32 [(1, 0x00000001)]
    = some (false, 0x00000000#32, 0x00000000#32) := by decide

/-- R197, V3. -/
theorem test_bgtz : seeBranch 0x00000100#32 0x1C200004#32 [(1, 0x7FFFFFFF)]
    = some (true, 0x00000114#32, 0x00000000#32) := by decide

/-- R197, V3. -/
theorem test_bgtz_not_taken : seeBranch 0x00000100#32 0x1C200004#32 [(1, 0x00000000)]
    = some (false, 0x00000000#32, 0x00000000#32) := by decide

/-- R198, V3. -/
theorem test_bltz : seeBranch 0x00000100#32 0x04200004#32 [(1, 0xFFFFFFFF)]
    = some (true, 0x00000114#32, 0x00000000#32) := by decide

/-- R198, V3. -/
theorem test_bltz_not_taken : seeBranch 0x00000100#32 0x04200004#32 [(1, 0x00000000)]
    = some (false, 0x00000000#32, 0x00000000#32) := by decide

/-- R199, V3. -/
theorem test_bgez : seeBranch 0x00000100#32 0x04210004#32 [(1, 0x00000000)]
    = some (true, 0x00000114#32, 0x00000000#32) := by decide

/-- R199, V3. -/
theorem test_bgez_not_taken : seeBranch 0x00000100#32 0x04210004#32 [(1, 0x80000000)]
    = some (false, 0x00000000#32, 0x00000000#32) := by decide

/-- R200, V3. -/
theorem test_bgezal : seeBranch 0x00000100#32 0x04310004#32 [(1, 0x00000000)]
    = some (true, 0x00000114#32, 0x00000108#32) := by decide

/-- R200, V3. -/
theorem test_bgezal_tests_old_link : seeBranch 0x00000100#32 0x07F10004#32 [(31, 0x80000000)]
    = some (false, 0x00000000#32, 0x00000108#32) := by decide

/-- R345, V8. -/
theorem test_bltzal : seeBranch 0x80000100#32 0x04300002#32 [(1, 0xFFFFFFFF)]
    = some (true, 0x8000010C#32, 0x80000108#32) := by decide

/-- R345, V8. -/
theorem test_bltzal_not_taken : seeBranch 0x80000100#32 0x04300002#32 [(1, 0x00000000)]
    = some (false, 0x00000000#32, 0x80000108#32) := by decide

/-! ### Loads and stores (V4, V8) -/

/-- R280, V4. -/
theorem test_lb : see 0x80220000#32 [(1, 0x80000100)] (fun t => [t.reg 2, t.pc]) = some [0xFFFFFF80#32, 0x80001004#32] := by decide

/-- R281, V4. -/
theorem test_lbu : see 0x90220000#32 [(1, 0x80000100)] (fun t => [t.reg 2, t.pc]) = some [0x00000080#32, 0x80001004#32] := by decide

/-- R282, V4. -/
theorem test_lh : see 0x84220001#32 [(1, 0x80000100)] (fun t => [t.reg 2, t.pc]) = some [0x000034FF#32, 0x80001004#32] := by decide

/-- R283, V4. -/
theorem test_lhu : see 0x94220000#32 [(1, 0x80000100)] (fun t => [t.reg 2, t.pc]) = some [0x0000FF80#32, 0x80001004#32] := by decide

/-- R284, V4. -/
theorem test_lw : see 0x8C220001#32 [(1, 0x80000100)] (fun t => [t.reg 2, t.pc]) = some [0x561234FF#32, 0x80001004#32] := by decide

/-- R290, V4. -/
theorem test_lw_over_its_base : see 0x8C210000#32 [(1, 0x80000100)] (fun t => [t.reg 1, t.pc]) = some [0x1234FF80#32, 0x80001004#32] := by decide

/-- R285, V4. -/
theorem test_sb : seeBytes 8 0xA0220000#32 [(1, 0x80000100), (2, 0xAABBCCDD)] = some [0xDD, 0xFF, 0x34, 0x12, 0x56, 0x78, 0x9A, 0xBC] := by decide

/-- R286, V4. -/
theorem test_sh : seeBytes 8 0xA4220003#32 [(1, 0x80000100), (2, 0x00001122)] = some [0x80, 0xFF, 0x34, 0x22, 0x11, 0x78, 0x9A, 0xBC] := by decide

/-- R287, V4. -/
theorem test_sw : seeBytes 8 0xAC220001#32 [(1, 0x80000100), (2, 0xDEADBEEF)] = some [0x80, 0xEF, 0xBE, 0xAD, 0xDE, 0x78, 0x9A, 0xBC] := by decide

/-- R346, V8. -/
theorem test_lwl : see 0x88020101#32 [(2, 0x11223344)] (fun t => [t.reg 2, t.pc]) = some [0xFF803344#32, 0x80001004#32] := by decide

/-- R346, V8. -/
theorem test_lwl_whole : see 0x88020103#32 [(2, 0x11223344)] (fun t => [t.reg 2, t.pc]) = some [0x1234FF80#32, 0x80001004#32] := by decide

/-- R347, V8. -/
theorem test_lwr : see 0x98020101#32 [(2, 0x11223344)] (fun t => [t.reg 2, t.pc]) = some [0x111234FF#32, 0x80001004#32] := by decide

/-- R347, V8. -/
theorem test_lwr_one_byte : see 0x98020103#32 [(2, 0x11223344)] (fun t => [t.reg 2, t.pc]) = some [0x11223312#32, 0x80001004#32] := by decide

/-- R348, V8. -/
theorem test_swl : seeBytes 4 0xA8020101#32 [(2, 0xAABBCCDD)] = some [0xBB, 0xAA, 0x34, 0x12] := by decide

/-- R348, V8. -/
theorem test_swl_three_bytes : seeBytes 4 0xA8020102#32 [(2, 0xAABBCCDD)] = some [0xCC, 0xBB, 0xAA, 0x12] := by decide

/-- R349, V8. -/
theorem test_swr : seeBytes 4 0xB8020101#32 [(2, 0xAABBCCDD)] = some [0x80, 0xDD, 0xCC, 0xBB] := by decide

/-- R349, V8. -/
theorem test_swr_one_byte : seeBytes 4 0xB8020103#32 [(2, 0xAABBCCDD)] = some [0x80, 0xFF, 0x34, 0xDD] := by decide

/-- R94, V4: a word that runs over the end of RAM. -/
theorem test_lw_crosses_regions :
    (after (putBytes (place 0x80001000#32 0x8C220000#32 [(1, 0xA01FFFFE)]) 0x1FFFFE [0x11, 0x22])).map (fun t => (t.reg 2, t.diag))
      = some (0x00002211#32, [.unmappedRead 0x00200000 4, .unmappedRead 0x00200001 4]) := by decide

/-- R86, V4: a store to ROM. -/
theorem test_sb_to_rom : (after (place 0x80001000#32 0xA0220000#32 [(1, 0xBFC00010), (2, 0x55)])).map (fun t => (t.byteAt 0x1FC00010, t.diag))
    = some (0x00#8, [.romWrite 0x1FC00010 1 0x55]) := by decide

/-- R84, V4: a store to the I/O window. -/
theorem test_sh_to_device : (after (place 0x80001000#32 0xA4220000#32 [(1, 0xBF801070), (2, 0xABCD)])).map (fun t => (t.ioLog, t.diag))
    = some ([.write8 0x070 0xCD, .write8 0x071 0xAB], []) := by decide

/-- R95, V4: a store to RAM under cache-isolate. -/
theorem test_sw_isolated :
    (after ((place 0x80001000#32 0xAC220000#32 [(1, 0x80000100), (2, 0xDEADBEEF)] sample).setCp0 12 0x00010000)).map
      (fun t => (t.byteAt 0x100, t.byteAt 0x103, t.diag)) = some (0x80#8, 0x12#8, []) := by decide

/-! ### CP0 and SYSCALL (V5) -/

/-- R310, V5. -/
theorem test_mfc0 : (after ((place 0x80001000#32 0x40027000#32 []).setCp0 14 0x80010000#32)).map (fun t => t.reg 2) = some 0x80010000#32 := by
  decide

/-- R311, V5. -/
theorem test_mtc0 : see 0x40817800#32 [(1, 0xCAFEBABE)] (fun t => [t.cp0Reg 15]) = some [0xCAFEBABE#32] := by decide

/-- R312, V5, C3: the bit is a level, not a toggle. -/
theorem test_mtc0_isolate_is_a_level :
    (after ((place 0x80001000#32 0x40816000#32 [(1, 0x00010001)]).setCp0 12 0x00010000#32)).map (fun t => (t.cp0Reg 12, t.isolated))
      = some (0x00010001#32, true) := by decide

/-- R313, R371, V5, W10. -/
theorem test_syscall :
    (after (place 0x80010000#32 0x0000000C#32 [])).map (fun t => (t.cp0Reg 14, t.cp0Reg 13, t.pc, t.cp0Reg 12, t.cycles))
      = some (0x80010000#32, 0x00000020#32, 0x80000080#32, 0#32, 1#64) := by decide

/-! ### The bus (V7) and the cycle (V9) -/

/-- V7: the edges of the window of R71 and of the regions of R80. -/
theorem test_bus_reads :
    (memRead 0xFFFE01FF#32 4 State.reset).2.diag = []
      ∧ (memRead 0xFFFE0200#32 4 State.reset).2.diag
        = [.unmappedRead 0x5FFE0200 4, .unmappedRead 0x5FFE0201 4, .unmappedRead 0x5FFE0202 4, .unmappedRead 0x5FFE0203 4]
      ∧ (memRead 0xC0000000#32 1 State.reset).2.diag = [.unmappedRead 0x20000000 1]
      ∧ (memRead 0x1F7FFFFF#32 1 State.reset).2.diag = [.unmappedRead 0x1F7FFFFF 1]
      ∧ (memRead 0x1F803000#32 1 State.reset).2.diag = [.unmappedRead 0x1F803000 1]
      ∧ (memRead 0x1FC7FFFE#32 4 State.reset).2.diag = [.unmappedRead 0x1FC80000 4, .unmappedRead 0x1FC80001 4] := by decide

/-- R89: the tags at the edges of their ranges. -/
theorem test_device_tags : deviceTag 0x1F801063 = .memoryControl ∧ deviceTag 0x1F801040 = .peripherals ∧ deviceTag 0x1F801077 = .interruptControl
    ∧ deviceTag 0x1F8010FF = .dma ∧ deviceTag 0x1F801100 = .timers ∧ deviceTag 0x1F801803 = .discController ∧ deviceTag 0x1F801FFF = .audioEngine
    ∧ deviceTag 0x1F801078 = .untagged := by decide

/-- V9 S7 and S3: the latch, and an unknown word in a delay slot. -/
theorem test_unknown_in_delay_slot :
    (after { (place 0x80000104#32 0xFC000000#32 []) with brArmed := true, brTarget := 0x80000118, irqLine := true }).map
      (fun t => (t.run, t.pc, t.brArmed, t.brTarget, t.irqPending, t.cycles))
      = some (.fatal 0x80000104 0xFC000000, 0x80000104#32, true, 0x80000118#32, true, 0#64) := by decide

/-- V9 S8: a fetch from unmapped space is a NOP, with its events. -/
theorem test_fetch_unmapped :
    (after { State.reset with pc := 0x00400000 }).map (fun t => (t.pc, t.cycles, t.run, t.diag))
      = some (0x00400004#32, 1#64, .running, [.unmappedRead 0x00400000 4, .unmappedRead 0x00400001 4, .unmappedRead 0x00400002 4,
          .unmappedRead 0x00400003 4]) := by decide

/-- R192, V3: the target is masked when it is applied. -/
theorem test_target_is_masked :
    (after { (place 0x00000104#32 0x00000000#32 []) with brArmed := true, brTarget := 0x80001237 }).map (fun t => t.pc)
      = some 0x80001234#32 := by decide

/-- The word the host places is the next instruction run, under P_EXTENDED where it needs it (log entry 6). -/
theorem test_withFetchWord :
    (after (State.reset.withFetchWord 32 0x2402FFFF)).map (fun t => t.reg 2) = some 0xFFFFFFFF#32
      ∧ (after (State.reset.withFetchWord 32 0x00200011)).map (fun t => (t.run, t.cycles)) = some (.running, 1#64)
      ∧ decodeTableWord 32 0x00200011 = some (.mthi 1) := by decide

/-- R157: an assembler expansion. -/
theorem test_pseudo_li : Pseudo.expand (.li 5 0x12345678) = [.lui 5 0x1234, .ori 5 5 0x5678] := by decide

/-! ### The witnesses -/

/-- The state one step leads to. -/
def afterD (s : State) : State := (after s).getD s

theorem step_eq_afterD {s : State} (h : (after s).isSome = true) : step s = .next (afterD s) := by
  unfold afterD after at *
  cases hs : step s <;> simp [hs] at h ⊢

/-- The state one event leads to, and the states along a schedule. -/
def eventD (s : State) (e : Event) : State :=
  match e with
  | .cycle => afterD s
  | .external x => x.act s

theorem systemStep_eq_eventD {s : State} {e : Event} (h : (after s).isSome = true) : systemStep e s = .next (eventD s e) := by
  cases e with
  | cycle => exact step_eq_afterD h
  | external x => rfl

theorem witness_DecodeOfEncodeIsTheInstruction :
    Instr.wf true (.lwl 31 31 0xFFFF) = true ∧ Instr.wf false .syscall = true ∧ Instr.wf false (.j 0x3FFFFFF) = true := by decide

theorem witness_DecodeKeepsEveryCountingBit :
    decode false 0x002218E0#32 = .known (.add 3 1 2) ∧ decode true 0xFFFF0010#32 ≠ .known (.mfhi 0) ∧ decode true 0x03FFF810#32 ≠ .known (.mfhi 0)
      ∧ decode true 0x03FF07D0#32 = .known (.mfhi 0) := by decide

/-- ADDU at 0x80001000. -/
def plain : State := place 0x80001000#32 0x00221821#32 [(1, 5), (2, 7)]

/-- An unknown word at 0x80001000. -/
def unknownAt : State := place 0x80001000#32 0xFC000000#32 []

/-- SYSCALL at 0x80001000. -/
def syscallAt : State := place 0x80001000#32 0x0000000C#32 []

theorem witness_StepExecutesTheDecodedInstruction :
    plain.run = .running ∧ plain.decoded = .known (.addu 3 1 2) ∧ exec (.addu 3 1 2) plain.executing = .next (plain.executing.setReg 3 12) :=
  ⟨rfl, by decide, by
    have h : plain.executing.reg 1 + plain.executing.reg 2 = 12#32 := by decide
    show Host.Outcome.next (plain.executing.setReg 3 (plain.executing.reg 1 + plain.executing.reg 2)) = _
    rw [h]
    rfl⟩

theorem witness_UnknownWordStopsFatally : unknownAt.run = .running ∧ unknownAt.decoded = .unknown (.primary 0x3F) := by decide

theorem witness_StepCompletesExactlyWhileRunning :
    plain.run = .running ∧ ({ plain with run := .fatal 0x304 0xFC000000 } : State).run = .fatal 0x304 0xFC000000
      ∧ plain.stop.run = .stopped := by decide

/-- The three clauses: a SYSCALL, a branch to apply, and neither. -/
theorem witness_PcAfterCompletedCycle :
    (syscallAt.run = .running ∧ syscallAt.decoded = .known .syscall)
      ∧ (({ plain with brArmed := true } : State).run = .running ∧ ({ plain with brArmed := true } : State).decoded = .known (.addu 3 1 2))
      ∧ (plain.run = .running ∧ plain.decoded = .known (.addu 3 1 2) ∧ plain.brArmed = false) := by decide

theorem witness_CyclesCountCompletedCycles :
    (plain.run = .running ∧ plain.decoded = .known (.addu 3 1 2)) ∧ (unknownAt.run = .running ∧ unknownAt.decoded = .unknown (.primary 0x3F)) := by
  decide

/-- W3: BEQ r1, r1, +2 at 0x80000100, and ADDIU r2, r2, 1 after it. -/
def branchAt : State := putBytes (place 0x80000100#32 0x10210002#32 []) 0x104 (bytesOfWord 0x24420001#32)

theorem witness_DelaySlotRunsOnceBeforeTheTarget :
    branchAt.run = .running ∧ branchAt.brArmed = false ∧ step branchAt = .next (afterD branchAt) ∧ (afterD branchAt).brArmed = true
      ∧ (afterD branchAt).decoded = .known (.addiu 2 2 1) :=
  ⟨rfl, rfl, step_eq_afterD (by decide), by decide, by decide⟩

/-- V9 S1: J 0x300 in the delay slot of J 0x200, and ADDIU r1, r1, 1 at 0x200. -/
def jumpInSlot : State :=
  { (putBytes (place 0x00000104#32 0x080000C0#32 []) 0x200 (bytesOfWord 0x24210001#32)) with brArmed := true, brTarget := 0x00000200#32 }

theorem witness_JumpInDelaySlot :
    jumpInSlot.run = .running ∧ jumpInSlot.brArmed = true ∧ jumpInSlot.decoded = .known (.j 0x00000C0)
      ∧ (afterD jumpInSlot).decoded = .known (.addiu 1 1 1) := by decide

theorem witness_SyscallInDelaySlotLosesTheBranch :
    ({ syscallAt with brArmed := true } : State).run = .running ∧ ({ syscallAt with brArmed := true } : State).brArmed = true
      ∧ ({ syscallAt with brArmed := true } : State).decoded = .known .syscall := by decide

theorem witness_OnlyBranchesLeaveABranchArmed :
    plain.run = .running ∧ plain.decoded = .known (.addu 3 1 2) ∧ mayBranch (.addu 3 1 2) = false := by decide

theorem witness_InterruptLineIsOnlyLatched : step { plain with irqLine := true } = .next (afterD { plain with irqLine := true }) :=
  step_eq_afterD (by decide)

/-- The three clauses of R261: a zero divisor, the quotient that does not fit, and the rest. -/
theorem witness_SignedDivision :
    plain.reg 0 = 0#32
      ∧ ((place 0 0 [(1, 0x80000000), (2, 0xFFFFFFFF)]).reg 1 = 0x80000000#32 ∧ (place 0 0 [(1, 0x80000000), (2, 0xFFFFFFFF)]).reg 2 = 0xFFFFFFFF#32)
      ∧ (plain.reg 2 ≠ 0#32 ∧ ¬ (plain.reg 1 = 0x80000000#32 ∧ plain.reg 2 = 0xFFFFFFFF#32)) := by decide

theorem witness_UnsignedDivision : plain.reg 0 = 0#32 ∧ plain.reg 2 ≠ 0#32 := by decide

/-- The address of SYSCALL may be the last word of the address space. -/
theorem witness_SyscallTrapEntry :
    ({ plain with pc := 0#32 } : State).pc = 0xFFFFFFFC#32 + 4#32 ∧ syscallAt.executing.pc = 0x80001000#32 + 4#32 := by decide

/-- The raw address is outside the window of R71, and the four bytes from its physical address up lie in region `r`. -/
abbrev fourIn (r : Region) (a : Word) : Prop :=
  inCacheControl a = false ∧ ∀ j < 4, regionOf (translateAddr a + BitVec.ofNat 32 j).toNat = r

/-- Loads at base r1 with offset 0, where r1 is the last word of RAM, the first of expansion region 1 and the last of ROM; and the last byte of RAM. -/
theorem witness_LoadsOfHeldBytes :
    (fourIn .ram 0x801FFFFC ∧ fourIn .exp1 0x1F000000 ∧ fourIn .rom 0xBFC7FFFC ∧ Region.ram.backed ∧ Region.exp1.backed ∧ Region.rom.backed)
      ∧ (inCacheControl 0xA01FFFFF#32 = false ∧ (regionOf (translateAddr 0xA01FFFFF#32).toNat).backed = true)
      ∧ (plain.reg 0 + (0x0000#16).signExtend 32 = 0#32) := by decide

theorem witness_LoadsCompleteEverywhere : Instr.lwr 2 0 0x101 ∈ [Instr.lwl 2 0 0x101, Instr.lwr 2 0 0x101] := by decide

/-- The first and the last unmapped bytes beside regions, and the first byte after the window. -/
theorem witness_LoadsOfUnmappedBytes :
    fourIn .unmapped 0x80200000 ∧ fourIn .unmapped 0xFFFE0200 ∧ fourIn .unmapped 0x1F7FFFFC ∧ fourIn .unmapped 0x1F803000 := by decide

/-- The first two bytes from the physical address of `a` up lie in region `r`, and the next two are unmapped. -/
abbrev halfIn (r : Region) (a : Word) : Prop :=
  inCacheControl a = false ∧ ∀ j < 4, regionOf (translateAddr a + BitVec.ofNat 32 j).toNat = if j < 2 then r else .unmapped

/-- The first and the last word, and the last byte, of the I/O window; and the words that run over the end of RAM (R94's example), of the
I/O window and of ROM. -/
theorem witness_LoadsFromDevices :
    (halfIn .ram 0x001FFFFE ∧ halfIn .io 0xBF802FFE ∧ halfIn .rom 0xBFC7FFFE)
      ∧ fourIn .io 0xBF801000 ∧ fourIn .io 0x1F802FFC
      ∧ inCacheControl 0x9F802FFF#32 = false ∧ regionOf (translateAddr 0x9F802FFF#32).toNat = .io := by decide

/-- The edges of the window, within and without. -/
theorem witness_CacheControlWindow :
    ([0xFFFE0000#32, 0xFFFE01FF#32].all fun a => decide (0xFFFE0000 ≤ BitVec.toNat a ∧ BitVec.toNat a < 0xFFFE0200))
      ∧ ([0xFFFDFFFF#32, 0xFFFE0200#32].all fun a => decide (BitVec.toNat a < 0xFFFE0000 ∨ 0xFFFE0200 ≤ BitVec.toNat a)) := by decide

theorem witness_ViewsMirror : [0x00000000#32, 0x1FFFFFFF#32].all fun p => decide (BitVec.toNat p < 0x20000000) := by decide

/-- The first and the last four bytes of RAM, in two views. -/
theorem witness_MixedWidthView :
    State.reset.mem.wf = true ∧ State.reset.isolated = false
      ∧ fourIn .ram 0xA0000000 ∧ fourIn .ram 0x801FFFFC := by decide

/-- Four bytes at base r1 that take a store: the last of RAM, and, under cache-isolate, the first of the scratchpad; for each width; and a
word that runs over the end of RAM, whose last two bytes take none. -/
theorem witness_StoresReplaceExactlyTheirBytes :
    (inCacheControl 0x001FFFFE#32 = false ∧ plain.Writable (translateAddr 0x001FFFFE#32) ∧ ¬ plain.Writable (translateAddr 0x001FFFFE#32 + 2#32))
      ∧ (plain.mem.wf = true ∧ ∀ j < 4, plain.Writable (translateAddr 0xA01FFFFC#32 + BitVec.ofNat 32 j))
      ∧ ((plain.setCp0 12 0x00010000#32).mem.wf = true
        ∧ ∀ j < 4, (plain.setCp0 12 0x00010000#32).Writable (translateAddr 0x1F800000#32 + BitVec.ofNat 32 j))
      ∧ inCacheControl 0xA01FFFFC#32 = false ∧ inCacheControl 0x1F800000#32 = false
      ∧ (place 0 0 [(1, 0xA01FFFFC)]).reg 1 + (0x0000#16).signExtend 32 = 0xA01FFFFC#32 := by decide

/-- One address for each clause: ROM, unmapped space, RAM under cache-isolate, and the I/O window. -/
theorem witness_StoresThatReplaceNothing :
    fourIn .rom 0xBFC7FFFC ∧ fourIn .unmapped 0x1FC80000 ∧ (fourIn .ram 0x80000000 ∧ (plain.setCp0 12 0x00010000#32).isolated = true)
      ∧ fourIn .io 0x1F801000 := by decide

/-- W6: SW r2, 0(r1) and LW r3, 0(r1). -/
def storeAt : State := place 0x80001000#32 0xAC220000#32 [(1, 0x80000400), (2, 0xCAFEF00D)]

theorem witness_StoreThenLoadWord :
    storeAt.mem.wf = true ∧ inCacheControl (storeAt.reg 1 + (0x0000#16).signExtend 32) = false
      ∧ (∀ j < 4, storeAt.Writable (translateAddr (storeAt.reg 1 + (0x0000#16).signExtend 32) + BitVec.ofNat 32 j))
      ∧ exec (.sw 2 1 0) storeAt = .next (memWrite (storeAt.reg 1 + (0x0000#16).signExtend 32) 4 (storeAt.reg 2) storeAt) :=
  ⟨by decide, by decide, by decide, rfl⟩

/-- The store overwrites the word at `pc`. -/
theorem witness_StoreIsSeenByTheNextFetch :
    let s : State := { storeAt with pc := 0x00000400#32 }
    s.mem.wf = true ∧ inCacheControl (s.reg 1 + (0x0000#16).signExtend 32) = false ∧ inCacheControl s.pc = false
      ∧ (∀ j < 4, s.Writable (translateAddr (s.reg 1 + (0x0000#16).signExtend 32) + BitVec.ofNat 32 j))
      ∧ translateAddr s.pc = translateAddr (s.reg 1 + (0x0000#16).signExtend 32)
      ∧ exec (.sw 2 1 0) s = .next (memWrite (s.reg 1 + (0x0000#16).signExtend 32) 4 (s.reg 2) s) :=
  ⟨by decide, by decide, by decide, by decide, by decide, rfl⟩

/-- With base `a` in r1, every place in the word (offsets 0 to 3), and the word in the window or not. -/
abbrev everyPlace (window : Bool) (a : Word) : Prop :=
  ∀ n < 4, let ea := (place 0 0 [(1, a)]).reg 1 + (BitVec.ofNat 16 n).signExtend 32
    (ea &&& 3#32).toNat = n ∧ inCacheControl (ea &&& 0xFFFFFFFC#32) = window

/-- RAM, unmapped space, ROM and the I/O window; and the first and the last word of the cache-control window. -/
theorem witness_LwlAndLwrBytes :
    everyPlace false 0x80000100 ∧ everyPlace false 0x80200000 ∧ everyPlace false 0xBFC7FFFC ∧ everyPlace false 0x1F801000
      ∧ everyPlace true 0xFFFE0000 ∧ everyPlace true 0xFFFE01FC := by
  refine ⟨?_, ?_, ?_, ?_, ?_, ?_⟩ <;> decide

theorem witness_SwlAndSwrBytes :
    ((place 0 0 [(1, 0x80000100)]).mem.wf = true ∧ everyPlace false 0x80000100
        ∧ (place 0 0 [(1, 0x80000100)]).Writable (translateAddr 0x80000100#32))
      ∧ ((place 0 0 [(1, 0xBFC7FFFC)]).mem.wf = true ∧ everyPlace false 0xBFC7FFFC
        ∧ ¬ (place 0 0 [(1, 0xBFC7FFFC)]).Writable (translateAddr 0xBFC7FFFC#32))
      ∧ everyPlace true 0xFFFE01FC := by
  refine ⟨⟨?_, ?_, ?_⟩, ⟨?_, ?_, ?_⟩, ?_⟩ <;> decide

/-- R347's example: LWR r2, 0x101(r0) and LWL r2, 0x104(r0). -/
theorem witness_UnalignedPairLoadsTheWord :
    (2#5 ≠ 0 ∧ 0#5 ≠ 2#5 ∧ plain.reg 0 + (0x0104#16).signExtend 32 = plain.reg 0 + (0x0101#16).signExtend 32 + 3#32)
      ∧ (∀ j < 4, inCacheControl (plain.reg 0 + (0x0101#16).signExtend 32 + BitVec.ofNat 32 j) = false
        ∧ (regionOf (translateAddr (plain.reg 0 + (0x0101#16).signExtend 32 + BitVec.ofNat 32 j)).toNat).backed = true)
      ∧ ∃ t, exec (.lwr 2 0 0x101) plain = .next t := ⟨by decide, by decide, _, rfl⟩

/-- MTC0 r1, r12 changes register 12, and SYSCALL changes registers 13 and 14. -/
theorem witness_Cp0IsWrittenOnlyByMtc0AndSyscall :
    let s := place 0x80001000#32 0x40816000#32 [(1, 0x00010000)]
    (step s = .next (afterD s) ∧ (afterD s).cp0Reg 12 ≠ s.cp0Reg 12)
      ∧ (step syscallAt = .next (afterD syscallAt) ∧ (afterD syscallAt).cp0Reg 13 ≠ syscallAt.cp0Reg 13
        ∧ (afterD syscallAt).cp0Reg 14 ≠ syscallAt.cp0Reg 14) :=
  ⟨⟨step_eq_afterD (by decide), by decide⟩, step_eq_afterD (by decide), by decide, by decide⟩

/-- MULT r1, r2. -/
theorem witness_HiLoAreWrittenOnlyByTheirInstructions :
    let s := place 0x80001000#32 0x00220018#32 [(1, 5), (2, 7)]
    step s = .next (afterD s) ∧ ¬ ((afterD s).hi = s.hi ∧ (afterD s).lo = s.lo) := ⟨step_eq_afterD (by decide), by decide⟩

theorem witness_OnlyStoresWriteMemory : step storeAt = .next (afterD storeAt) ∧ (afterD storeAt).mem ≠ storeAt.mem :=
  ⟨step_eq_afterD (by decide), by decide⟩

/-- A cycle that stores a word, and then a device's write to ROM. -/
theorem witness_RomIsImmutable :
    systemRun [.cycle, .external (.busWrite 0x1FC00000 1 0xFF)] storeAt = .next (External.act (.busWrite 0x1FC00000 1 0xFF) (afterD storeAt))
      ∧ regionOf (0x1FC00000#32).toNat = .rom := by
  refine ⟨?_, by decide⟩
  have h : systemStep .cycle storeAt = .next (afterD storeAt) := systemStep_eq_eventD (by decide)
  simp only [systemRun, h]
  rfl

/-- A store's cycle, and a device's write to RAM. -/
theorem witness_CacheIsolateProtectsRam :
    let s := storeAt.setCp0 12 0x00010000#32
    s.isolated = true ∧ systemStep .cycle s = .next (afterD s)
      ∧ systemStep (.external (.busWrite 0x400 1 0xFF)) s = .next (External.act (.busWrite 0x400 1 0xFF) s)
      ∧ regionOf (0x400#32).toNat = .ram := ⟨by decide, systemStep_eq_eventD (e := .cycle) (by decide), rfl, by decide⟩

theorem witness_EventSequencesOnlyGrow :
    systemRun [.external (.busRead 0x00200000 1), .external (.irq true)] plain
      = .next (External.act (.irq true) (External.act (.busRead 0x00200000 1) plain)) := rfl

theorem witness_LaunchParametersNeverChange : systemRun [.cycle] plain = .next (afterD plain) := by
  have h : systemStep .cycle plain = .next (afterD plain) := systemStep_eq_eventD (by decide)
  simp only [systemRun, h]

theorem witness_StoppedAndFatalAreFinal :
    plain.run = .running ∧ plain.stop.run ≠ .running ∧ (afterD unknownAt).run ≠ .running := by decide

theorem witness_StepKeepsTheInvariant : plain.Inv ∧ step plain = .next (afterD plain) := ⟨by decide, step_eq_afterD (by decide)⟩

theorem witness_EveryScheduleKeepsTheInvariant :
    plain.Inv ∧ systemRun [.external (.busWrite 0x100 4 0x11223344)] plain
      = .next (External.act (.busWrite 0x100 4 0x11223344) plain) := ⟨by decide, rfl⟩

/-- Every clause: an image of another size, and one of the right size, all zeros, with nothing in P_MEM_INIT. It launches to `State.reset`,
which shows too that `State.reset` is a state of R50 (log entry 3). -/
theorem witness_LaunchGivesTheResetState :
    ([] : List Byte).length ≠ 524288 ∧ (List.replicate romSize unlistedByte).length = 524288 ∧ Config.default.wf = true
      ∧ memInitOk [] = true ∧ State.launch Config.default (List.replicate romSize unlistedByte) [] = some State.reset := by
  refine ⟨by decide, List.length_replicate, by decide, by decide, ?_⟩
  unfold State.launch
  rw [if_pos ⟨List.length_replicate, by decide, by decide⟩, Memory.load_unlisted]
  rfl

end Sys2Proof.Tests
end

section
/-! The launch parameters (00_scope.md R8, R12): what P_EXTENDED changes in the decoder, that no schedule changes a parameter, and the
state a launch gives. -/

namespace Sys2Proof

/-- R134: a word decodes to an instruction when the maps look it up and P_EXTENDED admits it. -/
theorem decode_eq_known_iff (extended : Bool) (w : Word) (i : Instr) :
    decode extended w = .known i ↔ lookup (fields w) = .known i ∧ i.wf extended = true := by
  unfold decode
  cases lookup (fields w) with
  | unknown why => simp
  | known j =>
    by_cases hj : j.wf extended = true
    · simp only [if_pos hj, Decoded.known.injEq]
      exact ⟨fun e => ⟨e, e ▸ hj⟩, And.left⟩
    · simp only [if_neg hj, reduceCtorEq, Decoded.known.injEq, false_iff]
      exact fun ⟨e, hi⟩ => hj (e ▸ hi)

@[simp] theorem Instr.wf_true (i : Instr) : i.wf true = true := rfl

@[simp] theorem Instr.wf_false (i : Instr) : i.wf false = !i.isExtended := rfl

/-- Settles O6: both sides say that the maps look the word up, and P_EXTENDED decides only whether the instruction is admitted. -/
theorem extendedSwitchOnlyAdds : Obligations.ExtendedSwitchOnlyAdds := by
  intro w i
  simp [decode_eq_known_iff]

namespace Machine

/-! ### The parameters under every schedule -/

theorem State.stop_cfg (s : State) : s.stop.cfg = s.cfg := by
  unfold State.stop
  split <;> rfl

theorem External.act_cfg (e : External) (s : State) : (e.act s).cfg = s.cfg := by
  cases e with
  | deviceStep side => rfl
  | busRead q n => exact readBytes_cfg ..
  | busWrite q n v => exact writeBytes_cfg ..
  | irq level => rfl
  | stop => exact s.stop_cfg
  | snapshot => rfl
  | toggles i m => rfl

theorem State.fetch_cfg (s : State) : s.fetch.2.cfg = s.cfg := memRead_cfg ..

theorem step_cfg {s t : State} (h : step s = .next t) : t.cfg = s.cfg := by
  obtain ⟨-, ⟨i, u, -, -, frame, rfl⟩ | ⟨why, -, rfl⟩⟩ := step_cases h
  · exact frame.cfg.trans s.checkpoint.fetch_cfg
  · exact s.checkpoint.fetch_cfg

theorem systemStep_cfg (e : Event) (s t : State) (h : systemStep e s = .next t) : t.cfg = s.cfg := by
  cases e with
  | cycle => exact step_cfg h
  | external x =>
    cases h
    exact x.act_cfg s

/-- Settles O55: keeping the parameters is a transitive relation that every event respects. -/
theorem launchParametersNeverChange : Obligations.LaunchParametersNeverChange :=
  systemRun_relates (R := fun s t => t.cfg = s.cfg) (fun _ => rfl) (fun _ _ _ hst htu => htu.trans hst) systemStep_cfg

/-! ### The launch -/

/-- R80: where ROM lies. -/
theorem regionOf_eq_rom_iff (q : Nat) : regionOf q = .rom ↔ romBase ≤ q ∧ q < romBase + romSize := by
  unfold regionOf romBase romSize
  repeat' split
  all_goals simp only [reduceCtorEq, false_iff, true_iff]; omega

theorem regionOf_rom_image {i : Nat} (h : i < romSize) : regionOf (romBase + i) = .rom :=
  (regionOf_eq_rom_iff _).mpr ⟨by omega, by omega⟩

theorem backed_rom_image {i : Nat} (h : i < romSize) : (regionOf (romBase + i)).backed = true := by
  rw [regionOf_rom_image h]
  rfl

theorem launch_eq_some_iff (cfg : Config) (rom : List Byte) (init : Memory) (s : State) :
    State.launch cfg rom init = some s ↔ (rom.length = romSize ∧ cfg.wf = true ∧ memInitOk init = true)
      ∧ { State.reset with cfg := cfg, pc := cfg.resetPc, mem := init.load romBase rom } = s := by
  rw [State.launch, Option.ite_none_right_eq_some, Option.some.injEq]

theorem wf_of_memInitOk {init : Memory} (h : memInitOk init = true) : init.wf = true :=
  (Bool.and_eq_true_iff.mp h).1

theorem resetPc_of_wf {cfg : Config} (h : cfg.wf = true) : cfg.resetPc.toNat % 4 = 0 := by
  simpa using (Bool.and_eq_true_iff.mp h).1

section
variable {cfg : Config} {rom : List Byte} {init : Memory} {s : State}

/-- R400: a launch puts byte `i` of the image at physical 0x1FC00000 + `i`. -/
theorem byteAt_launch_rom (h : State.launch cfg rom init = some s) {i : Nat} (hi : i < romSize) :
    s.byteAt (BitVec.ofNat 32 (romBase + i)) = rom.getD i 0#8 := by
  obtain ⟨⟨hlen, -, hinit⟩, rfl⟩ := (launch_eq_some_iff ..).mp h
  have hq : (BitVec.ofNat 32 (romBase + i)).toNat = romBase + i := by
    rw [BitVec.toNat_ofNat, Nat.mod_eq_of_lt]
    unfold romBase
    unfold romSize at hi
    omega
  have hk : i < rom.length := hlen ▸ hi
  calc (init.load romBase rom).read (BitVec.ofNat 32 (romBase + i)).toNat
      = (init.load romBase rom).read (romBase + i) := by rw [hq]
    _ = rom[i] := Memory.read_load_inside rom (wf_of_memInitOk hinit) (fun _ hj => backed_rom_image (hlen ▸ hj)) i hk
    _ = rom.getD i 0#8 := (List.getD_eq_getElem _ _ hk).symm

/-- R400: outside ROM a launch leaves P_MEM_INIT. -/
theorem byteAt_launch_not_rom (h : State.launch cfg rom init = some s) {q : Word} (hq : regionOf q.toNat ≠ .rom) :
    s.byteAt q = init.read q.toNat := by
  obtain ⟨⟨hlen, -, -⟩, rfl⟩ := (launch_eq_some_iff ..).mp h
  rw [Ne, regionOf_eq_rom_iff] at hq
  exact Memory.read_load_outside init rom (by omega)

theorem inv_launch (h : State.launch cfg rom init = some s) : s.Inv := by
  obtain ⟨⟨hlen, hcfg, hinit⟩, rfl⟩ := (launch_eq_some_iff ..).mp h
  exact ⟨RegFile.get_zeros _, resetPc_of_wf hcfg, hcfg, rfl,
    Memory.wf_load rom (wf_of_memInitOk hinit) fun _ hk => backed_rom_image (hlen ▸ hk)⟩

/-- R50: every register of the launched state is 0. -/
theorem registers_launch (h : State.launch cfg rom init = some s) (r : RegNum) : s.reg r = 0#32 ∧ s.cp0Reg r = 0#32 := by
  obtain ⟨-, rfl⟩ := (launch_eq_some_iff ..).mp h
  simp [State.reg, State.cp0Reg, State.reset]

theorem isolated_launch (h : State.launch cfg rom init = some s) : s.isolated = false := by
  rw [State.isolated, (registers_launch h 12#5).2]
  rfl

end

/-- Settles O60: `State.launch` is the reset state of R50 with the parameters, the image and P_MEM_INIT put in. -/
theorem launchGivesTheResetState : Obligations.LaunchGivesTheResetState := by
  intro cfg rom init
  refine ⟨fun hlen => if_neg fun ok => hlen ok.1, fun hlen hcfg hinit => ⟨_, if_pos ⟨hlen, hcfg, hinit⟩⟩, fun s h => ?_⟩
  obtain ⟨⟨hlen, -, -⟩, rfl⟩ := (launch_eq_some_iff ..).mp h
  exact ⟨registers_launch h, rfl, rfl, rfl, rfl, rfl, rfl, rfl, rfl, rfl, rfl, isolated_launch h, hlen,
    fun _ hi => byteAt_launch_rom h hi, fun _ hq => byteAt_launch_not_rom h hq, inv_launch h⟩

end Machine

end Sys2Proof
end

section
/-! The state between cycles (10_state.md): what the fetch, a whole cycle and an external act leave of it, and from that the invariant,
`pc`, `cycles`, the delayed branch, the written registers, the event sequences and the final states of the loop. -/

namespace Sys2Proof.Machine

/-! ### The fetch, and the state in which the instruction executes -/

namespace State
variable (s : State)

@[simp] theorem fetch_pc : s.fetch.2.pc = s.pc := memRead_pc ..
@[simp] theorem fetch_hi : s.fetch.2.hi = s.hi := memRead_hi ..
@[simp] theorem fetch_lo : s.fetch.2.lo = s.lo := memRead_lo ..
@[simp] theorem fetch_cp0 : s.fetch.2.cp0 = s.cp0 := memRead_cp0 ..
@[simp] theorem fetch_brArmed : s.fetch.2.brArmed = s.brArmed := memRead_brArmed ..
@[simp] theorem fetch_brTarget : s.fetch.2.brTarget = s.brTarget := memRead_brTarget ..
@[simp] theorem fetch_irqLine : s.fetch.2.irqLine = s.irqLine := memRead_irqLine ..
@[simp] theorem fetch_irqPending : s.fetch.2.irqPending = s.irqPending := memRead_irqPending ..
@[simp] theorem fetch_cycles : s.fetch.2.cycles = s.cycles := memRead_cycles ..

@[simp] theorem executing_cfg : s.executing.cfg = s.cfg := s.checkpoint.fetch_cfg
@[simp] theorem executing_x : s.executing.x = s.x := memRead_x ..
@[simp] theorem executing_pc : s.executing.pc = s.pc + 4#32 := by simp [executing]
@[simp] theorem executing_hi : s.executing.hi = s.hi := by simp [executing]
@[simp] theorem executing_lo : s.executing.lo = s.lo := by simp [executing]
@[simp] theorem executing_cp0 : s.executing.cp0 = s.cp0 := by simp [executing]
@[simp] theorem executing_brArmed : s.executing.brArmed = false := rfl
@[simp] theorem executing_consumed : s.executing.consumed = if s.brArmed then some s.brTarget else none := by simp [executing]
@[simp] theorem executing_irqLine : s.executing.irqLine = s.irqLine := by simp [executing]
@[simp] theorem executing_irqPending : s.executing.irqPending = s.irqLine := by simp [executing]
@[simp] theorem executing_cycles : s.executing.cycles = s.cycles := by simp [executing]
@[simp] theorem executing_mem : s.executing.mem = s.mem := memRead_mem ..

end State

/-! ### The cycle -/

/-- R48: a running loop completes its step, whatever the word. -/
theorem step_next_of_running {s : State} (hr : s.run = .running) : ∃ t, step s = .next t := by
  cases hd : s.decoded with
  | known i =>
    obtain ⟨u, -, -, hs⟩ := step_known hr hd
    exact ⟨_, hs⟩
  | unknown why => exact ⟨_, step_unknown hr hd⟩

/-- R35: the three things a completed cycle can leave in `pc` are the vector (R371), the masked target (R165) and the next address
(R162). -/
theorem ExecFrame.endCycle_pc {i : Instr} {s u : State} (frame : ExecFrame i s.executing u) :
    u.endCycle.pc = if i = .syscall then s.cfg.excVector else if s.brArmed then wordAligned s.brTarget else s.pc + 4#32 := by
  rw [State.endCycle_pc, frame.consumed, frame.pc]
  by_cases hi : i = .syscall
  · simp [hi]
  · cases hb : s.brArmed <;> simp [hi, hb]

/-- R380: a step copies the level of the line into the latch and leaves the line. -/
theorem step_irq {s t : State} (h : step s = .next t) : t.irqLine = s.irqLine ∧ t.irqPending = s.irqLine := by
  obtain ⟨-, ⟨i, u, -, -, frame, rfl⟩ | ⟨why, -, rfl⟩⟩ := step_cases h
  · simp [frame.irqLine, frame.irqPending]
  · simp

/-! ### External acts -/

/-- R393: a stop changes `run` at most. -/
theorem State.stop_eq (s : State) : ∃ r, s.stop = { s with run := r } := by
  by_cases hr : s.run = .running
  · exact ⟨_, s.stop_of_running hr⟩
  · exact ⟨s.run, s.stop_of_not_running hr⟩

theorem External.act_run_of_not_running (e : External) {s : State} (hr : s.run ≠ .running) : (e.act s).run = s.run := by
  cases e with
  | deviceStep side => rfl
  | busRead q n => exact readBytes_run ..
  | busWrite q n v => exact writeBytes_run ..
  | irq level => rfl
  | stop => exact congrArg State.run (s.stop_of_not_running hr)
  | snapshot => rfl
  | toggles i m => rfl

/-! ### The invariant -/

theorem excVector_of_wf {cfg : Config} (h : cfg.wf = true) : cfg.excVector.toNat % 4 = 0 := by
  simpa using (Bool.and_eq_true_iff.mp h).2

theorem ReadEffect.inv {s t : State} (h : ReadEffect s t) (hs : s.Inv) : t.Inv := by
  obtain ⟨d, l, rfl⟩ := h
  exact hs

theorem WriteEffect.inv {P : Nat → Prop} {s t : State} (h : WriteEffect P s t) (hs : s.Inv) : t.Inv := by
  obtain ⟨m, d, l, rfl, -, -, -, hwf⟩ := h
  obtain ⟨hx, hpc, hcfg, hcons, hmem⟩ := hs
  exact ⟨hx, hpc, hcfg, hcons, hwf hmem⟩

/-- R36: whichever of its three values `pc` gets, it is a multiple of 4. -/
theorem ExecFrame.endCycle_pc_aligned {i : Instr} {s u : State} (frame : ExecFrame i s.executing u) (hs : s.Inv) :
    u.endCycle.pc.toNat % 4 = 0 := by
  obtain ⟨-, hpc, hcfg, -, -⟩ := hs
  rw [frame.endCycle_pc]
  split
  · exact excVector_of_wf hcfg
  · split
    · rw [wordAligned_toNat]
      omega
    · rw [BitVec.toNat_add, BitVec.toNat_ofNat]
      omega

theorem ExecFrame.endCycle_inv {i : Instr} {s u : State} (frame : ExecFrame i s.executing u) (hs : s.Inv) : u.endCycle.Inv := by
  have hpc := frame.endCycle_pc_aligned hs
  obtain ⟨hx, -, hcfg, -, hmem⟩ := hs
  refine ⟨?_, hpc, ?_, rfl, ?_⟩
  · rw [State.endCycle_x, frame.entryZero, s.executing_x, hx]
  · rw [State.endCycle_cfg, frame.cfg, s.executing_cfg, hcfg]
  · exact frame.memWf (s.executing_mem ▸ hmem)

theorem External.act_inv (e : External) {s : State} (hs : s.Inv) : (e.act s).Inv := by
  cases e with
  | deviceStep side => exact hs
  | busRead q n => exact (readBytes_effect n n q s).inv hs
  | busWrite q n v => exact (writeBytes_effect n n q v s).inv hs
  | irq level => exact hs
  | stop =>
    obtain ⟨r, hr⟩ := s.stop_eq
    rw [External.act, hr]
    exact hs
  | snapshot => exact hs
  | toggles i m => exact hs

/-- Settles O58: a completed cycle by the bound on its instruction, and the cycle of an unknown word by the effects of its fetch. -/
theorem stepKeepsTheInvariant : Obligations.StepKeepsTheInvariant := by
  intro s t hs h
  obtain ⟨-, ⟨i, u, -, -, frame, rfl⟩ | ⟨why, -, rfl⟩⟩ := step_cases h
  · exact frame.endCycle_inv hs
  · have hf : s.checkpoint.fetch.2.Inv := (fetch_effect s.checkpoint).inv hs
    exact hf

theorem systemStep_inv (e : Event) (s t : State) (hs : s.Inv) (h : systemStep e s = .next t) : t.Inv := by
  cases e with
  | cycle => exact stepKeepsTheInvariant s t hs h
  | external x =>
    cases h
    exact x.act_inv hs

/-- Settles O59: every event keeps the invariant, so every schedule does. -/
theorem everyScheduleKeepsTheInvariant : Obligations.EveryScheduleKeepsTheInvariant :=
  systemRun_keeps systemStep_inv

/-- Settles O57: every register is 0, memory is empty, and `pc` is P_RESET_PC, a multiple of 4 at its default. -/
theorem resetMeetsTheInvariant : Obligations.ResetMeetsTheInvariant :=
  ⟨RegFile.get_zeros _, resetPc_of_wf (cfg := .default) rfl, rfl, rfl, rfl⟩

/-! ### The loop, `pc` and the delayed branch -/

/-- Settles O9: a step that answers a next state was taken by a running loop, and a running loop completes its step. -/
theorem stepCompletesExactlyWhileRunning : Obligations.StepCompletesExactlyWhileRunning :=
  fun _ => ⟨fun ⟨_, h⟩ => (step_cases h).1, step_next_of_running⟩

/-- Settles O10, by the bound on the instruction's effect on `pc` and on the consumed branch. -/
theorem pcAfterCompletedCycle : Obligations.PcAfterCompletedCycle := by
  intro s i hr hd
  obtain ⟨u, -, frame, hs⟩ := step_known hr hd
  exact ⟨u.endCycle, hs, frame.endCycle_pc⟩

/-- Settles O15: the cycle disarms before it executes, and ends with no consumed branch. -/
theorem onlyBranchesLeaveABranchArmed : Obligations.OnlyBranchesLeaveABranchArmed := by
  intro s i hr hd
  obtain ⟨u, -, frame, hs⟩ := step_known hr hd
  exact ⟨u.endCycle, hs, rfl, frame.brArmed⟩

/-- Settles O56: a stop acts on a running loop only, and no other act reaches `run`. -/
theorem stoppedAndFatalAreFinal : Obligations.StoppedAndFatalAreFinal := fun s =>
  ⟨fun hr => congrArg State.run (s.stop_of_running hr),
    fun hr => ⟨fun e => e.act_run_of_not_running hr, fun _ h => hr (step_cases h).1⟩⟩

/-! ### The cycle counter -/

section
variable (s : State) (l p : Bool) (c : BitVec 64)

theorem checkpoint_fetch_unread : (s.withUnread l p c).checkpoint.fetch =
    (s.checkpoint.fetch.1, s.checkpoint.fetch.2.withUnread l l c) :=
  memRead_unread l l c s.pc 4 s.checkpoint

theorem decoded_unread : (s.withUnread l p c).decoded = s.decoded := by
  unfold State.decoded
  rw [checkpoint_fetch_unread]
  rfl

theorem executing_unread : (s.withUnread l p c).executing = s.executing.withUnread l l c := by
  unfold State.executing
  rw [checkpoint_fetch_unread]
  rfl

end

section
variable {s t : State} (l p : Bool) (c : BitVec 64)

/-- R47, R380: other values of the fields that nothing reads change a completed cycle in these fields alone. -/
theorem step_unread_known {i : Instr} (hd : s.decoded = .known i) (h : step s = .next t) :
    step (s.withUnread l p c) = .next (t.withUnread l l (c + 1#64)) := by
  obtain ⟨hr, ⟨j, u, hj, hu, -, rfl⟩ | ⟨why, hw, -⟩⟩ := step_cases h
  · obtain ⟨u', hu', -, hs⟩ := step_known (s := s.withUnread l p c) hr ((decoded_unread ..).trans hj)
    rw [executing_unread, exec_unread l l c j _ u hu] at hu'
    cases hu'
    exact hs
  · rw [hd] at hw
    cases hw

/-- R375: likewise for the cycle of an unknown word, which does not count. -/
theorem step_unread_unknown {why : UnknownWord} (hd : s.decoded = .unknown why) (h : step s = .next t) :
    step (s.withUnread l p c) = .next (t.withUnread l l c) := by
  have hr := (step_cases h).1
  rw [step_unknown hr hd] at h
  cases h
  rw [step_unknown (s := s.withUnread l p c) hr ((decoded_unread ..).trans hd), checkpoint_fetch_unread]
  rfl

end

/-- Another `cycles` alone is a case of other values in all the fields that nothing reads: the line and the latch after a step
are what the checkpoint made them. -/
theorem withUnread_cycles_of_step {s t : State} (h : step s = .next t) (c : BitVec 64) :
    t.withUnread s.irqLine s.irqLine c = { t with cycles := c } := by
  obtain ⟨hline, hpending⟩ := step_irq h
  simp [State.withUnread, hline, hpending]

/-- Settles O11: the bound on the instruction, or the fetch of an unknown word, says what a step adds to `cycles`; another `cycles` goes
through the step unread. -/
theorem cyclesCountCompletedCycles : Obligations.CyclesCountCompletedCycles := by
  intro s hr
  cases hd : s.decoded with
  | known i =>
    obtain ⟨u, -, frame, hs⟩ := step_known hr hd
    refine ⟨u.endCycle, hs, ?_, fun c => ?_⟩
    · simp [frame.cycles]
    · exact withUnread_cycles_of_step hs (c + 1#64) ▸ step_unread_known s.irqLine s.irqPending c hd hs
  | unknown why =>
    have hs := step_unknown hr hd
    refine ⟨_, hs, ?_, fun c => ?_⟩
    · simp
    · exact withUnread_cycles_of_step hs c ▸ step_unread_unknown s.irqLine s.irqPending c hd hs

/-! ### What a step may write -/

/-- Settles O49: the fetch and the end of the cycle leave the CP0 bank alone, and `ExecFrame` says which instructions do not. -/
theorem cp0IsWrittenOnlyByMtc0AndSyscall : Obligations.Cp0IsWrittenOnlyByMtc0AndSyscall := by
  intro s t k h hne
  obtain ⟨-, ⟨i, u, hd, -, frame, rfl⟩ | ⟨why, -, rfl⟩⟩ := step_cases h
  · have hu : u.cp0Reg k ≠ s.executing.cp0Reg k := by rwa [State.cp0Reg_of_cp0_eq s.executing_cp0]
    obtain ⟨rt, rfl⟩ | ⟨rfl, hk⟩ := frame.cp0 k hu
    · exact .inl ⟨rt, hd⟩
    · exact .inr ⟨hd, hk⟩
  · exact absurd (State.cp0Reg_of_cp0_eq s.checkpoint.fetch_cp0 k) hne

/-- Settles O50: the fetch and the end of the cycle leave HI and LO alone, and so does an instruction that does not write them. -/
theorem hiLoAreWrittenOnlyByTheirInstructions : Obligations.HiLoAreWrittenOnlyByTheirInstructions := by
  intro s t h hne
  obtain ⟨-, ⟨i, u, hd, -, frame, rfl⟩ | ⟨why, -, rfl⟩⟩ := step_cases h
  · refine ⟨i, hd, ?_⟩
    by_contra hw
    obtain ⟨hhi, hlo⟩ := frame.hiLo (Bool.eq_false_iff.mpr hw)
    exact hne ⟨hhi.trans s.executing_hi, hlo.trans s.executing_lo⟩
  · exact absurd ⟨s.checkpoint.fetch_hi, s.checkpoint.fetch_lo⟩ hne

/-- Settles O17: register 0 is read and written without the register file. -/
theorem registerZeroIsHardWired : Obligations.RegisterZeroIsHardWired :=
  fun s v => ⟨s.reg_zero, s.setReg_zero v⟩

/-! ### The event sequences -/

/-- From `s` to `t` the diagnostic events and the device calls are only added to (R49, R84). -/
def EventsGrow (s t : State) : Prop := s.diag <+: t.diag ∧ s.ioLog <+: t.ioLog

theorem EventsGrow.refl (s : State) : EventsGrow s s := ⟨s.diag.prefix_refl, s.ioLog.prefix_refl⟩

theorem EventsGrow.trans {s t u : State} (h : EventsGrow s t) (h' : EventsGrow t u) : EventsGrow s u :=
  ⟨h.1.trans h'.1, h.2.trans h'.2⟩

theorem ReadEffect.eventsGrow {s t : State} (h : ReadEffect s t) : EventsGrow s t := by
  obtain ⟨d, l, rfl⟩ := h
  exact ⟨List.prefix_append .., List.prefix_append ..⟩

theorem WriteEffect.eventsGrow {P : Nat → Prop} {s t : State} (h : WriteEffect P s t) : EventsGrow s t := by
  obtain ⟨m, d, l, rfl, -⟩ := h
  exact ⟨List.prefix_append .., List.prefix_append ..⟩

theorem step_eventsGrow {s t : State} (h : step s = .next t) : EventsGrow s t := by
  have hfetch : EventsGrow s s.checkpoint.fetch.2 := (fetch_effect s.checkpoint).eventsGrow
  obtain ⟨-, ⟨i, u, -, -, frame, rfl⟩ | ⟨why, -, rfl⟩⟩ := step_cases h
  · exact hfetch.trans ⟨frame.diag, frame.ioLog⟩
  · exact hfetch

theorem External.act_eventsGrow (e : External) (s : State) : EventsGrow s (e.act s) := by
  cases e with
  | deviceStep side => exact .refl s
  | busRead q n => exact (readBytes_effect n n q s).eventsGrow
  | busWrite q n v => exact (writeBytes_effect n n q v s).eventsGrow
  | irq level => exact .refl s
  | stop =>
    obtain ⟨r, hr⟩ := s.stop_eq
    rw [External.act, hr]
    exact .refl s
  | snapshot => exact .refl s
  | toggles i m => exact .refl s

theorem systemStep_eventsGrow (e : Event) (s t : State) (h : systemStep e s = .next t) : EventsGrow s t := by
  cases e with
  | cycle => exact step_eventsGrow h
  | external x =>
    cases h
    exact x.act_eventsGrow s

/-- Settles O54: growing is reflexive and transitive, and every event respects it. -/
theorem eventSequencesOnlyGrow : Obligations.EventSequencesOnlyGrow :=
  systemRun_relates (R := EventsGrow) .refl (fun _ _ _ => .trans) systemStep_eventsGrow

end Sys2Proof.Machine
end

section
/-! Memory as the program sees it (20_memory.md, 44_loadstore.md, the unaligned pairs of 46_extended.md): what no event changes, the window
and the views, the loads, the stores, and what a load or a fetch reads after a store. -/

namespace Sys2Proof.Machine

/-! ### The bytes that no event changes -/

/-- From `s` to `t` no byte of ROM changes (R86), and none of RAM while cache-isolate is set (R95). -/
structure KeepsProtected (s t : State) : Prop where
  rom : ∀ a, regionOf a = .rom → t.mem.read a = s.mem.read a
  isolatedRam : s.isolated = true → ∀ a, regionOf a = .ram → t.mem.read a = s.mem.read a

theorem KeepsProtected.of_mem_eq {s t : State} (h : t.mem = s.mem) : KeepsProtected s t := by
  constructor <;> simp [h]

theorem WriteEffect.keepsProtected {P : Nat → Prop} {s t : State} (h : WriteEffect P s t) : KeepsProtected s t := by
  obtain ⟨m, d, l, rfl, -, hrom, hram, -⟩ := h
  exact ⟨hrom, hram⟩

theorem step_keepsProtected {s t : State} (h : step s = .next t) : KeepsProtected s t := by
  obtain ⟨-, ⟨i, u, -, -, frame, rfl⟩ | ⟨why, -, rfl⟩⟩ := step_cases h
  · have hmem := s.executing_mem
    have hiso : s.executing.isolated = s.isolated := State.isolated_of_cp0_eq s.executing_cp0
    exact ⟨hmem ▸ frame.rom, hiso ▸ hmem ▸ frame.isolatedRam⟩
  · exact .of_mem_eq (memRead_mem ..)

theorem External.act_keepsProtected (e : External) (s : State) : KeepsProtected s (e.act s) := by
  cases e with
  | deviceStep side => exact .of_mem_eq rfl
  | busRead q n => exact .of_mem_eq (readBytes_mem ..)
  | busWrite q n v => exact (writeBytes_effect n n q v s).keepsProtected
  | irq level => exact .of_mem_eq rfl
  | stop =>
    obtain ⟨r, hr⟩ := s.stop_eq
    exact .of_mem_eq (by rw [External.act, hr])
  | snapshot => exact .of_mem_eq rfl
  | toggles i m => exact .of_mem_eq rfl

theorem systemStep_keepsProtected {e : Event} {s t : State} (h : systemStep e s = .next t) : KeepsProtected s t := by
  cases e with
  | cycle => exact step_keepsProtected h
  | external x =>
    cases h
    exact x.act_keepsProtected s

/-- Settles O52: keeping the bytes of ROM is a transitive relation that every event respects. -/
theorem romIsImmutable : Obligations.RomIsImmutable :=
  systemRun_relates (R := fun s t => ∀ q : Word, regionOf q.toNat = .rom → t.byteAt q = s.byteAt q) (fun _ _ _ => rfl)
    (fun _ _ _ hst htu q hq => (htu q hq).trans (hst q hq)) fun _ _ _ h q hq => (systemStep_keepsProtected h).rom q.toNat hq

/-- Settles O53: no event writes RAM while cache-isolate is set. -/
theorem cacheIsolateProtectsRam : Obligations.CacheIsolateProtectsRam :=
  fun _ _ _ hi h q hq => (systemStep_keepsProtected h).isolatedRam hi q.toNat hq

/-- Settles O51: the fetch and the end of the cycle leave memory alone, and so does an instruction that is no store. -/
theorem onlyStoresWriteMemory : Obligations.OnlyStoresWriteMemory := by
  intro s t h hne
  obtain ⟨-, ⟨i, u, hd, -, frame, rfl⟩ | ⟨why, -, rfl⟩⟩ := step_cases h
  · refine ⟨i, hd, ?_⟩
    by_contra hs
    exact hne ((frame.mem (Bool.eq_false_iff.mpr hs)).trans s.executing_mem)
  · exact absurd (memRead_mem ..) hne

/-! ### The cache-control window and the views -/

theorem inCacheControl_eq_true_iff (a : Word) : inCacheControl a = true ↔ 0xFFFE0000 ≤ a.toNat ∧ a.toNat < 0xFFFE0200 := by
  simp [inCacheControl]

theorem inCacheControl_eq_false_iff (a : Word) : inCacheControl a = false ↔ a.toNat < 0xFFFE0000 ∨ 0xFFFE0200 ≤ a.toNat := by
  rw [← Bool.not_eq_true, inCacheControl_eq_true_iff]
  omega

/-- Settles O35: each of the two bounds of the window says which branch `memRead` and `memWrite` take. -/
theorem cacheControlWindow : Obligations.CacheControlWindow := by
  intro s a v n
  refine ⟨fun hlo hhi => ?_, fun hout => ?_⟩
  · have hw := (inCacheControl_eq_true_iff a).mpr ⟨hlo, hhi⟩
    exact ⟨memRead_window hw, memWrite_window hw⟩
  · have hw := (inCacheControl_eq_false_iff a).mpr hout
    exact ⟨memRead_of_not_window hw, memWrite_of_not_window hw⟩

/-- Two raw addresses that no access can tell apart: outside the window, with one physical address. -/
def SameBytes (a a' : Word) : Prop := inCacheControl a = false ∧ inCacheControl a' = false ∧ translateAddr a = translateAddr a'

theorem SameBytes.memRead_eq {a a' : Word} (h : SameBytes a a') (n : Nat) (s : State) : memRead a n s = memRead a' n s := by
  obtain ⟨ha, ha', ht⟩ := h
  rw [memRead_of_not_window ha, memRead_of_not_window ha', ht]

theorem SameBytes.memWrite_eq {a a' : Word} (h : SameBytes a a') (n : Nat) (v : Word) (s : State) :
    memWrite a n v s = memWrite a' n v s := by
  obtain ⟨ha, ha', ht⟩ := h
  rw [memWrite_of_not_window ha, memWrite_of_not_window ha', ht]

section
variable {p : Word} (hp : p.toNat < 0x20000000)
include hp

theorem toNat_kseg0 : (p + 0x80000000#32).toNat = p.toNat + 0x80000000 := by
  rw [BitVec.toNat_add, BitVec.toNat_ofNat]
  omega

theorem toNat_kseg1 : (p + 0xA0000000#32).toNat = p.toNat + 0xA0000000 := by
  rw [BitVec.toNat_add, BitVec.toNat_ofNat]
  omega

theorem translateAddr_kuseg : translateAddr p = p := (translateAddr_high p).2 (by omega)

theorem translateAddr_kseg0 : translateAddr (p + 0x80000000#32) = p := by
  rw [translateAddr, toNat_kseg0 hp, if_neg (by omega), if_pos (by omega), BitVec.add_sub_cancel]

theorem translateAddr_kseg1 : translateAddr (p + 0xA0000000#32) = p := by
  rw [translateAddr, toNat_kseg1 hp, if_pos (by omega), BitVec.add_sub_cancel]

/-- A raw address below the window whose physical address is `p` is a view of `p`. -/
theorem sameBytes_of_translateAddr {a : Word} (ha : a.toNat < 0xFFFE0000) (ht : translateAddr a = p) : SameBytes a p :=
  ⟨(inCacheControl_eq_false_iff a).mpr (.inl ha), (inCacheControl_eq_false_iff p).mpr (by omega),
    ht.trans (translateAddr_kuseg hp).symm⟩

theorem sameBytes_kseg0 : SameBytes (p + 0x80000000#32) p :=
  sameBytes_of_translateAddr hp (by rw [toNat_kseg0 hp]; omega) (translateAddr_kseg0 hp)

theorem sameBytes_kseg1 : SameBytes (p + 0xA0000000#32) p :=
  sameBytes_of_translateAddr hp (by rw [toNat_kseg1 hp]; omega) (translateAddr_kseg1 hp)

end

/-- Settles O36: the three raw addresses lie outside the window and have one physical address, and an access sees no more of them. -/
theorem viewsMirror : Obligations.ViewsMirror := by
  intro s p v n hp
  have h0 := sameBytes_kseg0 hp
  have h1 := sameBytes_kseg1 hp
  exact ⟨h0.memRead_eq n s, h1.memRead_eq n s, h0.memWrite_eq n v s, h1.memWrite_eq n v s⟩

/-! ### Loads -/

/-- A load of `n` bytes that extends by `f` gives the value `v` of the bytes it read, in ascending order. -/
def LoadValue (n : Nat) (f : Word → Word) (v : (Nat → Byte) → Word) : Prop :=
  ∀ b : Nat → Byte, f (wordOfBytes ((List.range n).map b)) = v b

theorem loadValue_lb : LoadValue 1 (signExtendBytes 1) fun b => (b 0).signExtend 32 := by
  intro b
  simp [signExtendBytes]

theorem loadValue_lbu : LoadValue 1 (zeroExtendBytes 1) fun b => (b 0).setWidth 32 := by
  intro b
  simp [zeroExtendBytes]

theorem setWidth_wordOfBytes_two (b0 b1 : Byte) : (wordOfBytes [b0, b1]).setWidth 16 = b1 ++ b0 := by
  rw [wordOfBytes_two, BitVec.setWidth_setWidth_of_le _ (by decide), BitVec.setWidth_eq]

theorem loadValue_lh : LoadValue 2 (signExtendBytes 2) fun b => (b 1 ++ b 0).signExtend 32 :=
  fun b => congrArg (BitVec.signExtend 32) (setWidth_wordOfBytes_two (b 0) (b 1))

theorem loadValue_lhu : LoadValue 2 (zeroExtendBytes 2) fun b => (b 1 ++ b 0).setWidth 32 :=
  fun b => congrArg (BitVec.setWidth 32) (setWidth_wordOfBytes_two (b 0) (b 1))

theorem loadValue_lw : LoadValue 4 id fun b => b 3 ++ b 2 ++ b 1 ++ b 0 :=
  fun b => wordOfBytes_four (b 0) (b 1) (b 2) (b 3)

/-- R87, R96: a read of unmapped bytes answers 0 and records one event a byte. -/
theorem memRead_unmapped {a : Word} {n : Nat} {s : State} (hw : inCacheControl a = false)
    (h : ∀ j < n, regionOf (translateAddr a + BitVec.ofNat 32 j).toNat = .unmapped) :
    memRead a n s = (wordOfBytes ((List.range n).map fun _ => 0#8),
      { s with diag := s.diag ++ (List.range n).map fun j => .unmappedRead (translateAddr a + BitVec.ofNat 32 j) n }) := by
  rw [memRead_of_not_window hw, readBytes_unmapped n n _ s h, List.map_const', List.length_range]

theorem State.recordReads_of_io {s : State} {n : Nat} {cs : List (Word × Byte)} (h : ∀ c ∈ cs, regionOf c.1.toNat = .io) :
    s.recordReads n cs = { s with ioLog := s.ioLog ++ cs.map fun c => .read8 (c.1.toNat - 0x1F801000) c.2 } := by
  induction cs generalizing s with
  | nil => simp [State.recordReads]
  | cons c cs ih =>
    have hc := h c List.mem_cons_self
    rw [← State.recordReads_cons, ih fun c' hc' => h c' (List.mem_cons_of_mem c hc')]
    simp [State.recordReads, hc]

section
variable {n : Nat} {f : Word → Word} {v : (Nat → Byte) → Word} {s : State} {rt rs : RegNum} {imm : Imm16}

/-- R280-R284: a load completes and writes the extended value of the read, in the state the read leaves. -/
theorem loadWith_of_memRead {w : Word} {u : State} (h : memRead (effAddr (s.reg rs) imm) n s = (w, u)) :
    ∃ t, loadWith n f rt rs imm s = .next t ∧ WritesReg u t rt (f w) := by
  refine ⟨u.setReg rt (f w), ?_, setReg_writesReg u rt (f w)⟩
  rw [loadWith, h]

variable (hv : LoadValue n f v) (hw : inCacheControl (effAddr (s.reg rs) imm) = false)
include hv hw

theorem LoadValue.held (h : ∀ j < n, (regionOf (translateAddr (effAddr (s.reg rs) imm) + BitVec.ofNat 32 j).toNat).backed = true) :
    ∃ t, loadWith n f rt rs imm s = .next t
      ∧ WritesReg s t rt (v fun j => s.byteAt (translateAddr (effAddr (s.reg rs) imm) + BitVec.ofNat 32 j)) :=
  hv _ ▸ loadWith_of_memRead (memRead_backed hw h)

theorem LoadValue.unmapped (h : ∀ j < n, regionOf (translateAddr (effAddr (s.reg rs) imm) + BitVec.ofNat 32 j).toNat = .unmapped) :
    ∃ t, loadWith n f rt rs imm s = .next t
      ∧ WritesReg { s with diag := s.diag ++
          (List.range n).map fun j => .unmappedRead (translateAddr (effAddr (s.reg rs) imm) + BitVec.ofNat 32 j) n }
        t rt (v fun _ => 0#8) :=
  hv _ ▸ loadWith_of_memRead (memRead_unmapped hw h)

/-- R90, R94: a load resolves each of its bytes on its own, whatever their regions. -/
theorem LoadValue.each : ∃ t b, loadWith n f rt rs imm s = .next t
    ∧ (∀ j < n, s.Answers (translateAddr (effAddr (s.reg rs) imm) + BitVec.ofNat 32 j) (b j))
    ∧ WritesReg (s.recordReads n ((List.range n).map fun j => (translateAddr (effAddr (s.reg rs) imm) + BitVec.ofNat 32 j, b j)))
        t rt (v b) := by
  obtain ⟨b, hb, hread⟩ := readBytes_each n n (translateAddr (effAddr (s.reg rs) imm)) s
  obtain ⟨t, ht, hreg⟩ := loadWith_of_memRead (f := f) (rt := rt) ((memRead_of_not_window hw).trans (by rw [hread]))
  exact ⟨t, b, ht, hb, hv b ▸ hreg⟩

theorem LoadValue.device (h : ∀ j < n, regionOf (translateAddr (effAddr (s.reg rs) imm) + BitVec.ofNat 32 j).toNat = .io) :
    ∃ t b, loadWith n f rt rs imm s = .next t
      ∧ WritesReg { s with ioLog := s.ioLog ++
          (List.range n).map fun j => .read8 ((translateAddr (effAddr (s.reg rs) imm) + BitVec.ofNat 32 j).toNat - 0x1F801000) (b j) }
        t rt (v b) := by
  obtain ⟨t, b, ht, -, hreg⟩ := hv.each (rt := rt) hw
  refine ⟨t, b, ht, ?_⟩
  rwa [State.recordReads_of_io (by simpa using h), List.map_map] at hreg

end

/-- Settles O31: a read of held bytes answers them and has no effect. -/
theorem loadsOfHeldBytes : Obligations.LoadsOfHeldBytes := by
  intro s rt rs imm ea at' b held hw
  exact ⟨loadValue_lb.held hw, loadValue_lbu.held hw, loadValue_lh.held hw, loadValue_lhu.held hw, loadValue_lw.held hw⟩

/-- Settles O33: a read of unmapped bytes answers zeros, which every extension leaves 0. -/
theorem loadsOfUnmappedBytes : Obligations.LoadsOfUnmappedBytes := by
  intro s rt rs imm ea at' unmapped hw
  refine ⟨?_, ?_, loadValue_lw.unmapped hw⟩
  · simp only [List.forall_mem_cons]
    exact ⟨loadValue_lb.unmapped hw, loadValue_lbu.unmapped hw, List.forall_mem_nil _⟩
  · simp only [List.forall_mem_cons]
    exact ⟨loadValue_lh.unmapped hw, loadValue_lhu.unmapped hw, List.forall_mem_nil _⟩

/-- Settles O34: the bytes are read one at a time, each with its region's answer and record; in the I/O window each record is a
device call. -/
theorem loadsFromDevices : Obligations.LoadsFromDevices := by
  intro s rt rs imm ea at' off device hw
  refine ⟨fun h => ?_, fun h => ?_, fun h => ?_, fun h => ?_, fun h => ?_, fun n i v hi => ?_⟩
  · obtain ⟨t, b, ht⟩ := loadValue_lb.device (rt := rt) hw h
    exact ⟨t, b 0, ht⟩
  · obtain ⟨t, b, ht⟩ := loadValue_lbu.device (rt := rt) hw h
    exact ⟨t, b 0, ht⟩
  · obtain ⟨t, b, ht⟩ := loadValue_lh.device (rt := rt) hw h
    exact ⟨t, b 0, b 1, ht⟩
  · obtain ⟨t, b, ht⟩ := loadValue_lhu.device (rt := rt) hw h
    exact ⟨t, b 0, b 1, ht⟩
  · obtain ⟨t, b, ht⟩ := loadValue_lw.device (rt := rt) hw h
    exact ⟨t, b 0, b 1, b 2, b 3, ht⟩
  · simp only [List.mem_cons, Prod.mk.injEq, List.not_mem_nil, or_false] at hi
    obtain ⟨rfl, rfl, rfl⟩ | ⟨rfl, rfl, rfl⟩ | ⟨rfl, rfl, rfl⟩ | ⟨rfl, rfl, rfl⟩ | ⟨rfl, rfl, rfl⟩ := hi
    · exact loadValue_lb.each hw
    · exact loadValue_lbu.each hw
    · exact loadValue_lh.each hw
    · exact loadValue_lhu.each hw
    · exact loadValue_lw.each hw

/-! ### Stores -/

/-- R285-R287: outside the window SB, SH and SW write the low 1, 2 or 4 bytes of `rt` from the translated effective address up. -/
theorem exec_store {s : State} {rt rs : RegNum} {imm : Imm16} (hw : inCacheControl (effAddr (s.reg rs) imm) = false) {n : Nat} {i : Instr}
    (h : (n, i) ∈ [(1, Instr.sb rt rs imm), (2, .sh rt rs imm), (4, .sw rt rs imm)]) :
    n ≤ 4 ∧ exec i s = .next (writeBytes n n (translateAddr (effAddr (s.reg rs) imm)) (s.reg rt) s) := by
  rw [← memWrite_of_not_window hw]
  simp only [List.mem_cons, Prod.mk.injEq, List.not_mem_nil, or_false] at h
  obtain ⟨rfl, rfl⟩ | ⟨rfl, rfl⟩ | ⟨rfl, rfl⟩ := h
  · exact ⟨by decide, rfl⟩
  · exact ⟨by decide, rfl⟩
  · exact ⟨by decide, rfl⟩

/-- Settles O39: the bytes are written one at a time, each replaced or recorded as its region says. -/
theorem storesReplaceExactlyTheirBytes : Obligations.StoresReplaceExactlyTheirBytes := by
  intro s rt rs imm ea p b hm hw n i hi
  obtain ⟨hn, he⟩ := exec_store hw hi
  obtain ⟨hbytes, m, hrec⟩ := writeBytes_each n n (by omega) p (s.reg rt) s hm
  exact ⟨_, he, hbytes, congrArg (fun t : State => { t with mem := s.mem }) hrec⟩

/-- Settles O41: each of the four regions discards every byte of the write in its own way. -/
theorem storesThatReplaceNothing : Obligations.StoresThatReplaceNothing := by
  intro s rt rs imm ea at' b all hw n i hi
  obtain ⟨-, he⟩ := exec_store hw hi
  refine ⟨fun h => ?_, fun h => ?_, fun h hiso => ?_, fun h => ?_⟩
  · exact he.trans (congrArg Host.Outcome.next (writeBytes_rom n n _ _ s h))
  · exact he.trans (congrArg Host.Outcome.next (writeBytes_unmapped n n _ _ s h))
  · exact he.trans (congrArg Host.Outcome.next (writeBytes_isolated n n _ _ s hiso h))
  · exact he.trans (congrArg Host.Outcome.next (writeBytes_io n n _ _ s h))

/-! ### Reads after the store of a word -/

section
variable {s : State} {a : Word} (v : Word) (hm : s.mem.wf = true) (hw : inCacheControl a = false)
  (h : ∀ j < 4, s.Writable (translateAddr a + BitVec.ofNat 32 j))
include hm hw h

/-- R83, R91: after the store of a word the bytes it was stored to hold the word's bytes. -/
theorem byteAt_memWrite {j : Nat} (hj : j < 4) : (memWrite a 4 v s).byteAt (translateAddr a + BitVec.ofNat 32 j) = getByte v j := by
  rw [memWrite_of_not_window hw, (writeBytes_writable 4 4 (by decide) (translateAddr a) v s hm h).1,
    if_pos (inSpan_iff.mpr ⟨j, hj, by omega, rfl⟩), BitVec.add_comm, BitVec.add_sub_cancel, BitVec.toNat_ofNat,
    Nat.mod_eq_of_lt (by omega)]

/-- R92, R93: after the store of a word, a read of `n` of its bytes from byte `j` up, through any view, answers them and has no effect. -/
theorem memRead_memWrite {a' : Word} {n j : Nat} (hw' : inCacheControl a' = false)
    (ha : translateAddr a' = translateAddr a + BitVec.ofNat 32 j) (hj : j + n ≤ 4) :
    memRead a' n (memWrite a 4 v s) = (wordOfBytes ((List.range n).map fun k => getByte v (j + k)), memWrite a 4 v s) := by
  have hat : ∀ k, translateAddr a' + BitVec.ofNat 32 k = translateAddr a + BitVec.ofNat 32 (j + k) := fun k => by
    rw [ha, BitVec.add_assoc, ← BitVec.ofNat_add]
  rw [memRead_backed hw' fun k hk => hat k ▸ (h (j + k) (by omega)).backed]
  congr 2
  refine List.map_congr_left fun k hk => ?_
  rw [hat, byteAt_memWrite v hm hw h (by have := List.mem_range.mp hk; omega)]

theorem memRead_word_memWrite {a' : Word} (hw' : inCacheControl a' = false) (ha : translateAddr a' = translateAddr a) :
    memRead a' 4 (memWrite a 4 v s) = (v, memWrite a 4 v s) := by
  rw [memRead_memWrite v hm hw h (j := 0) hw' (by simpa using ha) (by decide)]
  exact congrArg (·, memWrite a 4 v s) (wordOfBytes_bytesOfWord v)

end

/-- Settles O37: four bytes of RAM cross no edge of a segment or of the window, so each narrower read is of bytes of the word. -/
theorem mixedWidthView : Obligations.MixedWidthView := by
  intro s a hm hi h t
  have hw : inCacheControl a = false := by simpa using (translateAddr_add_of_ram h (j := 0) (by decide)).1
  have hread : ∀ n j, j < 4 → j + n ≤ 4 → (memRead (a + BitVec.ofNat 32 j) n t).1
      = wordOfBytes ((List.range n).map fun k => getByte 0x11223344#32 (j + k)) := fun n j hj hjn => by
    obtain ⟨hwj, haj⟩ := translateAddr_add_of_ram h hj
    exact congrArg Prod.fst (memRead_memWrite _ hm hw (fun k hk => .inr (.inr ⟨h k hk, hi⟩)) hwj haj hjn)
  have hread0 : ∀ n, n ≤ 4 → (memRead a n t).1 = wordOfBytes ((List.range n).map fun k => getByte 0x11223344#32 (0 + k)) :=
    fun n hn => by simpa using hread n 0 (by decide) (by omega)
  exact ⟨hread0 1 (by decide), hread 1 1 (by decide) (by decide), hread 1 2 (by decide) (by decide), hread 1 3 (by decide) (by decide),
    hread0 2 (by decide), hread 2 2 (by decide) (by decide)⟩

/-- Settles O42: the store leaves the registers alone, and the load reads the four bytes of the stored word. -/
theorem storeThenLoadWord : Obligations.StoreThenLoadWord := by
  intro s t rt rs rd rb imm off ea hm hw h hea hsw
  obtain rfl : memWrite ea 4 (s.reg rt) s = t := Host.Outcome.next.inj hsw
  have hload : effAddr ((memWrite ea 4 (s.reg rt) s).reg rb) off = ea := by
    rw [State.reg_of_x_eq (memWrite_x ..)]
    exact hea
  exact loadWith_of_memRead (f := id) (hload.symm ▸ memRead_word_memWrite _ hm hw h hw rfl)

/-- Settles O43: the store leaves `pc` alone, and the fetch reads the four bytes of the stored word. -/
theorem storeIsSeenByTheNextFetch : Obligations.StoreIsSeenByTheNextFetch := by
  intro s t rt rs imm ea hm hw hpc h hea hsw
  obtain rfl : memWrite ea 4 (s.reg rt) s = t := Host.Outcome.next.inj hsw
  rw [State.fetch, memWrite_pc]
  exact memRead_word_memWrite _ hm hw h hpc hea

/-! ### The unaligned pairs -/

theorem byteInWord_lt (a : Word) : byteInWord a < 4 := by
  rw [byteInWord_eq]
  omega

theorem wordAligned_toNat_mod (a : Word) : (wordAligned a).toNat % 4 = 0 := by
  rw [wordAligned_toNat]
  omega

theorem add_ofNat_add_ofNat (w : Word) (i j : Nat) : w + BitVec.ofNat 32 i + BitVec.ofNat 32 j = w + BitVec.ofNat 32 (i + j) := by
  rw [BitVec.add_assoc, ← BitVec.ofNat_add]

/-- The state after the loop of LWL or LWR over the bytes `i` up to `i + c` of the aligned word `w`, into byte `k` of `rt` and those
above it, and the write of `rt`. -/
def State.loadPart (s : State) (rt : RegNum) (w : Word) (i c k : Nat) : State :=
  let r := loadBytesInto c (w + BitVec.ofNat 32 i) k (s.reg rt) s
  r.2.setReg rt r.1

/-- The state after the loop of SWL or SWR over the bytes `i` up to `i + c` of the aligned word `w`, from byte `k` of `rt` and those
above it. -/
def State.storePart (s : State) (rt : RegNum) (w : Word) (i c k : Nat) : State :=
  storeBytesFrom c (w + BitVec.ofNat 32 i) k (s.reg rt) s

section
variable (s : State) (rt rs : RegNum) (imm : Imm16)

theorem exec_lwl : exec (.lwl rt rs imm) s = .next (s.loadPart rt (wordAligned (effAddr (s.reg rs) imm)) 0
    (byteInWord (effAddr (s.reg rs) imm) + 1) (3 - byteInWord (effAddr (s.reg rs) imm))) := by
  rw [State.loadPart, BitVec.add_zero]
  rfl

theorem exec_lwr : exec (.lwr rt rs imm) s = .next (s.loadPart rt (wordAligned (effAddr (s.reg rs) imm))
    (byteInWord (effAddr (s.reg rs) imm)) (4 - byteInWord (effAddr (s.reg rs) imm)) 0) := rfl

theorem exec_swl : exec (.swl rt rs imm) s = .next (s.storePart rt (wordAligned (effAddr (s.reg rs) imm)) 0
    (byteInWord (effAddr (s.reg rs) imm) + 1) (3 - byteInWord (effAddr (s.reg rs) imm))) := by
  rw [State.storePart, BitVec.add_zero]
  rfl

theorem exec_swr : exec (.swr rt rs imm) s = .next (s.storePart rt (wordAligned (effAddr (s.reg rs) imm))
    (byteInWord (effAddr (s.reg rs) imm)) (4 - byteInWord (effAddr (s.reg rs) imm)) 0) := rfl

end

section
variable {s : State} {rt : RegNum} {w : Word} (hal : w.toNat % 4 = 0) {i c k : Nat} (hi : i + c ≤ 4)
include hal hi

/-- R71: a byte of an aligned word lies in the window when the word does. -/
theorem inCacheControl_of_byte {b : Bool} (hw : inCacheControl w = b) :
    ∀ j < c, inCacheControl (w + BitVec.ofNat 32 i + BitVec.ofNat 32 j) = b := by
  intro j hj
  rw [add_ofNat_add_ofNat, inCacheControl_add hal (by omega), hw]

/-- R346, R347 with R90: outside the window each byte is a read of width 1, whatever its region. -/
theorem loadPart_each (hw : inCacheControl w = false) (hk : k + c ≤ 4) :
    ∃ (v : Word) (b : Nat → Byte), (∀ j, i ≤ j → j < i + c → s.Answers (translateAddr (w + BitVec.ofNat 32 j)) (b j))
      ∧ (∀ m < 4, getByte v m = if k ≤ m ∧ m < k + c then b (i + (m - k)) else getByte (s.reg rt) m)
      ∧ WritesReg (s.recordReads 1 ((List.range' i c).map fun j => (translateAddr (w + BitVec.ofNat 32 j), b j)))
          (s.loadPart rt w i c k) rt v := by
  obtain ⟨b, hans, hrec, hbytes⟩ := loadBytesInto_each c (w + BitVec.ofNat 32 i) k (s.reg rt) s hk (inCacheControl_of_byte hal hi hw)
  simp only [add_ofNat_add_ofNat] at hans hrec
  refine ⟨(loadBytesInto c (w + BitVec.ofNat 32 i) k (s.reg rt) s).1, fun j => b (j - i), fun j hij hj => ?_, fun m hm => ?_, ?_⟩
  · simpa [Nat.add_sub_cancel' hij] using hans (j - i) (by omega)
  · simpa only [Nat.add_sub_cancel_left] using hbytes m hm
  · simp only [List.range'_eq_map_range, List.map_map, Function.comp_def, Nat.add_sub_cancel_left, ← hrec]
    exact setReg_writesReg ..

/-- R71: within the window each byte reads 0, and nothing is recorded. -/
theorem loadPart_window (hw : inCacheControl w = true) (hk : k + c ≤ 4) :
    ∃ v, (∀ m < 4, getByte v m = if k ≤ m ∧ m < k + c then 0#8 else getByte (s.reg rt) m)
      ∧ WritesReg s (s.loadPart rt w i c k) rt v := by
  obtain ⟨hs, hbytes⟩ := loadBytesInto_window c (w + BitVec.ofNat 32 i) k (s.reg rt) s hk (inCacheControl_of_byte hal hi hw)
  refine ⟨_, hbytes, ?_⟩
  rw [State.loadPart, hs]
  exact setReg_writesReg ..

/-- R348, R349 with R91: outside the window each byte is a write of width 1, replaced or recorded as its region says. -/
theorem storePart_each (hw : inCacheControl w = false) (hm : s.mem.wf = true) :
    { s.storePart rt w i c k with mem := s.mem }
        = s.recordWrites 1 ((List.range' i c).map fun j => (translateAddr (w + BitVec.ofNat 32 j), getByte (s.reg rt) (k + (j - i))))
      ∧ ∀ j < 4, (s.storePart rt w i c k).byteAt (translateAddr (w + BitVec.ofNat 32 j))
        = if (i ≤ j ∧ j < i + c) ∧ s.Writable (translateAddr (w + BitVec.ofNat 32 j)) then getByte (s.reg rt) (k + (j - i))
          else s.byteAt (translateAddr (w + BitVec.ofNat 32 j)) := by
  have hinj : ∀ j < c, ∀ j' < 4, translateAddr (w + BitVec.ofNat 32 (i + j)) = translateAddr (w + BitVec.ofNat 32 j') → i + j = j' :=
    fun j hj j' hj' => translateAddr_inj hal (by omega) hj'
  obtain ⟨⟨m, hrec⟩, hin, hout⟩ := storeBytesFrom_each c (w + BitVec.ofNat 32 i) k (s.reg rt) s hm (inCacheControl_of_byte hal hi hw)
    fun j hj j' hj' h => by
      simp only [add_ofNat_add_ofNat] at h
      have := hinj j hj (i + j') (by omega) h
      omega
  simp only [add_ofNat_add_ofNat] at hrec hin hout
  rw [State.storePart]
  refine ⟨?_, fun j hj => ?_⟩
  · simp only [hrec, List.range'_eq_map_range, List.map_map, Function.comp_def, Nat.add_sub_cancel_left]
    rfl
  · by_cases hij : i ≤ j ∧ j < i + c
    · simpa [hij, Nat.add_sub_cancel' hij.1] using hin (j - i) (by omega)
    · rw [if_neg fun h => hij h.1, hout]
      intro j' hj' h
      have := hinj j' hj' j hj h.symm
      omega

/-- R71: within the window nothing is written, and nothing is recorded. -/
theorem storePart_window (hw : inCacheControl w = true) : s.storePart rt w i c k = s :=
  storeBytesFrom_window c (w + BitVec.ofNat 32 i) k (s.reg rt) s (inCacheControl_of_byte hal hi hw)

end

/-- Settles O44: LWL's loop runs over bytes 0 to n of the word, LWR's over bytes n to 3, within the window or without. -/
theorem lwlAndLwrBytes : Obligations.LwlAndLwrBytes := by
  intro s rt rs imm ea word n at' lwl lwr
  have hn : n < 4 := byteInWord_lt ea
  have hal : word.toNat % 4 = 0 := wordAligned_toNat_mod ea
  have hl : 0 + (n + 1) ≤ 4 ∧ 3 - n + (n + 1) ≤ 4 := by omega
  have hr : n + (4 - n) ≤ 4 ∧ 0 + (4 - n) ≤ 4 := by omega
  refine ⟨fun hw => ⟨?_, ?_⟩, fun hw => ⟨?_, ?_⟩⟩
  · obtain ⟨v, b, hans, hbytes, hreg⟩ := loadPart_each (s := s) (rt := rt) hal hl.1 hw hl.2
    rw [← List.range_eq_range'] at hreg
    refine ⟨_, v, b, exec_lwl s rt rs imm, fun j hj => hans j (by omega) (by omega), fun k hk => ?_, hreg⟩
    rw [hbytes k hk, Nat.zero_add]
    exact if_congr (by omega) rfl rfl
  · obtain ⟨v, b, hans, hbytes, hreg⟩ := loadPart_each (s := s) (rt := rt) hal hr.1 hw hr.2
    refine ⟨_, v, b, exec_lwr s rt rs imm, fun j hj hj' => hans j hj (by omega), fun k hk => ?_, hreg⟩
    rw [hbytes k hk]
    exact if_congr (by omega) rfl rfl
  · obtain ⟨v, hbytes, hreg⟩ := loadPart_window (s := s) (rt := rt) hal hl.1 hw hl.2
    refine ⟨_, v, exec_lwl s rt rs imm, fun k hk => ?_, hreg⟩
    rw [hbytes k hk]
    exact if_congr (by omega) rfl rfl
  · obtain ⟨v, hbytes, hreg⟩ := loadPart_window (s := s) (rt := rt) hal hr.1 hw hr.2
    refine ⟨_, v, exec_lwr s rt rs imm, fun k hk => ?_, hreg⟩
    rw [hbytes k hk]
    exact if_congr (by omega) rfl rfl

/-- Settles O45: SWL's loop runs over bytes 0 to n of the word, SWR's over bytes n to 3, within the window or without. -/
theorem swlAndSwrBytes : Obligations.SwlAndSwrBytes := by
  intro s rt rs imm ea word n at'
  have hn : n < 4 := byteInWord_lt ea
  have hal : word.toNat % 4 = 0 := wordAligned_toNat_mod ea
  have hl : 0 + (n + 1) ≤ 4 := by omega
  have hr : n + (4 - n) ≤ 4 := by omega
  refine ⟨fun hm hw => ⟨?_, ?_⟩, fun hw => ⟨?_, ?_⟩⟩
  · obtain ⟨hrec, hbytes⟩ := storePart_each (rt := rt) (k := 3 - n) hal hl hw hm
    rw [← List.range_eq_range'] at hrec
    refine ⟨_, exec_swl s rt rs imm, hrec, fun j hj => (hbytes j hj).trans ?_⟩
    exact if_congr (and_congr_left' (by omega)) rfl rfl
  · obtain ⟨hrec, hbytes⟩ := storePart_each (rt := rt) (k := 0) hal hr hw hm
    simp only [Nat.zero_add] at hrec hbytes
    refine ⟨_, exec_swr s rt rs imm, hrec, fun j hj => (hbytes j hj).trans ?_⟩
    exact if_congr (and_congr_left' (by omega)) rfl rfl
  · exact (exec_swl s rt rs imm).trans (congrArg Host.Outcome.next (storePart_window hal hl hw))
  · exact (exec_swr s rt rs imm).trans (congrArg Host.Outcome.next (storePart_window hal hr hw))

end Sys2Proof.Machine
end

section
/-! Encoding (30_encoding.md): what the decoder's maps look up fits the word, encoding and decoding are inverse, and which words have no entry. -/

namespace Sys2Proof

/-! ### The decoder's maps -/

/-- R134: the primary opcode selects the map. -/
theorem lookup_cases (f : Fields) :
    (f.op.toNat = 0x00 ∧ lookup f = specialMap f) ∨ (f.op.toNat = 0x01 ∧ lookup f = regimmMap f)
      ∨ (f.op.toNat = 0x10 ∧ lookup f = cop0Map f)
      ∨ ((f.op.toNat ≠ 0x00 ∧ f.op.toNat ≠ 0x01 ∧ f.op.toNat ≠ 0x10) ∧ lookup f = primaryMap f) := by
  unfold lookup
  split
  case h_1 hop => exact .inl ⟨hop, rfl⟩
  case h_2 hop => exact .inr (.inl ⟨hop, rfl⟩)
  case h_3 hop => exact .inr (.inr (.inl ⟨hop, rfl⟩))
  case h_4 h0 h1 h16 => exact .inr (.inr (.inr ⟨⟨h0, h1, h16⟩, rfl⟩))

/-! ### Masked words: field by field, in each layout (R121) -/

theorem and_eq_encodeR (w m : Word) : w &&& m = encodeR ((fields w).op &&& (fields m).op) ((fields w).rs &&& (fields m).rs)
    ((fields w).rt &&& (fields m).rt) ((fields w).rd &&& (fields m).rd) ((fields w).shamt &&& (fields m).shamt)
    ((fields w).funct &&& (fields m).funct) := by
  rw [← encodeR_and, ← eq_encodeR, ← eq_encodeR]

theorem and_eq_encodeI (w m : Word) : w &&& m = encodeI ((fields w).op &&& (fields m).op) ((fields w).rs &&& (fields m).rs)
    ((fields w).rt &&& (fields m).rt) ((fields w).imm &&& (fields m).imm) := by
  rw [← encodeI_and, ← eq_encodeI, ← eq_encodeI]

theorem and_eq_encodeJ (w m : Word) : w &&& m = encodeJ ((fields w).op &&& (fields m).op) ((fields w).target &&& (fields m).target) := by
  rw [← encodeJ_and, ← eq_encodeJ, ← eq_encodeJ]

@[simp] theorem and_ones_5 (x : BitVec 5) : x &&& 0x1F#5 = x := BitVec.and_allOnes

@[simp] theorem and_ones_6 (x : BitVec 6) : x &&& 0x3F#6 = x := BitVec.and_allOnes

@[simp] theorem and_ones_16 (x : BitVec 16) : x &&& 0xFFFF#16 = x := BitVec.and_allOnes

@[simp] theorem and_ones_26 (x : BitVec 26) : x &&& 0x3FFFFFF#26 = x := BitVec.and_allOnes

/-! ### What a word decodes to fits it

One lemma per map, by the map's entries. In each, the row of the instruction becomes literals before the fields of its masks are evaluated:
in one pass the kernel would have to compare the two forms of a mask by unfolding them. -/

/-- A word has the fixed bits of the instruction's row, and the instruction's encoding is the word with the ignored bits cleared. -/
def Instr.Fits (i : Instr) (w : Word) : Prop :=
  w &&& i.tableMask = i.tableMatch ∧ encode i = w &&& (i.tableMask ||| i.operandMask)

/-- A selector whose value a map matched. -/
theorem eq_ofNat_of_toNat_eq {n : Nat} {x : BitVec n} {k : Nat} (h : x.toNat = k) : x = BitVec.ofNat n k :=
  (BitVec.toNat_eq_nat.1 h).2

/-- R131: the words of SPECIAL, masked in the R layout. -/
theorem fits_of_specialMap {w : Word} {i : Instr} (hop : (fields w).op.toNat = 0x00) (h : specialMap (fields w) = .known i) : i.Fits w := by
  rw [Instr.Fits, and_eq_encodeR, and_eq_encodeR]
  generalize fields w = f at *
  unfold specialMap at h
  split at h
  case h_28 => cases h
  all_goals
    next hfunct =>
      obtain rfl := Decoded.known.inj h
      simp only [encode, Instr.tableMask, Instr.tableMatch, Instr.operandMask]
      simp [fields, eq_ofNat_of_toNat_eq hop, eq_ofNat_of_toNat_eq hfunct]
      rfl

/-- R132: the words of REGIMM, masked in the I layout. -/
theorem fits_of_regimmMap {w : Word} {i : Instr} (hop : (fields w).op.toNat = 0x01) (h : regimmMap (fields w) = .known i) : i.Fits w := by
  rw [Instr.Fits, and_eq_encodeI, and_eq_encodeI]
  generalize fields w = f at *
  unfold regimmMap at h
  split at h
  case h_5 => cases h
  all_goals
    next hrt =>
      obtain rfl := Decoded.known.inj h
      simp only [encode, Instr.tableMask, Instr.tableMatch, Instr.operandMask]
      simp [fields, eq_ofNat_of_toNat_eq hop, eq_ofNat_of_toNat_eq hrt]
      rfl

/-- R133: the words of COP0, masked in the R layout. -/
theorem fits_of_cop0Map {w : Word} {i : Instr} (hop : (fields w).op.toNat = 0x10) (h : cop0Map (fields w) = .known i) : i.Fits w := by
  rw [Instr.Fits, and_eq_encodeR, and_eq_encodeR]
  generalize fields w = f at *
  unfold cop0Map at h
  split at h
  case h_3 => cases h
  all_goals
    next hrs =>
      obtain rfl := Decoded.known.inj h
      simp only [encode, Instr.tableMask, Instr.tableMatch, Instr.operandMask]
      simp [fields, eq_ofNat_of_toNat_eq hop, eq_ofNat_of_toNat_eq hrs]
      rfl

/-- R130: J and JAL, masked in the J layout, and the other words of the primary map, in the I layout. -/
theorem fits_of_primaryMap {w : Word} {i : Instr} (h : primaryMap (fields w) = .known i) : i.Fits w := by
  unfold Instr.Fits primaryMap at *
  split at h
  case h_27 => cases h
  case h_1 hop | h_2 hop =>
    obtain rfl := Decoded.known.inj h
    rw [and_eq_encodeJ, and_eq_encodeJ]
    generalize fields w = f at *
    simp only [encode, Instr.tableMask, Instr.tableMatch, Instr.operandMask]
    simp [fields, eq_ofNat_of_toNat_eq hop]
    rfl
  all_goals
    next hop =>
      obtain rfl := Decoded.known.inj h
      rw [and_eq_encodeI, and_eq_encodeI]
      generalize fields w = f at *
      simp only [encode, Instr.tableMask, Instr.tableMatch, Instr.operandMask]
      simp [fields, eq_ofNat_of_toNat_eq hop]
      rfl

/-- R145: what the maps look up for a word fits the word. -/
theorem fits_of_lookup {w : Word} {i : Instr} (h : lookup (fields w) = .known i) : i.Fits w := by
  obtain ⟨hop, e⟩ | ⟨hop, e⟩ | ⟨hop, e⟩ | ⟨-, e⟩ := lookup_cases (fields w)
  · exact fits_of_specialMap hop (e ▸ h)
  · exact fits_of_regimmMap hop (e ▸ h)
  · exact fits_of_cop0Map hop (e ▸ h)
  · exact fits_of_primaryMap (e ▸ h)

/-- Settles O3: a looked-up instruction fits the word, and the decoder passes only what P_EXTENDED admits. -/
theorem decodeKeepsEveryCountingBit : Obligations.DecodeKeepsEveryCountingBit := by
  intro extended w i h
  obtain ⟨hlookup, hwf⟩ := (decode_eq_known_iff extended w i).1 h
  obtain ⟨hmatch, hencode⟩ := fits_of_lookup hlookup
  exact ⟨hmatch, hencode, hwf⟩

/-! ### Encode, then decode -/

theorem lookup_encode (i : Instr) : lookup (fields (encode i)) = .known i := by
  cases i <;> simp [encode, lookup, specialMap, regimmMap, cop0Map, primaryMap]

theorem decodeBytes_bytesOfWord (extended : Bool) (w : Word) : decodeBytes extended (bytesOfWord w) = decode extended w :=
  congrArg (decode extended) (Machine.wordOfBytes_bytesOfWord w)

/-- Settles O2: the four bytes give the encoded word, and the maps look the instruction up in its fields. -/
theorem decodeOfEncodeIsTheInstruction : Obligations.DecodeOfEncodeIsTheInstruction := by
  intro extended i hwf
  rw [decodeBytes_bytesOfWord, decode_eq_known_iff]
  exact ⟨lookup_encode i, hwf⟩

/-! ### Every encoding -/

theorem append_eq_encodeR (op fn : BitVec 6) (rs rt rd : RegNum) (sh : Shamt) :
    op ++ rs ++ rt ++ rd ++ sh ++ fn = encodeR op rs rt rd sh fn := rfl

theorem append_eq_encodeI (op : BitVec 6) (rs rt : RegNum) (imm : Imm16) : op ++ rs ++ rt ++ imm = encodeI op rs rt imm := rfl

theorem append_eq_encodeJ (op : BitVec 6) (target : Target26) : op ++ target = encodeJ op target := rfl

/-- SYSCALL's layout: the code field holds what the R layout calls rs, rt, rd and shamt. -/
theorem append_code_eq_encodeR (op fn : BitVec 6) (code : BitVec 20) : op ++ code ++ fn = encodeR op (code.extractLsb' 15 5)
    (code.extractLsb' 10 5) (code.extractLsb' 5 5) (code.extractLsb' 0 5) fn := by
  have hcode : code = code.extractLsb' 15 5 ++ (code.extractLsb' 10 5 ++ (code.extractLsb' 5 5 ++ code.extractLsb' 0 5)) := by
    rw [BitVec.extractLsb'_append_extractLsb'_eq_extractLsb' (by rfl), BitVec.extractLsb'_append_extractLsb'_eq_extractLsb' (by rfl),
      BitVec.extractLsb'_append_extractLsb'_eq_extractLsb' (by rfl), BitVec.extractLsb'_eq_self]
  conv_lhs => rw [hcode]
  simp only [encodeR, BitVec.append_assoc, BitVec.cast_eq]

/-- The layout of MFC0 and MTC0: the low bits hold what the R layout calls shamt and funct. -/
theorem append_low_eq_encodeR (op : BitVec 6) (rs rt rd : RegNum) (low : BitVec 11) :
    op ++ rs ++ rt ++ rd ++ low = encodeR op rs rt rd (low.extractLsb' 6 5) (low.extractLsb' 0 6) := by
  have hlow : low = low.extractLsb' 6 5 ++ low.extractLsb' 0 6 := by
    rw [BitVec.extractLsb'_append_extractLsb'_eq_extractLsb' (by rfl), BitVec.extractLsb'_eq_self]
  conv_lhs => rw [hlow]
  simp only [encodeR, BitVec.append_assoc, BitVec.cast_eq]

/-- Settles O4: a word written out in its layout shows its fields, and the maps select by no ignored one. -/
theorem everyEncodingDecodes : Obligations.EveryEncodingDecodes := by
  intro e rs rt rd sh imm target code low
  simp only [append_eq_encodeR, append_eq_encodeI, append_eq_encodeJ, append_code_eq_encodeR, append_low_eq_encodeR, decode_eq_known_iff]
  simp [lookup, specialMap, regimmMap, cop0Map, primaryMap, Instr.wf, Instr.isExtended]

/-! ### Unknown words -/

/-- P_EXTENDED admits no instruction that the maps answer: they have none, or one of the extended set with the switch off. -/
def Decoded.NotAdmitted (extended : Bool) (d : Decoded) : Prop := ∀ i, d = .known i → i.wf extended = false

@[simp] theorem Decoded.notAdmitted_known (extended : Bool) (i : Instr) : (known i).NotAdmitted extended ↔ i.wf extended = false := by
  simp [NotAdmitted]

@[simp] theorem Decoded.notAdmitted_unknown (extended : Bool) (why : UnknownWord) : (unknown why).NotAdmitted extended := by
  simp [NotAdmitted]

theorem decode_ne_known_iff (extended : Bool) (w : Word) : (∀ i, decode extended w ≠ .known i) ↔ (lookup (fields w)).NotAdmitted extended := by
  simp [Decoded.NotAdmitted, decode_eq_known_iff]

/-- R131: the function codes without an entry, and those of the extended set. -/
theorem notAdmitted_specialMap (extended : Bool) (f : Fields) : (specialMap f).NotAdmitted extended ↔
    (f.funct.toNat ∈ [0x01, 0x05, 0x0A, 0x0B, 0x0D, 0x0E, 0x0F, 0x28, 0x29] ∨ (0x14 ≤ f.funct.toNat ∧ f.funct.toNat ≤ 0x17)
        ∨ (0x1C ≤ f.funct.toNat ∧ f.funct.toNat ≤ 0x1F) ∨ 0x2C ≤ f.funct.toNat)
      ∨ (extended = false ∧ f.funct.toNat ∈ [0x10, 0x11, 0x12, 0x13, 0x19]) := by
  have hlt := f.funct.isLt
  unfold specialMap
  generalize f.funct.toNat = n at *
  interval_cases n <;> simp [Instr.wf, Instr.isExtended]

/-- R132: the rt selectors without an entry, and BLTZAL. -/
theorem notAdmitted_regimmMap (extended : Bool) (f : Fields) : (regimmMap f).NotAdmitted extended ↔
    f.rt.toNat ∉ [0x00, 0x01, 0x10, 0x11] ∨ (extended = false ∧ f.rt.toNat = 0x10) := by
  have hlt := f.rt.isLt
  unfold regimmMap
  generalize f.rt.toNat = n at *
  interval_cases n <;> simp [Instr.wf, Instr.isExtended]

/-- R133: the rs selectors without an entry. -/
theorem notAdmitted_cop0Map (extended : Bool) (f : Fields) : (cop0Map f).NotAdmitted extended ↔ f.rs.toNat ≠ 0x00 ∧ f.rs.toNat ≠ 0x04 := by
  have hlt := f.rs.isLt
  unfold cop0Map
  generalize f.rs.toNat = n at *
  interval_cases n <;> simp [Instr.wf, Instr.isExtended]

/-- R130: the opcodes without an entry, and the four of the unaligned pairs. -/
theorem notAdmitted_primaryMap (extended : Bool) (f : Fields) (h : f.op.toNat ≠ 0x00 ∧ f.op.toNat ≠ 0x01 ∧ f.op.toNat ≠ 0x10) :
    (primaryMap f).NotAdmitted extended ↔
      ((0x11 ≤ f.op.toNat ∧ f.op.toNat ≤ 0x1F) ∨ f.op.toNat = 0x27 ∨ f.op.toNat = 0x2C ∨ f.op.toNat = 0x2D ∨ f.op.toNat = 0x2F
          ∨ 0x30 ≤ f.op.toNat)
        ∨ (extended = false ∧ f.op.toNat ∈ [0x22, 0x26, 0x2A, 0x2E]) := by
  have hlt := f.op.isLt
  unfold primaryMap
  generalize f.op.toNat = n at *
  interval_cases n <;> simp [Instr.wf, Instr.isExtended] at h ⊢

/-! ### Fields as the rules of the maps write them -/

theorem fields_op_toNat (w : Word) : (fields w).op.toNat = (w >>> 26).toNat := by
  simp only [fields, BitVec.extractLsb'_toNat, BitVec.toNat_ushiftRight]
  omega

theorem fields_rs_toNat (w : Word) : (fields w).rs.toNat = ((w >>> 21) &&& 0x1F#32).toNat := by
  simpa [fields] using (Nat.and_two_pow_sub_one_eq_mod _ 5).symm

theorem fields_rt_toNat (w : Word) : (fields w).rt.toNat = ((w >>> 16) &&& 0x1F#32).toNat := by
  simpa [fields] using (Nat.and_two_pow_sub_one_eq_mod _ 5).symm

theorem fields_funct_toNat (w : Word) : (fields w).funct.toNat = (w &&& 0x3F#32).toNat := by
  simpa [fields] using (Nat.and_two_pow_sub_one_eq_mod _ 6).symm

/-- Settles O5: the opcode says which map answers, and that map's selector, whether it has an entry that is admitted. -/
theorem unknownWordsAreExactlyThese : Obligations.UnknownWordsAreExactlyThese := by
  intro extended w
  simp only [decode_ne_known_iff, ← fields_op_toNat, ← fields_rs_toNat, ← fields_rt_toNat, ← fields_funct_toNat]
  obtain ⟨hop, e⟩ | ⟨hop, e⟩ | ⟨hop, e⟩ | ⟨hop, e⟩ := lookup_cases (fields w)
  · simp [e, hop, notAdmitted_specialMap]
  · simp [e, hop, notAdmitted_regimmMap]
  · simp [e, hop, notAdmitted_cop0Map]
  · simp [e, hop, notAdmitted_primaryMap extended _ hop, or_assoc]

/-! ### The examples -/

/-- Settles O1: the decoder is run on the words. -/
theorem specExampleWordsDecode : Obligations.SpecExampleWordsDecode := by
  unfold Obligations.SpecExampleWordsDecode
  decide

end Sys2Proof
end

section
/-! The instruction cycle (40_cycle.md): a step around `exec`, the armed branch, and what a delay slot does with it. -/

namespace Sys2Proof.Machine

/-! ### The state in which the instruction executes -/

namespace State
variable (s : State)

@[simp] theorem fetch_run : s.fetch.2.run = s.run := memRead_run ..

@[simp] theorem executing_run : s.executing.run = s.run := s.checkpoint.fetch_run

/-- R161 steps (1), (2), (5) and (6): up to Execute a cycle changes `pc`, the delayed branch, the latch and the records of the fetch. -/
theorem executing_restored : { s.executing with
    pc := s.pc, brArmed := s.brArmed, irqPending := s.irqPending, consumed := s.consumed, diag := s.diag, ioLog := s.ioLog } = s := by
  obtain ⟨d, l, hfetch⟩ := fetch_effect s.checkpoint
  rw [executing, hfetch]
  rfl

end State

/-- Settles O7: the step ends the cycle of what `exec` answers, and its executing state is the one that R161 describes. -/
theorem stepExecutesTheDecodedInstruction : Obligations.StepExecutesTheDecodedInstruction := by
  intro s i hr hd
  refine ⟨fun t ht => ?_, ?_⟩
  · obtain ⟨u, hu, -, hs⟩ := step_known hr hd
    obtain rfl : u = t := Host.Outcome.next.inj (hu.symm.trans ht)
    exact hs
  · rintro _ rfl
    exact ⟨s.executing_pc, s.executing_brArmed, s.executing_irqPending, s.executing_consumed, s.executing_restored⟩

/-! ### The delay slot -/

/-- R165: an instruction that runs while a branch is armed is followed by the fetch at the target, unless it is SYSCALL. -/
theorem step_pc_of_brArmed {s : State} {i : Instr} (hr : s.run = .running) (hb : s.brArmed = true) (hd : s.decoded = .known i)
    (hi : i ≠ .syscall) : ∃ t, step s = .next t ∧ t.pc = wordAligned s.brTarget := by
  obtain ⟨t, hs, hpc⟩ := pcAfterCompletedCycle s i hr hd
  rw [if_neg hi, if_pos hb] at hpc
  exact ⟨t, hs, hpc⟩

/-- R164: with nothing armed before it, a cycle that leaves a branch armed ran a jump or a branch, no SYSCALL and no unknown word; so
`pc` is the next address (R162), and the loop runs on. -/
theorem step_arms {s t : State} (hb : s.brArmed = false) (h : step s = .next t) (ht : t.brArmed = true) :
    t.run = .running ∧ t.pc = s.pc + 4#32 := by
  obtain ⟨hr, ⟨i, u, -, -, frame, rfl⟩ | ⟨why, -, rfl⟩⟩ := step_cases h
  · have hi : i ≠ .syscall := by
      rintro rfl
      have hu : u.brArmed = false := frame.brArmed rfl
      exact Bool.false_ne_true (hu.symm.trans ht)
    refine ⟨frame.run.trans (s.executing_run.trans hr), ?_⟩
    rw [frame.endCycle_pc, if_neg hi, hb]
    rfl
  · simp [hb] at ht

/-- Settles O12: the cycle that arms goes on to the next address, and the cycle after it to the armed target. -/
theorem delaySlotRunsOnceBeforeTheTarget : Obligations.DelaySlotRunsOnceBeforeTheTarget := by
  intro s s1 i _ hb hs hb1 hd1 hi
  obtain ⟨hr1, hpc1⟩ := step_arms hb hs hb1
  exact ⟨hpc1, step_pc_of_brArmed hr1 hb1 hd1 hi⟩

theorem wordAligned_or (a b : Word) : wordAligned (a ||| b) = wordAligned a ||| wordAligned b := BitVec.and_or_distrib_right ..

theorem wordAligned_shiftLeft_two (a : Word) : wordAligned (a <<< 2) = a <<< 2 := by
  have hmask : 0xFFFFFFFC#32 = BitVec.allOnes 32 <<< 2 := by decide
  rw [wordAligned, hmask, ← BitVec.shiftLeft_and_distrib, BitVec.and_allOnes]

/-- R190: the targets of J and JAL are word addresses. -/
theorem wordAligned_jtarget (pc : Word) (target : Target26) : wordAligned (jtarget pc target) = jtarget pc target := by
  have hsegment : wordAligned (pc &&& 0xF0000000#32) = pc &&& 0xF0000000#32 := BitVec.and_assoc ..
  rw [jtarget, wordAligned_or, hsegment, wordAligned_shiftLeft_two]

theorem exec_j (target : Target26) (s : State) : exec (.j target) s = .next (s.armBranch (jtarget s.pc target)) := rfl

/-- Settles O13: J's cycle applies the first target and arms its own, which the cycle of the instruction there applies. -/
theorem jumpInDelaySlot : Obligations.JumpInDelaySlot := by
  intro s target hr hb hd
  obtain ⟨u, hu, frame, hs⟩ := step_known hr hd
  rw [exec_j, s.executing_pc] at hu
  have hpc : u.endCycle.pc = wordAligned s.brTarget := by
    rw [frame.endCycle_pc, if_neg (by simp), if_pos hb]
  have hrun : u.endCycle.run = .running := frame.run.trans (s.executing_run.trans hr)
  obtain rfl := Host.Outcome.next.inj hu
  refine ⟨_, hs, hpc, rfl, rfl, fun i hi hne => ?_⟩
  obtain ⟨v, hv, hvpc⟩ := step_pc_of_brArmed hrun rfl hi hne
  exact ⟨v, hv, hvpc.trans (wordAligned_jtarget (s.pc + 4#32) target)⟩

theorem exec_syscall (s : State) : exec .syscall s = .next s.raiseSyscall := rfl

/-- Settles O14: trap entry drops the consumed branch and saves `pc - 4`, while `pc` is the SYSCALL's address plus 4. -/
theorem syscallInDelaySlotLosesTheBranch : Obligations.SyscallInDelaySlotLosesTheBranch := by
  intro s hr _ hd
  obtain ⟨u, hu, frame, hs⟩ := step_known hr hd
  obtain rfl := Host.Outcome.next.inj ((exec_syscall _).symm.trans hu)
  have hepc : s.executing.raiseSyscall.cp0Reg 14#5 = s.executing.pc - 4#32 := State.cp0Reg_raiseSyscall s.executing 14#5
  rw [s.executing_pc, BitVec.add_sub_cancel] at hepc
  exact ⟨_, hs, frame.endCycle_pc, rfl, rfl, hepc⟩

end Sys2Proof.Machine
end

section
/-! Jumps and branches (41_branch.md, and BLTZAL of 46_extended.md): the two shapes, a branch alone and a branch with its link. -/

namespace Sys2Proof.Machine

/-- R44: the link write and the branch touch different fields, so either may come first. -/
theorem State.branchIf_setReg (s : State) (r : RegNum) (v : Word) (c : Bool) (b : Word) :
    (s.setReg r v).branchIf c b = (s.branchIf c b).setReg r v := by
  cases c <;> rfl

theorem State.branchIf_eq_ite (s : State) {c : Bool} {p : Prop} [Decidable p] (h : c = true ↔ p) (b : Word) :
    s.branchIf c b = if p then s.armBranch b else s :=
  if_congr h rfl rfl

theorem setReg_branchIf_writesReg (s : State) (r : RegNum) (v : Word) (c : Bool) (b : Word) :
    WritesReg (s.branchIf c b) ((s.setReg r v).branchIf c b) r v := by
  rw [s.branchIf_setReg]
  exact setReg_writesReg ..

/-- R164: a conditional branch whose condition `c` computes `p` arms its target when `p` holds, and otherwise does nothing. -/
theorem branchOn_eq_ite {c : Bool} {p : Prop} [Decidable p] (h : c = true ↔ p) (imm : Imm16) (s : State) :
    branchOn c imm s = .next (if p then s.armBranch (branchTarget imm s) else s) :=
  congrArg Host.Outcome.next (s.branchIf_eq_ite h _)

/-- R200, D26: a linking branch is the branch without the link, followed by the link write; `c` is read in the state before both. -/
theorem branchLinkOn_writesReg {c : Bool} {p : Prop} [Decidable p] (h : c = true ↔ p) (imm : Imm16) (s : State) :
    ∃ t, branchLinkOn c imm s = .next t
      ∧ WritesReg (if p then s.armBranch (branchTarget imm s) else s) t 31#5 s.linkAddr := by
  rw [← s.branchIf_eq_ite h]
  exact ⟨_, rfl, setReg_branchIf_writesReg ..⟩

/-- Settles O27: J and JR arm only; JAL and JALR are the linking shape with the branch always taken, the target read first. -/
theorem jumpsArmAndLink : Obligations.JumpsArmAndLink := by
  intro s target rd rs t26
  refine ⟨exec_j target s, ⟨_, rfl, ?_⟩, rfl, ⟨_, rfl, ?_⟩⟩
  · exact setReg_branchIf_writesReg s 31#5 s.linkAddr true (jtarget s.pc target)
  · exact setReg_branchIf_writesReg s rd s.linkAddr true (s.reg rs)

/-- Settles O28: each of the six is `branchOn` of the Boolean that decides its condition; BNE's is the negation of the stated one. -/
theorem conditionalBranches : Obligations.ConditionalBranches := by
  intro s rs rt imm a taken
  refine ⟨?beq, ?bne, ?blez, ?bgtz, ?bltz, ?bgez⟩
  case beq => exact branchOn_eq_ite beq_iff_eq imm s
  case bne => exact (branchOn_eq_ite bne_iff_ne imm s).trans (congrArg Host.Outcome.next (ite_not ..))
  case blez | bgtz | bltz | bgez => exact branchOn_eq_ite decide_eq_true_iff imm s

/-- Settles O29: both are `branchLinkOn` of the Boolean that decides the condition of BGEZ or of BLTZ. -/
theorem linkingBranches : Obligations.LinkingBranches := by
  intro s rs imm a taken
  exact ⟨branchLinkOn_writesReg decide_eq_true_iff imm s, branchLinkOn_writesReg decide_eq_true_iff imm s⟩

end Sys2Proof.Machine
end

section
/-! The ALU, the shift unit, the comparisons and LUI (42_alu.md): each is one register result (R234), so what is left to say is the value. -/

namespace Sys2Proof.Machine

/-- R234: an instruction of the ALU completes, and its result is all that it changes. -/
theorem writeResult_writesReg (dst : RegNum) (v : Word) (s : State) : ∃ t, writeResult dst v s = .next t ∧ WritesReg s t dst v :=
  ⟨_, rfl, setReg_writesReg s dst v⟩

/-! ### Immediates (R123) -/

theorem ofInt_toInt_imm (imm : Imm16) : BitVec.ofInt 32 imm.toInt = simm imm := rfl

theorem simm_toInt (imm : Imm16) : (simm imm).toInt = imm.toInt := BitVec.toInt_signExtend_of_le (by decide)

theorem zero_append_imm (imm : Imm16) : 0#16 ++ imm = zimm imm := (BitVec.setWidth_eq_append (by decide)).symm

/-! ### Add and subtract -/

theorem ofInt_toNat {w : Nat} (a : BitVec w) : BitVec.ofInt w a.toNat = a := by
  rw [BitVec.ofInt_natCast, BitVec.ofNat_toNat, BitVec.setWidth_eq]

theorem ofInt_sub {w : Nat} (x y : Int) : BitVec.ofInt w (x - y) = BitVec.ofInt w x - BitVec.ofInt w y := by
  rw [Int.sub_eq_add_neg, BitVec.ofInt_add, BitVec.ofInt_neg, ← BitVec.sub_eq_add_neg]

/-- Settles O18: narrowing a sum or a difference to 32 bits narrows its operands, and narrowed to its own width a word is itself. -/
theorem addAndSubtractWrap : Obligations.AddAndSubtractWrap := by
  intro s rd rs rt imm
  simp only [BitVec.ofInt_add, ofInt_sub, BitVec.ofNat_add, BitVec.ofInt_toInt, ofInt_toNat, BitVec.ofNat_toNat, BitVec.setWidth_eq,
    ofInt_toInt_imm]
  refine ⟨?add, ?addu, ?addi, ?addiu, ?sub, ?subu⟩
  case add | addu => exact writeResult_writesReg rd (s.reg rs + s.reg rt) s
  case addi | addiu => exact writeResult_writesReg rt (s.reg rs + simm imm) s
  case sub | subu => exact writeResult_writesReg rd (s.reg rs - s.reg rt) s

/-! ### Logical -/

/-- Settles O19: the bitwise results, with the immediate of ANDI, ORI and XORI as `zimm`. -/
theorem logicalOperations : Obligations.LogicalOperations := by
  intro s rd rs rt imm
  rw [zero_append_imm]
  refine ⟨?and, ?andi, ?or, ?ori, ?xor, ?xori, ?nor⟩
  case and | or | xor | nor => exact writeResult_writesReg rd _ s
  case andi | ori | xori => exact writeResult_writesReg rt _ s

/-! ### Shifts -/

/-- R235: the low 5 bits of a register are its value modulo 32. -/
theorem vsa_eq_mod (v : Word) : vsa v = v.toNat % 32 := Nat.and_two_pow_sub_one_eq_mod v.toNat 5

/-- Settles O20: the shift results, with a variable amount as `vsa`. -/
theorem shifts : Obligations.Shifts := by
  intro s rd rt rs shamt
  rw [← vsa_eq_mod]
  refine ⟨?sll, ?srl, ?sra, ?sllv, ?srlv, ?srav⟩
  case sll | srl | sra | sllv | srlv | srav => exact writeResult_writesReg rd _ s

/-! ### Comparisons -/

/-- R37: a comparison whose Boolean `c` computes `p` writes 1 when `p` holds, and otherwise 0. -/
theorem writeResult_wordOfBool {c : Bool} {p : Prop} [Decidable p] (h : c = true ↔ p) (dst : RegNum) (s : State) :
    ∃ t, writeResult dst (wordOfBool c) s = .next t ∧ WritesReg s t dst (if p then 1 else 0) := by
  have hword : wordOfBool c = if p then 1 else 0 := if_congr h rfl rfl
  rw [hword]
  exact writeResult_writesReg dst _ s

/-- R244: SLTI compares the immediate by its signed value, which sign extension keeps. -/
theorem lessSigned_simm (a : Word) (imm : Imm16) : lessSigned a (simm imm) = true ↔ a.toInt < imm.toInt := by
  rw [lessSigned, simm_toInt, decide_eq_true_iff]

/-- Settles O21: each writes the word of the Boolean that decides its condition. -/
theorem comparisons : Obligations.Comparisons := by
  intro s rd rs rt imm
  refine ⟨?slt, ?sltu, ?slti, ?sltiu⟩
  case slt | sltu => exact writeResult_wordOfBool decide_eq_true_iff rd s
  case slti => exact writeResult_wordOfBool (lessSigned_simm (s.reg rs) imm) rt s
  case sltiu => exact writeResult_wordOfBool decide_eq_true_iff rt s

/-! ### Load upper immediate -/

/-- Settles O22: `uimm` is the immediate above sixteen zeros, and the two halves of such a word are its parts. -/
theorem loadUpperImmediate : Obligations.LoadUpperImmediate := by
  intro s rt imm
  obtain ⟨t, hexec, hwrites⟩ := writeResult_writesReg rt (uimm imm) s
  exact ⟨t, uimm imm, hexec, hwrites, BitVec.extractLsb'_append_eq_left, BitVec.extractLsb'_append_eq_right⟩

end Sys2Proof.Machine
end

section
/-! The multiply/divide unit (43_muldiv.md): the four instructions write HI and LO alone, so what is left to say is the pair. -/

namespace Sys2Proof.Machine

/-- R38: writing HI and LO changes nothing else, so putting their old values back gives the old state. -/
theorem State.setHiLo_restored (s : State) (hi lo : Word) : { s.setHiLo hi lo with hi := s.hi, lo := s.lo } = s := rfl

/-! ### Products -/

theorem productHalves_append (p : BitVec 64) : (productHalves p).1 ++ (productHalves p).2 = p :=
  BitVec.extractLsb'_append_extractLsb' (w := 32) (len := 32)

/-- R260: the product of two signed 32-bit numbers fits in 64 bits. -/
theorem mulSigned_toInt (a b : Word) : ((mulSigned a b).1 ++ (mulSigned a b).2).toInt = a.toInt * b.toInt := by
  have hlower : -2 ^ 62 ≤ a.toInt * b.toInt := BitVec.le_toInt_mul_toInt
  have hupper : a.toInt * b.toInt ≤ 2 ^ 62 := BitVec.toInt_mul_toInt_le
  rw [mulSigned, productHalves_append]
  exact BitVec.toInt_ofInt_eq_self (by decide) (by omega) (by omega)

/-- R340: so does the product of two unsigned ones. -/
theorem mulUnsigned_toNat (a b : Word) : ((mulUnsigned a b).1 ++ (mulUnsigned a b).2).toNat = a.toNat * b.toNat := by
  rw [mulUnsigned, productHalves_append]
  exact Nat.mod_eq_of_lt BitVec.toNat_mul_toNat_lt

/-- Settles O23: HI and LO are the halves of a 64-bit product that loses nothing. -/
theorem productsAreExact : Obligations.ProductsAreExact := by
  intro s rs rt
  exact ⟨⟨_, rfl, mulSigned_toInt (s.reg rs) (s.reg rt), s.setHiLo_restored _ _⟩,
    ⟨_, rfl, mulUnsigned_toNat (s.reg rs) (s.reg rt), s.setHiLo_restored _ _⟩⟩

/-! ### Signed division -/

theorem divSigned_zero (a : Word) : divSigned a 0#32 = (a, if 0 ≤ a.toInt then 0xFFFFFFFF#32 else 0x00000001#32) := rfl

theorem divSigned_unrepresentable : divSigned 0x80000000#32 0xFFFFFFFF#32 = (0#32, 0x80000000#32) := rfl

/-- R261: unless the quotient does not fit, the truncated quotient is `sdiv`, and what it leaves of the dividend is `srem`. -/
theorem divSigned_eq {a b : Word} (hb : b ≠ 0#32) (hfit : ¬ (a = 0x80000000#32 ∧ b = 0xFFFFFFFF#32)) :
    divSigned a b = (a.srem b, a.sdiv b) := by
  have hremainder : a.toInt - a.toInt.tdiv b.toInt * b.toInt = (a.srem b).toInt := by
    rw [BitVec.toInt_srem, sub_eq_iff_eq_add', Int.tdiv_mul_add_tmod]
  have hquotient : a.toInt.tdiv b.toInt = (a.sdiv b).toInt := (BitVec.toInt_sdiv_of_ne_or_ne a b (not_and_or.mp hfit)).symm
  rw [divSigned, if_neg hb, if_neg hfit]
  simp only [hremainder]
  rw [hquotient, BitVec.ofInt_toInt, BitVec.ofInt_toInt]

theorem toInt_eq_sdiv_mul_add_srem {a b : Word} (hfit : ¬ (a = 0x80000000#32 ∧ b = 0xFFFFFFFF#32)) :
    a.toInt = (a.sdiv b).toInt * b.toInt + (a.srem b).toInt := by
  rw [BitVec.toInt_sdiv_of_ne_or_ne a b (not_and_or.mp hfit), BitVec.toInt_srem, Int.tdiv_mul_add_tmod]

theorem abs_srem_lt {a b : Word} (hb : b ≠ 0#32) : |(a.srem b).toInt| < |b.toInt| := by
  have hpos : 0 < b.toInt.natAbs := Int.natAbs_pos.mpr fun h => hb (BitVec.eq_of_toInt_eq h)
  rw [BitVec.toInt_srem, Int.abs_eq_natAbs, Int.abs_eq_natAbs, Int.natAbs_tmod]
  exact Int.ofNat_lt.mpr (Nat.mod_lt _ hpos)

theorem srem_sign (a b : Word) : (a.srem b).toInt = 0 ∨ ((a.srem b).toInt < 0 ↔ a.toInt < 0) := by
  rw [BitVec.toInt_srem]
  by_cases hdvd : b.toInt ∣ a.toInt
  · exact .inl (Int.tmod_eq_zero_of_dvd hdvd)
  · have hsign : (a.toInt.tmod b.toInt).sign = a.toInt.sign := (Int.sign_tmod ..).trans (if_neg hdvd)
    exact .inr (by rw [← Int.sign_neg_iff, hsign, Int.sign_neg_iff])

/-- Settles O24: the two special cases have their own results, and in every other the pair is `srem` and `sdiv`. -/
theorem signedDivision : Obligations.SignedDivision := by
  intro s rs rt
  refine ⟨_, rfl, s.setHiLo_restored _ _, ?zero, ?unrepresentable, ?quotient⟩
  case zero =>
    intro hb
    rw [hb, divSigned_zero]
    exact ⟨rfl, rfl⟩
  case unrepresentable =>
    intro ha hb
    rw [ha, hb, divSigned_unrepresentable]
    exact ⟨rfl, rfl⟩
  case quotient =>
    intro hb hfit
    rw [divSigned_eq hb hfit]
    exact ⟨toInt_eq_sdiv_mul_add_srem hfit, abs_srem_lt hb, srem_sign ..⟩

/-! ### Unsigned division -/

theorem divUnsigned_zero (a : Word) : divUnsigned a 0#32 = (a, 0xFFFFFFFF#32) := rfl

/-- R262: with a divisor, the pair is the remainder and the quotient of words. -/
theorem divUnsigned_eq (a : Word) {b : Word} (hb : b ≠ 0#32) : divUnsigned a b = (a % b, a / b) := by
  rw [divUnsigned, if_neg hb, ← BitVec.toNat_umod, ← BitVec.toNat_udiv]
  simp only [BitVec.ofNat_toNat, BitVec.setWidth_eq]

theorem toNat_eq_udiv_mul_add_umod (a b : Word) : a.toNat = (a / b).toNat * b.toNat + (a % b).toNat := by
  rw [BitVec.toNat_udiv, BitVec.toNat_umod, Nat.div_add_mod']

/-- Settles O25: a zero divisor has its own results, and with any other the pair is the remainder and the quotient of words. -/
theorem unsignedDivision : Obligations.UnsignedDivision := by
  intro s rs rt
  refine ⟨_, rfl, s.setHiLo_restored _ _, ?zero, ?quotient⟩
  case zero =>
    intro hb
    rw [hb, divUnsigned_zero]
    exact ⟨rfl, rfl⟩
  case quotient =>
    intro hb
    rw [divUnsigned_eq _ hb]
    exact ⟨toNat_eq_udiv_mul_add_umod .., BitVec.umod_lt _ ((BitVec.pos_iff_ne_zero _).mpr hb)⟩

end Sys2Proof.Machine
end

section
/-! Loads and stores at every address (44_loadstore.md R280-R291, and the unaligned pairs of 46_extended.md): each is one bus operation, which
completes whatever the address, so what is left to say is its frame. -/

namespace Sys2Proof.Machine

/-! ### Loads -/

/-- Settles O30: each of the five is `loadWith` at its own width and extension. -/
theorem loadsWriteWhatMemReadAnswers : Obligations.LoadsWriteWhatMemReadAnswers := by
  intro s rt rs imm ea
  refine ⟨?lb, ?lbu, ?lh, ?lhu, ?lw⟩
  case lb | lh => exact loadWith_of_memRead (f := signExtendBytes _) rfl
  case lbu | lhu => exact loadWith_of_memRead (f := zeroExtendBytes _) rfl
  case lw => exact loadWith_of_memRead (f := id) rfl

/-- R290: every load is reads, which no address stops, and then the write of `rt`. -/
theorem exec_load (s : State) (rt rs : RegNum) (imm : Imm16) :
    ∀ i ∈ [.lb rt rs imm, .lbu rt rs imm, .lh rt rs imm, .lhu rt rs imm, .lw rt rs imm, .lwl rt rs imm, .lwr rt rs imm],
      ∃ u v, exec i s = .next (u.setReg rt v) ∧ ReadEffect s u := by
  simp only [List.forall_mem_cons]
  refine ⟨?lb, ?lbu, ?lh, ?lhu, ?lw, ?lwl, ?lwr, List.forall_mem_nil _⟩
  case lb | lbu | lh | lhu | lw => exact ⟨_, _, rfl, memRead_effect ..⟩
  case lwl | lwr => exact ⟨_, _, rfl, loadBytesInto_effect ..⟩

/-- Settles O32: reads only add to the two event sequences, and the write of `rt` leaves the other registers alone. -/
theorem loadsCompleteEverywhere : Obligations.LoadsCompleteEverywhere := by
  intro s rt rs imm i hi
  obtain ⟨u, v, hexec, hread⟩ := exec_load s rt rs imm i hi
  obtain ⟨hdiag, hioLog⟩ := hread.eventsGrow
  obtain ⟨d, l, rfl⟩ := hread
  refine ⟨_, hexec, fun k hk => ?_, fun q => rfl, rfl, hdiag, hioLog⟩
  rw [State.reg_setReg, if_neg fun h => hk h.1]
  rfl

/-! ### Stores -/

/-- Settles O38: each of the three is `storeWith` at its own width. -/
theorem storesAreMemWrites : Obligations.StoresAreMemWrites := by
  intro s rt rs imm ea
  exact ⟨rfl, rfl, rfl⟩

/-- R291: what writes whose bytes are all `stored` leave alone. -/
theorem WriteEffect.frame {P : Nat → Prop} {s t : State} (h : WriteEffect P s t) {stored : Word → Prop}
    (hP : ∀ q, ¬ stored q → ¬ P q.toNat) :
    (∀ q, ¬ stored q → t.byteAt q = s.byteAt q)
      ∧ { t with mem := s.mem, diag := s.diag, ioLog := s.ioLog } = s ∧ s.diag <+: t.diag ∧ s.ioLog <+: t.ioLog := by
  have hgrow : EventsGrow s t := h.eventsGrow
  obtain ⟨m, d, l, rfl, hmem, -⟩ := h
  exact ⟨fun q hq => hmem q.toNat (hP q hq), rfl, hgrow⟩

/-- The loop of SWL or SWR touches only the translations of the bytes `i` up to `i + c` of its word. -/
theorem storePart_effect (s : State) (rt : RegNum) (w : Word) (i c k : Nat) :
    WriteEffect (fun a => ∃ j, i ≤ j ∧ j < i + c ∧ a = (translateAddr (w + BitVec.ofNat 32 j)).toNat) s (s.storePart rt w i c k) := by
  refine (storeBytesFrom_effect ..).mono ?_
  rintro a ⟨j, hj, rfl⟩
  exact ⟨i + j, by omega, by omega, by rw [add_ofNat_add_ofNat]⟩

/-- Settles O40: SB, SH and SW write the bytes of one span, SWL's loop bytes 0 to n of the word, and SWR's bytes n to 3. -/
theorem storesCompleteEverywhere : Obligations.StoresCompleteEverywhere := by
  intro s rt rs imm ea word n done
  refine ⟨?sb, ?sh, ?sw, ⟨_, exec_swl s rt rs imm, (storePart_effect ..).frame ?swl⟩,
    ⟨_, exec_swr s rt rs imm, (storePart_effect ..).frame ?swr⟩⟩
  case sb | sh | sw => exact ⟨_, rfl, (memWrite_effect ..).frame fun _ => not_span_of_not_inSpan⟩
  case swl =>
    rintro q hq ⟨j, -, (hj : j < 0 + (n + 1)), e⟩
    exact hq ⟨j, by omega, BitVec.eq_of_toNat_eq e⟩
  case swr =>
    have hn : n < 4 := byteInWord_lt ea
    rintro q hq ⟨j, hnj, (hj : j < n + (4 - n)), e⟩
    exact hq ⟨j, hnj, by omega, BitVec.eq_of_toNat_eq e⟩

end Sys2Proof.Machine
end

section
/-! Coprocessor 0 access (45_cop0_system.md R310-R312): MFC0 is one register write and MTC0 one CP0 write, whose effect on cache-isolate
follows from register 12. -/

namespace Sys2Proof.Machine

/-- R41: a write to the CP0 bank moves cache-isolate only when it is to register 12, and then to bit 16 of the value, set or clear. -/
theorem State.isolated_setCp0 (s : State) (r : RegNum) (v : Word) :
    (s.setCp0 r v).isolated = if r = 12#5 then v.getLsbD 16 else s.isolated := by
  rw [isolated, cp0Reg_setCp0]
  by_cases hr : r = 12#5
  · rw [if_pos hr, if_pos hr.symm, isolateBit]
  · rw [if_neg hr, if_neg (Ne.symm hr), isolated]

theorem State.setCp0_restored (s : State) (r : RegNum) (v : Word) : { s.setCp0 r v with cp0 := s.cp0 } = s := rfl

/-- Settles O47: MFC0 is the write of `rt`, and MTC0 the CP0 write, with the level of cache-isolate that register 12 then gives. -/
theorem cp0Moves : Obligations.Cp0Moves := by
  intro s rt rd
  refine ⟨⟨_, rfl, ?mfc0⟩, ⟨_, rfl, ?bank, ?frame, ?isolate⟩⟩
  case mfc0 => exact setReg_writesReg s rt (s.cp0Reg rd)
  case bank => exact fun k => s.cp0Reg_setCp0 rd k (s.reg rt)
  case frame => exact s.setCp0_restored rd (s.reg rt)
  case isolate => exact s.isolated_setCp0 rd (s.reg rt)

end Sys2Proof.Machine
end

section
/-! The extended set (46_extended.md): the moves from and to HI and LO, and the pair of LWR and LWL that loads an unaligned word. -/

namespace Sys2Proof.Machine

/-! ### HI and LO -/

/-- Settles O26: MFHI and MFLO are one register write each, and MTHI and MTLO one write of HI or LO. -/
theorem hiLoMoves : Obligations.HiLoMoves := by
  intro s r
  refine ⟨⟨_, rfl, ?mfhi⟩, ⟨_, rfl, ?mflo⟩, ?mthi, ?mtlo⟩
  case mfhi => exact setReg_writesReg s r s.hi
  case mflo => exact setReg_writesReg s r s.lo
  case mthi | mtlo => rfl

/-! ### The unaligned pair -/

theorem wordAligned_add_byteInWord (a : Word) : wordAligned a + BitVec.ofNat 32 (byteInWord a) = a := by
  apply BitVec.eq_of_toNat_eq
  rw [toNat_add_small (wordAligned_toNat_mod a) (byteInWord_lt a), wordAligned_toNat, byteInWord_eq]
  omega

/-- The aligned word of the last of the four bytes from `a` up begins at one of the four. -/
theorem wordAligned_add_three (a : Word) : wordAligned (a + 3#32) = a + BitVec.ofNat 32 (3 - byteInWord (a + 3#32)) := by
  have hn := byteInWord_lt (a + 3#32)
  apply add_right_cancel (b := BitVec.ofNat 32 (byteInWord (a + 3#32)))
  rw [wordAligned_add_byteInWord, add_ofNat_add_ofNat, Nat.sub_add_cancel (by omega)]

theorem byteInWord_add_three (a : Word) : byteInWord (a + 3#32) = (byteInWord a + 3) % 4 := by
  rw [byteInWord_eq, byteInWord_eq, BitVec.toNat_add, BitVec.toNat_ofNat]
  omega

theorem eq_append_getByte (v : Word) : v = getByte v 3 ++ getByte v 2 ++ getByte v 1 ++ getByte v 0 :=
  (wordOfBytes_bytesOfWord v).symm.trans (wordOfBytes_four ..)

/-- Of two writes to one register the later one is left. -/
theorem WritesReg.overwrite {s t u : State} {r : RegNum} {v v' : Word} (h : WritesReg s t r v) (h' : WritesReg t u r v') :
    WritesReg s u r v' := by
  obtain ⟨hreg, hrest⟩ := h
  obtain ⟨hreg', hrest'⟩ := h'
  refine ⟨fun k => ?_, ?_⟩
  · rw [hreg' k, hreg k]
    split <;> rfl
  · calc { u with x := s.x }
        = { { u with x := t.x } with x := s.x } := rfl
      _ = { t with x := s.x } := by rw [hrest']
      _ = s := hrest

section
variable {s : State} {a : Word} (h : ∀ j < 4, inCacheControl (a + BitVec.ofNat 32 j) = false
  ∧ (regionOf (translateAddr (a + BitVec.ofNat 32 j)).toNat).backed = true) (rt rs : RegNum) (imm : Imm16)
include h

/-- Where the core holds the four bytes from `a` up, a loop that begins at byte `k` of them puts each into its own place in `rt`. -/
theorem loadPart_backed {w : Word} {i c k : Nat} (hstart : w + BitVec.ofNat 32 i = a + BitVec.ofNat 32 k) (hk : k + c ≤ 4) :
    ∃ v, s.loadPart rt w i c k = s.setReg rt v ∧ ∀ m < 4, getByte v m
      = if k ≤ m ∧ m < k + c then s.byteAt (translateAddr (a + BitVec.ofNat 32 m)) else getByte (s.reg rt) m := by
  obtain ⟨hs, hbytes⟩ := loadBytesInto_backed c (a + BitVec.ofNat 32 k) k (s.reg rt) s hk fun j hj =>
    add_ofNat_add_ofNat a k j ▸ h (k + j) (by omega)
  refine ⟨_, by rw [State.loadPart, hstart, hs], fun m hm => (hbytes m hm).trans ?_⟩
  refine if_ctx_congr Iff.rfl (fun hin => ?_) fun _ => rfl
  rw [add_ofNat_add_ofNat, Nat.add_sub_cancel' hin.1]

/-- R347: LWR at `a` loads the bytes from `a` to the end of its aligned word. -/
theorem exec_lwr_backed (hea : effAddr (s.reg rs) imm = a) :
    ∃ v, exec (.lwr rt rs imm) s = .next (s.setReg rt v) ∧ ∀ m < 4, getByte v m
      = if m < 4 - byteInWord a then s.byteAt (translateAddr (a + BitVec.ofNat 32 m)) else getByte (s.reg rt) m := by
  obtain ⟨v, hload, hbytes⟩ := loadPart_backed h rt (w := wordAligned a) (i := byteInWord a) (c := 4 - byteInWord a) (k := 0)
    (by rw [wordAligned_add_byteInWord, BitVec.add_zero]) (by omega)
  refine ⟨v, by rw [exec_lwr, hea, hload], fun m hm => (hbytes m hm).trans ?_⟩
  exact if_congr (by omega) rfl rfl

/-- R346: LWL at `a + 3` loads the bytes from the start of its aligned word to `a + 3`. -/
theorem exec_lwl_backed (hea : effAddr (s.reg rs) imm = a + 3#32) :
    ∃ v, exec (.lwl rt rs imm) s = .next (s.setReg rt v) ∧ ∀ m < 4, getByte v m
      = if 3 - byteInWord (a + 3#32) ≤ m then s.byteAt (translateAddr (a + BitVec.ofNat 32 m)) else getByte (s.reg rt) m := by
  have hn := byteInWord_lt (a + 3#32)
  obtain ⟨v, hload, hbytes⟩ := loadPart_backed h rt (w := wordAligned (a + 3#32)) (i := 0) (c := byteInWord (a + 3#32) + 1)
    (k := 3 - byteInWord (a + 3#32)) (by rw [BitVec.add_zero, wordAligned_add_three]) (by omega)
  refine ⟨v, by rw [exec_lwl, hea, hload], fun m hm => (hbytes m hm).trans ?_⟩
  exact if_congr (by omega) rfl rfl

end

/-- Settles O46: each of the two puts a byte of the access into the same place of `rt`, and every byte that LWL keeps, LWR has loaded. -/
theorem unalignedPairLoadsTheWord : Obligations.UnalignedPairLoadsTheWord := by
  intro s t rt rs imm imm' ea b hrt hrs hea h hlwr
  obtain ⟨v, hexec, hv⟩ := exec_lwr_backed h rt rs imm rfl
  obtain rfl : s.setReg rt v = t := Host.Outcome.next.inj (hexec.symm.trans hlwr)
  have hbase : (s.setReg rt v).reg rs = s.reg rs := by rw [State.reg_setReg, if_neg fun e => hrs e.1]
  have hkept : (s.setReg rt v).reg rt = v := by rw [State.reg_setReg, if_pos ⟨rfl, hrt⟩]
  obtain ⟨v', hexec', hv'⟩ := exec_lwl_backed (s := s.setReg rt v) h rt rs imm' (by rw [hbase]; exact hea)
  rw [hkept] at hv'
  have hbytes : ∀ m < 4, getByte v' m = b m := by
    intro m hm
    rw [hv' m hm]
    split
    · rfl
    · have hlt := byteInWord_lt ea
      have hlast := byteInWord_add_three ea
      rw [hv m hm, if_pos (by omega)]
  refine ⟨_, hexec', ?_⟩
  rw [← hbytes 0 (by decide), ← hbytes 1 (by decide), ← hbytes 2 (by decide), ← hbytes 3 (by decide), ← eq_append_getByte]
  exact (setReg_writesReg s rt v).overwrite (setReg_writesReg ..)

end Sys2Proof.Machine
end

section
/-! Exceptions (60_exceptions.md): SYSCALL's trap entry, the stop at an unknown word, and the interrupt line that no step reads. -/

namespace Sys2Proof.Machine

/-! ### Trap entry -/

/-- R371: trap entry writes the CP0 bank and `pc`, drops the consumed branch, and keeps every other field. -/
theorem State.raiseSyscall_restored (s : State) :
    { s.raiseSyscall with cp0 := s.cp0, pc := s.pc, consumed := s.consumed } = s := rfl

/-- Settles O48: EPC gets `pc - 4`, which is `ia` at the wrap of the address space too. -/
theorem syscallTrapEntry : Obligations.SyscallTrapEntry := by
  intro s ia hpc
  refine ⟨s.raiseSyscall, exec_syscall s, ?epc, s.cp0Reg_raiseSyscall 13#5, ?others, rfl, rfl, s.raiseSyscall_restored⟩
  case epc =>
    calc s.raiseSyscall.cp0Reg 14#5
        = s.pc - 4#32 := s.cp0Reg_raiseSyscall 14#5
      _ = ia := by rw [hpc, BitVec.add_sub_cancel]
  case others =>
    intro k h13 h14
    calc s.raiseSyscall.cp0Reg k
        = if k = 13#5 then 0x00000020#32 else if k = 14#5 then s.pc - 4#32 else s.cp0Reg k := s.cp0Reg_raiseSyscall k
      _ = if k = 14#5 then s.pc - 4#32 else s.cp0Reg k := if_neg h13
      _ = s.cp0Reg k := if_neg h14

/-! ### The unknown word -/

/-- R375: the cycle that stops changes `run`, and otherwise what its checkpoint and its fetch change: the latch and the records. -/
theorem State.fatalStop_restored (s : State) (w : Word) :
    { s.checkpoint.fetch.2.fatalStop w with run := s.run, irqPending := s.irqPending, diag := s.diag, ioLog := s.ioLog } = s := by
  obtain ⟨d, l, hfetch⟩ := fetch_effect s.checkpoint
  rw [hfetch]
  rfl

theorem State.fatalReport_of_fatal {s : State} {fpc fword : Word} (h : s.run = .fatal fpc fword) :
    s.fatalReport = some (fpc, fword) := by
  rw [fatalReport, h]

/-- Settles O8: the fetch keeps `pc`, so the stop records the word's own address, and a loop that has stopped faults. -/
theorem unknownWordStopsFatally : Obligations.UnknownWordStopsFatally := by
  intro s why hr hd
  have hrun : (s.checkpoint.fetch.2.fatalStop s.checkpoint.fetch.1).run = .fatal s.pc s.checkpoint.fetch.1 :=
    congrArg (RunState.fatal · s.checkpoint.fetch.1) s.checkpoint.fetch_pc
  refine ⟨_, step_unknown hr hd, hrun, s.fatalStop_restored _, fun u hu => ?_, State.fatalReport_of_fatal hrun⟩
  rw [step_fatal hrun] at hu
  cases hu

/-! ### The interrupt line -/

/-- Another line and latch alone are a case of other values in all the fields that nothing reads. -/
theorem State.withUnread_line {t : State} {c : BitVec 64} (h : t.cycles = c) (level old : Bool) :
    t.withUnread level old c = { t with irqLine := level, irqPending := old } := by
  subst h
  rfl

/-- Settles O16: another line and latch go through the step unread, and `cycles` gets in both runs what O11 says. -/
theorem interruptLineIsOnlyLatched : Obligations.InterruptLineIsOnlyLatched := by
  intro s t level old h
  obtain ⟨hline, hpending⟩ := step_irq h
  obtain ⟨t', ht', hcycles, -⟩ := cyclesCountCompletedCycles s (step_cases h).1
  obtain rfl : t = t' := Host.Outcome.next.inj (h.symm.trans ht')
  refine ⟨hpending, hline, ?_⟩
  rw [← State.withUnread_line (t := s) rfl]
  cases hd : s.decoded with
  | known i =>
    rw [hd] at hcycles
    rw [step_unread_known level old s.cycles hd h, State.withUnread_line hcycles]
  | unknown why =>
    rw [hd] at hcycles
    rw [step_unread_unknown level old s.cycles hd h, State.withUnread_line hcycles]

end Sys2Proof.Machine
end
